-- ==== Sys2Proof/Word.lean ====
section
/-! DEFINITION. The words of the block: bytes, binary64 patterns, bin indices, command words, stage codes, and eight
like things indexed by bin (spec/10_state.md section 1, spec/30_encoding.md R71 and R76). -/

namespace Sys2Proof

/-- A sample or an output character: 8 bits (spec/20_memory.md R52). -/
abbrev Byte := BitVec 8

/-- The 64-bit pattern of one binary64 number (spec/00_scope.md R13). -/
abbrev F64 := BitVec 64

/-- A bin index 0..7 (spec/00_scope.md R16): 0..3 the low group, 4..7 the high group. -/
abbrev Bin := BitVec 3

/-- A symbol index 4*row + col (spec/41_harmonic_table.md R125). -/
abbrev SymIndex := BitVec 4

/-- A word on `in_cmd[9:0]` (spec/30_encoding.md R71). -/
abbrev CmdWord := BitVec 10

/-- A stage code as `STG` holds it (spec/30_encoding.md R76). -/
abbrev StageCode := BitVec 3

/-- Eight values, one for each bin: the register files `RE`, `IM`, `MAG` (spec/10_state.md R25 and R26). -/
structure Lanes (α : Type) where
  b0 : α
  b1 : α
  b2 : α
  b3 : α
  b4 : α
  b5 : α
  b6 : α
  b7 : α
  deriving DecidableEq, Repr

/-- The value of bin `b`. -/
def Lanes.get {α : Type} (l : Lanes α) (b : Bin) : α :=
  match b.toNat with
  | 0 => l.b0
  | 1 => l.b1
  | 2 => l.b2
  | 3 => l.b3
  | 4 => l.b4
  | 5 => l.b5
  | 6 => l.b6
  | _ => l.b7

/-- The eight values `f 0 .. f 7`. -/
def Lanes.ofFn {α : Type} (f : Bin → α) : Lanes α :=
  { b0 := f 0, b1 := f 1, b2 := f 2, b3 := f 3, b4 := f 4, b5 := f 5, b6 := f 6, b7 := f 7 }

/-- The eight bins in ascending order, which is ascending frequency (spec/41_harmonic_table.md R121). -/
def bins : List Bin := [0, 1, 2, 3, 4, 5, 6, 7]

end Sys2Proof
end

