-- ==== Sys2Proof/Syntax.lean ====
section
/-! DEFINITION. The instructions: one constructor for each row of spec/opcode_table.json, the four host commands and the
seven micro-operations a PUSH runs (spec/00_scope.md R3), and the stimulus notation a host's script is written in
(spec/30_encoding.md R90 and R91). -/

namespace Sys2Proof

/-- The instructions of the opcode table. -/
inductive Instr where
  /-- NOP (spec/40_commands.md R103). -/
  | nop
  /-- PUSH of one sample (spec/40_commands.md R104 and R105). -/
  | push (sample : Byte)
  /-- EOS, end of stream (spec/40_commands.md R106). -/
  | eos
  /-- RESET, start of stream (spec/40_commands.md R107). -/
  | reset
  /-- WRITE, stage 1 (spec/45_window_buffer.md R210). -/
  | write
  /-- PDFT, stage 2 (spec/42_spectral_analyzer.md R140). -/
  | pdft
  /-- MAGX, stage 3 (spec/42_spectral_analyzer.md R150). -/
  | magx
  /-- PEAK, stage 4 (spec/43_digit_decoder.md R170). -/
  | peak
  /-- DECIDE, stage 5 (spec/43_digit_decoder.md R173). -/
  | decide
  /-- SEG, stage 6 (spec/44_segmentation_fsm.md R190). -/
  | seg
  /-- SLIDE, stage 7 (spec/45_window_buffer.md R212). -/
  | slide
  deriving DecidableEq, Repr

/-- The word an instruction is carried in: formats CMD and UOP (spec/30_encoding.md R71 and R76). -/
inductive Frame where
  /-- A word on the command port. -/
  | cmd (w : CmdWord)
  /-- A code in the stage register. -/
  | uop (c : StageCode)
  deriving DecidableEq, Repr

/-- One line of a stimulus script (spec/30_encoding.md R90 and R91). Numbers are as the script writes them;
WellFormed.lean says which are legal. -/
inductive Line where
  | nop
  | push (byte : Nat)
  | eos
  | reset
  /-- `PUSHN count byte`. -/
  | pushN (count byte : Nat)
  /-- `PUSHV b0 b1 ... bm`. -/
  | pushV (bytes : List Nat)
  /-- `PUSHT table start count`. -/
  | pushT (table : List Nat) (start count : Nat)
  deriving DecidableEq, Repr

end Sys2Proof
end

