-- ==== Sys2Proof/Decode.lean ====
section
/-! DEFINITION. The decoder, total on every word of both formats, then the encoder, then the expansion of a stimulus
script into commands (spec/30_encoding.md R71 to R76, R90, R91). -/

namespace Sys2Proof

/-- Why a word is no instruction. Only one word of the two formats is none. -/
inductive DecodeError where
  /-- Stage code `0b000`, IDLE: "the state between commands", no micro-operation (spec/30_encoding.md R76). -/
  | idleStage
  deriving DecidableEq, Repr

/-- `op = in_cmd[9:8]` (R71). -/
def opField (w : CmdWord) : BitVec 2 := w.extractLsb' 8 2

/-- `data = in_cmd[7:0]` (R71), which is the sample of a PUSH as it is: unsigned, unscaled (R73). -/
def dataField (w : CmdWord) : Byte := w.extractLsb' 0 8

/-- The command a word on the port selects (R72). Every word is one; `data` counts only for PUSH (R74). -/
def decodeCmd (w : CmdWord) : Instr :=
  match (opField w).toNat with
  | 0 => .nop
  | 1 => .push (dataField w)
  | 2 => .eos
  | _ => .reset

/-- The micro-operation a stage code names (R76). -/
def decodeUop (c : StageCode) : Except DecodeError Instr :=
  match c.toNat with
  | 0 => .error .idleStage
  | 1 => .ok .write
  | 2 => .ok .pdft
  | 3 => .ok .magx
  | 4 => .ok .peak
  | 5 => .ok .decide
  | 6 => .ok .seg
  | _ => .ok .slide

/-- The decoder over both formats. -/
def decode : Frame → Except DecodeError Instr
  | .cmd w => .ok (decodeCmd w)
  | .uop c => decodeUop c

/-- `{op, data}` (R71). -/
def cmdWord (op : BitVec 2) (data : Byte) : CmdWord := op ++ data

/-- The encoder. A command whose `data` is ignored gets the canonical word, `data = 0` (R74). -/
def encode : Instr → Frame
  | .nop => .cmd (cmdWord 0 0)
  | .push sample => .cmd (cmdWord 1 sample)
  | .eos => .cmd (cmdWord 2 0)
  | .reset => .cmd (cmdWord 3 0)
  | .write => .uop 1
  | .pdft => .uop 2
  | .magx => .uop 3
  | .peak => .uop 4
  | .decide => .uop 5
  | .seg => .uop 6
  | .slide => .uop 7

/-- The instruction read from a row's bits, numbered as spec/opcode_table.json numbers them. A UOP row has 3 bits and so
one whole byte, a CMD row 10 bits and so two; the format is told from the width. Bits above the format's width have no
wire and are not read (log entry 13). -/
def decodeTableWord (nbits w : Nat) : Option Instr :=
  if nbits ≤ 8 then (decodeUop (BitVec.ofNat 3 w)).toOption else some (decodeCmd (BitVec.ofNat 10 w))

/-- The commands a script line stands for, in order (R90 and R91). -/
def Line.expand : Line → List Instr
  | .nop => [.nop]
  | .push b => [.push (BitVec.ofNat 8 b)]
  | .eos => [.eos]
  | .reset => [.reset]
  | .pushN count b => List.replicate count (.push (BitVec.ofNat 8 b))
  | .pushV bs => bs.map fun b => .push (BitVec.ofNat 8 b)
  | .pushT t start count =>
    (List.range count).map fun i => .push (BitVec.ofNat 8 (t.getD ((start + i) % t.length) 0))

/-- The word of a command; a micro-operation has none on the port. -/
def commandWord? (i : Instr) : Option CmdWord :=
  match encode i with
  | .cmd w => some w
  | .uop _ => none

/-- The words a script puts on `in_cmd[9:0]`, in order. -/
def scriptWords (ls : List Line) : List CmdWord := (ls.flatMap Line.expand).filterMap commandWord?

end Sys2Proof
end

