-- ==== Sys2Proof/Machine/State.lean ====
section
/-! DEFINITION. The state of the block (spec/10_state.md section 1), the reasons a step can stop, and the state after
reset. The three ROMs are constants of the configuration (Machine/Tables.lean), which nothing writes (log entry 12). -/

namespace Sys2Proof.Machine

/-- The contents of `WIN`: (index, byte) pairs, indices rising, no byte equal to what an unlisted element reads as.
Machine/Ops.lean says what that is. -/
abbrev Memory := List Host.Cell

/-- The detection state `S` (spec/10_state.md R29). -/
inductive DetState where
  | idle
  | tone
  deriving DecidableEq, Repr

/-- `MODE`, the phase of the stream (spec/10_state.md R30). -/
inductive Mode where
  | run
  | done
  deriving DecidableEq, Repr

/-- The kind of a verdict, `RK`. The code 3 is never produced and has no constructor (spec/93_implementation_defined.md
U7; log entry 17). -/
inductive VerdictKind where
  | none
  | unknown
  | digit
  deriving DecidableEq, Repr

/-- `STG`, the micro-operation in progress (spec/10_state.md R31). -/
inductive Stage where
  | idle
  | write
  | pdft
  | magx
  | peak
  | decide
  | seg
  | slide
  deriving DecidableEq, Repr

/-- What the host drives at one rising clock edge, apart from `in_cmd` (spec/30_encoding.md R70). -/
structure Pins where
  /-- `rst_n`; low resets. -/
  rstN : Bool
  /-- `in_valid`: the host offers its next command, if it has one. -/
  inValid : Bool
  /-- `out_ready`: the host takes a character, if one is pending. -/
  outReady : Bool
  deriving DecidableEq, Repr

/-- The levels of an edge at which the host neither resets nor waits. -/
def Pins.ready : Pins := { rstN := true, inValid := true, outReady := true }

/-- The state of the block and of the two streams at its boundary. -/
structure State where
  /-- `WIN[0..227]`, 228 x 8 bits (R21). -/
  win : Memory
  /-- `FILL`, 8 bits: the number of valid samples in `WIN` (R22). -/
  fill : Byte
  /-- `RE[0..7]` (R25). -/
  re : Lanes F64
  /-- `IM[0..7]` (R25). -/
  im : Lanes F64
  /-- `MAG[0..7]` (R26). -/
  mag : Lanes F64
  /-- `TOP1` (R27). -/
  top1 : Bin
  /-- `TOP2` (R27). -/
  top2 : Bin
  /-- `RK` (R28). -/
  rk : VerdictKind
  /-- `RSYM`, 4 bits (R28). -/
  rsym : SymIndex
  /-- `S` (R29). -/
  det : DetState
  /-- `SIL`, 8 bits, saturating (R29). -/
  sil : Byte
  /-- `MODE` (R30). -/
  mode : Mode
  /-- `PERR`, the sticky protocol error flag (R30). -/
  perr : Bool
  /-- `STG` (R31). -/
  stg : Stage
  /-- The data byte of the PUSH in progress, the operand of WRITE. The model's own field (log entry 5). -/
  sample : Byte
  /-- The character emitted and not yet taken by the host; at most one (R32). -/
  pend : Option Byte
  /-- The characters the host has taken, oldest first (R32). -/
  out : List Byte
  /-- The commands the host will offer on `in_cmd`, the next one first. The host's side of the port (log entry 3). -/
  cmdq : List CmdWord
  /-- The levels the host drives at the coming edges, the next one first; after the last, `Pins.ready` (log entry 3). -/
  pins : List Pins
  deriving DecidableEq, Repr

/-- Why the machine stops with a fault. -/
inductive Fault where
  /-- WRITE, also inside a PUSH, at an index `FILL` that is no element of `WIN` (spec/20_memory.md R50). The spec has no
  such event, because `FILL <= 227` whenever a sample is stored (spec/45_window_buffer.md R210); only states that no run
  reaches raise it. Safe. -/
  | winIndex (i : Nat)
  deriving DecidableEq, Repr

/-- Why an instruction has no meaning. -/
inductive Refusal where
  /-- An arm of `exec` that gives its instruction no meaning raises it. No arm does. Safe. -/
  | notModelled (mnemonic : String)
  deriving DecidableEq, Repr

/-- The state after reset (spec/10_state.md R39). `fill`, `det`, `sil`, `mode`, `perr`, `stg`, `pend` and `out` are the
spec's values. The spec leaves `win` and the transient registers unspecified; their values here are choices (log entries 1
and 2), and so is `sample` (log entry 5). The host offers nothing and drives no level of note. -/
def State.reset : State :=
  { win := [], fill := 0,
    re := Lanes.ofFn fun _ => 0, im := Lanes.ofFn fun _ => 0, mag := Lanes.ofFn fun _ => 0,
    top1 := 0, top2 := 1, rk := .none, rsym := 0,
    det := .idle, sil := 0, mode := .run, perr := false, stg := .idle,
    sample := 0, pend := none, out := [], cmdq := [], pins := [] }

end Sys2Proof.Machine
end

