-- ==== Sys2Proof/Config.lean ====
section
/-! DEFINITION. The configuration record: every constant a rule uses is a field (spec/00_scope.md R8). The one set the
spec specifies, PS1, stands in Machine/Tables.lean; what a set must meet stands in WellFormed.lean. The record is fixed
at build time and no command writes it (spec/10_state.md R33). -/

namespace Sys2Proof

/-- One entry `(cosine, sine)` of the twiddle table (spec/42_spectral_analyzer.md R143). -/
structure Twiddle where
  c : F64
  s : F64
  deriving DecidableEq, Repr

/-- A parameter set (spec/00_scope.md R8). -/
structure Params where
  /-- `FS`, samples per second. -/
  fs : Nat
  /-- `N`, samples in a window. -/
  n : Nat
  /-- `HRES_NOMINAL`, Hz; used by no rule (spec/90_conflicts.md C1). -/
  hresNominal : Nat
  /-- `SHIFT`, new samples between two analyses. -/
  shift : Nat
  /-- `THRESH`, the detection magnitude threshold, a binary64 pattern. -/
  thresh : F64
  /-- `SIL_SEC` as a numerator and a denominator, in seconds. -/
  silSec : Nat × Nat
  /-- `SIL_THRESHOLD`, windows; an open parameter (spec/92_eei_decisions.md D4). -/
  silThreshold : Nat
  /-- `SIL_MAX`, where the 8-bit silence counter stops (spec/92_eei_decisions.md D11). -/
  silMax : Nat
  /-- `FREQ[b]`, Hz. -/
  freq : Bin → Nat
  /-- `K[b]`, the contents of `KROM`. -/
  k : Bin → Nat
  /-- The contents of `SYMROM`: the character code of each symbol index. -/
  sym : SymIndex → Byte
  /-- `TIE_RULE`: the eight bins, the preferred one first; an open parameter (spec/92_eei_decisions.md D9). -/
  tieOrder : List Bin
  /-- `TW[b][n]`, the contents of `TWROM`; an open parameter (spec/92_eei_decisions.md D10). -/
  tw : Bin → Nat → Twiddle

/-- `KEEP = N - SHIFT` (spec/00_scope.md R8). -/
def Params.keep (p : Params) : Nat := p.n - p.shift

/-- FREE VALUE (log entry 7). The sign and the 51 payload bits of the NaN that an arithmetic operation gives on operands
IEEE 754 calls invalid or NaN. Neither the spec nor IEEE 754 fixes them, and no value of a run is a NaN
(spec/42_spectral_analyzer.md R145), so nothing here may rest on them. -/
opaque Config.nanBits : F64 → F64 → BitVec 52

end Sys2Proof
end

