-- ==== Sys2Proof/Machine/Float64.lean ====
section
/-! DEFINITION. binary64 arithmetic on 64-bit patterns (spec/00_scope.md R13, spec/92_eei_decisions.md D8): one rounding
each, to nearest, ties to even, no fused operation, no flush to zero, no status flags. Magnitudes are counted in units of
2^-1074, the smallest positive binary64, so that every finite number is a whole number of units. -/

namespace Sys2Proof.Fp

/-- The magnitude bits of the infinities. -/
def infMag : Nat := 0x7FF0000000000000

/-- The pattern without its sign bit. It grows with the magnitude of the number. -/
def mag (x : F64) : Nat := x.toNat % 2^63

/-- The sign bit. -/
def neg (x : F64) : Bool := decide (2^63 ≤ x.toNat)

def isNaN (x : F64) : Bool := decide (infMag < mag x)

def isInf (x : F64) : Bool := decide (mag x = infMag)

def isZero (x : F64) : Bool := decide (mag x = 0)

def isFinite (x : F64) : Bool := decide (mag x < infMag)

/-- The integer significand of a finite number, hidden bit included. -/
def man (x : F64) : Nat :=
  if mag x < 2^52 then mag x else 2^52 + mag x % 2^52

/-- The exponent of a finite number: its magnitude is `man * 2^exp` units. -/
def exp (x : F64) : Nat := mag x / 2^52 - 1

/-- The pattern with sign `s` and magnitude bits `m`. -/
def pack (s : Bool) (m : Nat) : F64 := BitVec.ofNat 64 (if s then 2^63 + m else m)

/-- The NaN of an invalid operation: quiet, its sign and payload free (log entry 7). -/
def invalid (x y : F64) : F64 :=
  let f := Config.nanBits x y
  pack (f.getMsbD 0) (infMag + 2^51 + f.toNat % 2^51)

/-- `n / d` to the nearest integer, an exact half to the even neighbour. -/
def rne (n d : Nat) : Nat :=
  let q := n / d
  let r := 2 * (n % d)
  if r < d then q else if d < r then q + 1 else q + q % 2

/-- `log2` by halving the bit length, for numbers below 2^128. -/
def log2Below : List Nat → Nat → Nat → Nat
  | [], _, acc => acc
  | k :: ks, n, acc =>
    if n >>> k = 0 then log2Below ks n acc else log2Below ks (n >>> k) (acc + k)

/-- `Nat.log2`, in a form the kernel evaluates fast (Laws/Float64.lean proves the two equal). -/
def log2 (n : Nat) : Nat :=
  if n >>> 128 = 0 then log2Below [64, 32, 16, 8, 4, 2, 1] n 0 else Nat.log2 n

/-- The magnitude bits of the binary64 nearest to `n * 2^up / 2^down` units, for `n > 0`. The last place of the result is
worth `2^q` units, `q` the least exponent that leaves 53 significant bits. A result past the largest finite number is
infinity. -/
def roundMag (n up down : Nat) : Nat :=
  let q := (log2 n + up) - (52 + down)
  let d := q + down
  min infMag (q * 2^52 + (if d ≤ up then n * 2^(up - d) else rne n (2^(d - up))))

/-- `f64(i)` for a non-negative integer (R13). -/
def f64 (n : Nat) : F64 := if n = 0 then 0 else pack false (roundMag n 1074 0)

/-- `fadd` of two finite nonzero numbers: the exact sum, rounded once. -/
def addFinite (x y : F64) : F64 :=
  let e := min (exp x) (exp y)
  let a := man x * 2^(exp x - e)
  let b := man y * 2^(exp y - e)
  if neg x = neg y then pack (neg x) (roundMag (a + b) e 0)
  else if b < a then pack (neg x) (roundMag (a - b) e 0)
  else if a < b then pack (neg y) (roundMag (b - a) e 0)
  else 0

/-- `fadd(a, b)` (R13). A zero sum of opposite signs is `+0.0`. -/
def fadd (x y : F64) : F64 :=
  if isNaN x ∨ isNaN y then invalid x y
  else if isInf x then (if isInf y ∧ neg x ≠ neg y then invalid x y else x)
  else if isInf y then y
  else if isZero x then (if isZero y then pack (neg x && neg y) 0 else y)
  else if isZero y then x
  else addFinite x y

/-- `fmul(a, b)` (R13). -/
def fmul (x y : F64) : F64 :=
  let s := neg x != neg y
  if isNaN x ∨ isNaN y then invalid x y
  else if isInf x ∨ isInf y then (if isZero x ∨ isZero y then invalid x y else pack s infMag)
  else if isZero x ∨ isZero y then pack s 0
  else pack s (roundMag (man x * man y) (exp x + exp y) 1074)

/-- The quotient `n / d` with two spare bits and a sticky bit: `2 * floor(n / d)`, plus one if the division is inexact. -/
def stickyDiv (n d : Nat) : Nat := 2 * (n / d) + (if n % d = 0 then 0 else 1)

/-- `fdiv(a, b)` (R13). -/
def fdiv (x y : F64) : F64 :=
  let s := neg x != neg y
  if isNaN x ∨ isNaN y then invalid x y
  else if isInf x then (if isInf y then invalid x y else pack s infMag)
  else if isInf y then pack s 0
  else if isZero y then (if isZero x then invalid x y else pack s infMag)
  else if isZero x then pack s 0
  else pack s (roundMag (stickyDiv (man x * 2^108) (man y)) (exp x + 1074) (exp y + 109))

/-- The integer square root of `n`, found bit by bit from bit `k - 1` down, starting from `r`. -/
def isqrtBits : Nat → Nat → Nat → Nat
  | 0, _, r => r
  | k + 1, n, r =>
    if (r + 2^k) * (r + 2^k) ≤ n then isqrtBits k n (r + 2^k) else isqrtBits k n r

/-- Twice the integer square root of `n < 4^82`, plus one if `n` is no square. -/
def stickySqrt (n : Nat) : Nat :=
  let r := isqrtBits 82 n 0
  2 * r + (if r * r = n then 0 else 1)

/-- `fsqrt(a)` (R13). -/
def fsqrt (x : F64) : F64 :=
  if isNaN x then invalid x x
  else if isZero x then x
  else if neg x then invalid x x
  else if isInf x then x
  else
    let odd := exp x % 2
    pack false (roundMag (stickySqrt (man x * 2^odd * 2^108)) ((exp x - odd) / 2 + 537) 55)

/-- The pattern as an integer that orders the numbers as their values do; both zeros give 0. -/
def key (x : F64) : Int := if neg x then -(mag x : Int) else (mag x : Int)

/-- `fle(a, b)`: `a <= b` on the real values (R13); false on a NaN, as in IEEE 754. -/
def fle (x y : F64) : Bool := !(isNaN x || isNaN y) && decide (key x ≤ key y)

/-- `fgt(a, b)`: `a > b` on the real values (R13); false on a NaN, as in IEEE 754. -/
def fgt (x y : F64) : Bool := !(isNaN x || isNaN y) && decide (key y < key x)

end Sys2Proof.Fp
end

