-- ==== Sys2Proof/WellFormed.lean ====
section
/-! DEFINITION. What is checked before anything runs: a parameter set, at build time (spec/00_scope.md R9,
spec/60_exceptions.md R231), and a line of a stimulus script (spec/30_encoding.md R90 and R91). An `Instr` needs no check
of its own: its one operand is a byte by type, and every term of it has a word (spec/30_encoding.md R74). -/

namespace Sys2Proof

/-- The causes of `ConfigError` (spec/00_scope.md R9). The spec gives them no codes. -/
inductive ConfigError where
  /-- `N > 0` fails. -/
  | windowEmpty
  /-- `THRESH > 0` fails. -/
  | threshNotPositive
  /-- `FS > 0` fails. -/
  | rateZero
  /-- `1 <= SHIFT <= N` fails. -/
  | shiftOutOfRange
  /-- `1 <= SIL_THRESHOLD <= SIL_MAX - 1` fails. -/
  | silThresholdOutOfRange
  /-- Two of the eight `K[b]` are equal. -/
  | harmonicRepeated
  /-- Some `K[b]` is not in `1 .. N/2`, `N/2` excluded. -/
  | harmonicOutOfRange
  /-- `max(K[0..3]) < min(K[4..7])` fails. -/
  | groupsOverlap
  /-- `TIE_RULE` is no total order of the eight bins (spec/92_eei_decisions.md D9). The model's addition (log entry 15). -/
  | tieRuleNotAnOrder
  deriving DecidableEq, Repr

/-- Each constraint of R9, with the error that names its violation. -/
def Params.checks (p : Params) : List (Bool × ConfigError) :=
  [ (decide (0 < p.n), .windowEmpty),
    (Fp.fgt p.thresh 0, .threshNotPositive),
    (decide (0 < p.fs), .rateZero),
    (decide (1 ≤ p.shift ∧ p.shift ≤ p.n), .shiftOutOfRange),
    (decide (1 ≤ p.silThreshold ∧ p.silThreshold + 1 ≤ p.silMax), .silThresholdOutOfRange),
    (bins.all fun a => bins.all fun b => decide (a = b ∨ p.k a ≠ p.k b), .harmonicRepeated),
    (bins.all fun b => decide (1 ≤ p.k b ∧ 2 * p.k b < p.n), .harmonicOutOfRange),
    ([0, 1, 2, 3].all fun a => [4, 5, 6, 7].all fun b => decide (p.k a < p.k b), .groupsOverlap),
    (decide (p.tieOrder.length = 8) && bins.all fun b => p.tieOrder.contains b, .tieRuleNotAnOrder) ]

/-- The violated constraints of a parameter set. -/
def Params.errors (p : Params) : List ConfigError :=
  p.checks.filterMap fun c => if c.1 then none else some c.2

/-- The parameter set meets R9. -/
def Params.ok (p : Params) : Bool := p.errors.isEmpty

/-- Building a block from a parameter set: refused with the first violated constraint, `raise ConfigError` of R231. -/
def Params.build (p : Params) : Except ConfigError Params :=
  match p.errors with
  | [] => .ok p
  | e :: _ => .error e

/-- A legal script line: every byte is 0..255, and the table of a `PUSHT` is not empty (R90 and R91;
log entry 20). -/
def Line.wf : Line → Bool
  | .nop => true
  | .push b => decide (b < 256)
  | .eos => true
  | .reset => true
  | .pushN _ b => decide (b < 256)
  | .pushV bs => bs.all fun b => decide (b < 256)
  | .pushT t _ _ => !t.isEmpty && t.all fun b => decide (b < 256)

end Sys2Proof
end

