-- ==== Sys2Proof/Machine/Tables.lean ====
section
/-! DEFINITION. The constants of the block: the parameter set PS1 (spec/00_scope.md R8), the functions its tables are built
with (spec/41_harmonic_table.md R120 and R126, spec/42_spectral_analyzer.md R143), and the tables. What the spec itself
takes from general knowledge is log entry 14. -/

namespace Sys2Proof.Machine

/-- `FREQ[b]`: the eight DTMF frequencies in ascending order (spec/41_harmonic_table.md R121). -/
def freqTable (b : Bin) : Nat :=
  match b.toNat with
  | 0 => 697
  | 1 => 770
  | 2 => 852
  | 3 => 941
  | 4 => 1209
  | 5 => 1336
  | 6 => 1477
  | _ => 1633

/-- `KROM[b]` (spec/10_state.md R35). -/
def krom (b : Bin) : Nat :=
  match b.toNat with
  | 0 => 20
  | 1 => 22
  | 2 => 24
  | 3 => 27
  | 4 => 34
  | 5 => 38
  | 6 => 42
  | _ => 47

/-- `SYMROM[i]`: the codes of `1 2 3 A 4 5 6 B 7 8 9 C * 0 # D` (spec/10_state.md R36, spec/30_encoding.md R80). -/
def symrom (i : SymIndex) : Byte :=
  match i.toNat with
  | 0 => 0x31
  | 1 => 0x32
  | 2 => 0x33
  | 3 => 0x41
  | 4 => 0x34
  | 5 => 0x35
  | 6 => 0x36
  | 7 => 0x42
  | 8 => 0x37
  | 9 => 0x38
  | 10 => 0x39
  | 11 => 0x43
  | 12 => 0x2A
  | 13 => 0x30
  | 14 => 0x23
  | _ => 0x44

/-- The code of `?` (spec/30_encoding.md R80). -/
def charUnknown : Byte := 0x3F

/-- The code of `LF` (spec/30_encoding.md R80). -/
def charLF : Byte := 0x0A

/-- Eight entries of the cosine table: the binary64 nearest to `cos(2*pi*p/228)` for `p = 8*i .. 8*i + 7`, up to `p = 57`.
The other three quarters of the circle follow by symmetry. -/
def cosRow (i : Nat) : List F64 :=
  match i with
  | 0 =>
    [0x3FF0000000000000, 0x3FEFFCE3B9E2DE60, 0x3FEFF38F8257BB05, 0x3FEFE40529A542AA,
      0x3FEFCE47B5324B8C, 0x3FEFB25B5EEF7B75, 0x3FEF90459484F2B2, 0x3FEF680CF64424DC]
  | 1 =>
    [0x3FEF39B955DE13FA, 0x3FEF0553B4DE2E18, 0x3FEECAE642EA18F9, 0x3FEE8A7C5BC6C2FE,
      0x3FEE442285231BE1, 0x3FEDF7E66C28E311, 0x3FEDA5D6E2D404E9, 0x3FED4E03DD110B08]
  | 2 =>
    [0x3FECF07E6DA32F34, 0x3FEC8D58C2D2AB12, 0x3FEC24A622E3E9F9, 0x3FEBB67AE8584CAA,
      0x3FEB42EC7DF9397E, 0x3FEACA115AAE3DE4, 0x3FEA4C00FD1F1075, 0x3FE9C8D3E7224CE3]
  | 3 =>
    [0x3FE940A398F9CD23, 0x3FE8B38A8C5D8CE0, 0x3FE821A42F560DF4, 0x3FE78B0CDEE73E0F,
      0x3FE6EFE1E18CE6E9, 0x3FE650416189BB69, 0x3FE5AC4A670A1CFF, 0x3FE5041CD21BBD07]
  | 4 =>
    [0x3FE457D9547B4676, 0x3FE3A7A16B394423, 0x3FE2F39758378017, 0x3FE23BDE1B801FCA,
      0x3FE180996C77C8CA, 0x3FE0C1EDB2EC2069, 0x3FE0000000000000, 0x3FDE75EC0DED7BEE]
  | 5 =>
    [0x3FDCE5EC2BBFE478, 0x3FDB504E1C4A45C0, 0x3FD9B560B9F596EA, 0x3FD81573E76C6EA5,
      0x3FD670D880135879, 0x3FD4C7E04850CFAA, 0x3FD31ADDDDA7EDF6, 0x3FD16A24A6A8E55E]
  | 6 =>
    [0x3FCF6C118574C83E, 0x3FCBFDBDF37E13BC, 0x3FC889F9573437B5, 0x3FC5116F7F2D58C5,
      0x3FC194CD2768DF17, 0x3FBC297FAF75F12B, 0x3FB523EB8420F5F5, 0x3FAC34768246D2D9]
  | _ =>
    [0x3F9C37349D560F5C, 0x0000000000000000]

/-- `-x`, with `+0.0` where the value is 0, as R143 asks. -/
def negNonzero (x : F64) : F64 := if Fp.isZero x then 0 else x ^^^ 0x8000000000000000

/-- The binary64 nearest to `cos(2*pi*p/228)`, `p < 228` (spec/42_spectral_analyzer.md R143). -/
def cosTable (p : Nat) : F64 :=
  let q := fun r : Nat => (cosRow (r / 8)).getD (r % 8) 0
  if p ≤ 57 then q p
  else if p ≤ 114 then negNonzero (q (114 - p))
  else if p ≤ 171 then negNonzero (q (p - 114))
  else q (228 - p)

/-- The binary64 nearest to `sin(2*pi*p/228)`, `p < 228`: the cosine a quarter of the circle earlier. -/
def sinTable (p : Nat) : F64 := cosTable ((p + 171) % 228)

/-- TW_DEFAULT, the correctly rounded twiddle table (spec/42_spectral_analyzer.md R143). -/
def twDefault (b : Bin) (n : Nat) : Twiddle :=
  let p := (krom b * n) % 228
  { c := cosTable p, s := sinTable p }

/-- The parameter set PS1 (spec/00_scope.md R8). Its three open parameters take the spec's defaults: `SIL_THRESHOLD = 21`
(D4), lowest bin first (D9), TW_DEFAULT (D10); log entry 6. -/
def ps1 : Params :=
  { fs := 8000, n := 228, hresNominal := 35, shift := 76, thresh := 0x4014000000000000, silSec := (1, 5),
    silThreshold := 21, silMax := 255, freq := freqTable, k := krom, sym := symrom, tieOrder := bins, tw := twDefault }

/-- `frequencyToHarmonic`: the frequency over the exact resolution `FS / N`, to the nearest integer, a half to even
(spec/41_harmonic_table.md R120). -/
def frequencyToHarmonic (p : Params) (frequency : Nat) : Nat := Fp.rne (frequency * p.n) p.fs

/-- `SIL_THRESHOLD` as R197 computes it: `floor(SIL_SEC * FS / SHIFT)` (spec/44_segmentation_fsm.md). -/
def silThresholdOf (p : Params) : Nat := p.silSec.1 * p.fs / (p.silSec.2 * p.shift)

/-- The symbol index of a pair of bins: `min` and `max` of the two, one in each group, or `none` for `NOPAIR`
(spec/41_harmonic_table.md R126, bin form). -/
def pairIndex (b1 b2 : Bin) : Option SymIndex :=
  let lo := min b1.toNat b2.toNat
  let hi := max b1.toNat b2.toNat
  if lo ≤ 3 ∧ 4 ≤ hi then some (BitVec.ofNat 4 (4 * lo + (hi - 4))) else none

/-- `digitForHarmonicPair(h1, h2)` on any two integers, as the document writes it; `none` is `NOPAIR`
(spec/41_harmonic_table.md R126). -/
def digitForHarmonicPair (p : Params) (h1 h2 : Int) : Option Byte :=
  let lo := min h1 h2
  let hi := max h1 h2
  match [0, 1, 2, 3].find? (fun r => ((p.k (BitVec.ofNat 3 r) : Nat) : Int) == lo),
        [0, 1, 2, 3].find? (fun c => ((p.k (BitVec.ofNat 3 (c + 4)) : Nat) : Int) == hi) with
  | some row, some col => some (p.sym (BitVec.ofNat 4 (4 * row + col)))
  | _, _ => none

end Sys2Proof.Machine
end

