-- ==== Sys2Proof/Machine/Ops.lean ====
section
/-! DEFINITION. The operations the meanings share: the elements of `WIN`, the output stream, the one exceptional outcome
of a run, the effect of a reset, and the host's side of the two ports. -/

namespace Sys2Proof.Machine

/-- What an element of `WIN` that nothing has written reads as. The spec leaves it open and no rule reads it
(spec/10_state.md R21); log entry 1. -/
def Memory.unwritten : Byte := 0

/-- The canonical form of the contents of `WIN`: indices strictly rising, no unwritten value listed. -/
def Memory.wf : Memory → Bool
  | [] => true
  | [(_, v)] => v != Memory.unwritten
  | (a, v) :: (b, w) :: m => decide (a < b) && v != Memory.unwritten && Memory.wf ((b, w) :: m)

/-- `MemRead(WIN, i, 1)` (spec/00_scope.md R11). -/
def Memory.read : Memory → Nat → Byte
  | [], _ => Memory.unwritten
  | (a, v) :: m, i =>
    if i = a then v else if i < a then Memory.unwritten else Memory.read m i

/-- The listing of one element: nothing if it holds the unwritten value. -/
def Memory.cell (i : Nat) (v : Byte) : Memory := if v = Memory.unwritten then [] else [(i, v)]

/-- `MemWrite(WIN, i, 1, v)` (spec/00_scope.md R11), keeping the canonical form. -/
def Memory.write : Memory → Nat → Byte → Memory
  | [], i, v => Memory.cell i v
  | (a, w) :: m, i, v =>
    if i = a then Memory.cell i v ++ m
    else if i < a then Memory.cell i v ++ (a, w) :: m
    else (a, w) :: Memory.write m i v

/-- `WIN[FILL] <- v; FILL <- FILL + 1` (spec/45_window_buffer.md R210). -/
def storeNext (v : Byte) (s : State) : State := { s with win := s.win.write s.fill.toNat v, fill := s.fill + 1 }

/-- The data byte of the PUSH in progress (log entry 5). -/
def latchSample (v : Byte) (s : State) : State := { s with sample := v }

/-- The output stream `OUT` (spec/10_state.md R32): what the host has taken, then what waits for it. -/
def State.OUT (s : State) : List Byte := s.out ++ s.pend.toList

/-- The host takes the pending character, if there is one: a transfer on the character port (spec/30_encoding.md R70). -/
def State.takeChar (s : State) : State := { s with out := s.out ++ s.pend.toList, pend := none }

/-- `emit(c)` appends `c` to `OUT` (spec/00_scope.md R12) and leaves it pending. The output register is empty whenever the
block emits (spec/40_commands.md R101); in a state where it is not, which no run reaches, the older character goes to the
host first, so that `OUT` keeps it (log entry 4). -/
def emit (c : Byte) (s : State) : State := { s.takeChar with pend := some c }

/-- The characters of a list, emitted in order. -/
def emitAll (cs : List Byte) (s : State) : State := cs.foldl (fun t c => emit c t) s

/-- TAKING THE EXCEPTION `ProtocolError` (spec/60_exceptions.md R233 and R237): the sticky flag is set and nothing else
changes; there is no handler, no saved state and no change of mode, and the next command runs as any other. There is no
return from it (R238): only `resetBlock` clears the flag. -/
def raiseProtocolError (s : State) : State := { s with perr := true }

/-- The effect of a reset (spec/40_commands.md R107, spec/10_state.md R39): the same for the command and the pin
(spec/70_reset_and_hazards.md R260). What it makes unspecified keeps its value, as R107 allows (log entry 18); characters
already taken stay taken (spec/10_state.md R32; log entry 10). -/
def resetBlock (s : State) : State :=
  { s with fill := 0, det := .idle, sil := 0, mode := .run, perr := false, stg := .idle, pend := none }

/-- The end of the stream: `MODE <- DONE; FILL <- 0`, which drops a partly filled window
(spec/40_commands.md R106). -/
def endStream (s : State) : State := { s with mode := .done, fill := 0 }

/-- The levels the host drives at the coming edge. -/
def State.pinsNow (s : State) : Pins := s.pins.headD Pins.ready

/-- The host appends a script to the commands it will offer (spec/30_encoding.md R90). -/
def State.offer (ls : List Line) (s : State) : State := { s with cmdq := s.cmdq ++ scriptWords ls }

end Sys2Proof.Machine
end

