-- ==== Sys2Proof/Machine/Operands.lean ====
section
/-! DEFINITION. The operands of the commands and the micro-operations: every form the spec gives
(spec/30_encoding.md R73 and R77, spec/45_window_buffer.md R216). -/

namespace Sys2Proof.Machine

/-- A sample as PDFT uses it: zero-extended and converted exactly, `f64(zext_64(sample))` (spec/30_encoding.md R73). -/
def sampleValue (v : Byte) : F64 := Fp.f64 v.toNat

/-- The oldest-first sample `n` of the window, as PDFT loads it (spec/42_spectral_analyzer.md R140). -/
def windowValue (m : Memory) (n : Nat) : F64 := sampleValue (m.read n)

/-- The two magnitudes DECIDE reads, `MAG[TOP1]` and `MAG[TOP2]` (spec/43_digit_decoder.md R173). -/
def topMagnitudes (s : State) : F64 × F64 := (s.mag.get s.top1, s.mag.get s.top2)

/-- A verdict as SEG reads it: `RSYM` counts only when `RK = DIGIT` (spec/10_state.md R28). -/
inductive Verdict where
  | none
  | unknown
  | digit (i : SymIndex)
  deriving DecidableEq, Repr

/-- The verdict that `RK` and `RSYM` hold. -/
def verdictOf (k : VerdictKind) (sym : SymIndex) : Verdict :=
  match k with
  | .none => .none
  | .unknown => .unknown
  | .digit => .digit sym

/-- The value of `RK` for a verdict (spec/30_encoding.md R77). -/
def Verdict.kind : Verdict → VerdictKind
  | .none => .none
  | .unknown => .unknown
  | .digit _ => .digit

/-- The value of `RSYM` for a verdict: 0 when it is no digit (spec/30_encoding.md R77). -/
def Verdict.sym : Verdict → SymIndex
  | .none => 0
  | .unknown => 0
  | .digit i => i

end Sys2Proof.Machine
end

