-- ==== Sys2Proof/Machine/Flags.lean ====
section
/-! DEFINITION. The flags, the counters and the status pins: their encodings and how they are computed
(spec/10_state.md R28 to R31, spec/30_encoding.md R70, R76 and R77, spec/44_segmentation_fsm.md R196). -/

namespace Sys2Proof.Machine

/-- `min(SIL + 1, SIL_MAX)`: the silence counter stops and never wraps (spec/44_segmentation_fsm.md R196). -/
def silNext (p : Params) (sil : Byte) : Byte := BitVec.ofNat 8 (min (sil.toNat + 1) p.silMax)

/-- The bit of `S` (spec/10_state.md R29). -/
def DetState.bit : DetState → BitVec 1
  | .idle => 0
  | .tone => 1

/-- The bit of `MODE` (spec/10_state.md R30). -/
def Mode.bit : Mode → BitVec 1
  | .run => 0
  | .done => 1

/-- The code of `RK` (spec/10_state.md R28). -/
def VerdictKind.code : VerdictKind → BitVec 2
  | .none => 0
  | .unknown => 1
  | .digit => 2

/-- The verdict register as one word, format VERD: `{RK, RSYM}` (spec/30_encoding.md R77). -/
def verdictWord (s : State) : BitVec 6 := s.rk.code ++ s.rsym

/-- The code of `STG` (spec/30_encoding.md R76). -/
def Stage.code : Stage → StageCode
  | .idle => 0
  | .write => 1
  | .pdft => 2
  | .magx => 3
  | .peak => 4
  | .decide => 5
  | .seg => 6
  | .slide => 7

/-- The stage a code names. -/
def Stage.ofCode (c : StageCode) : Stage :=
  match c.toNat with
  | 0 => .idle
  | 1 => .write
  | 2 => .pdft
  | 3 => .magx
  | 4 => .peak
  | 5 => .decide
  | 6 => .seg
  | _ => .slide

/-- The pin `done` (spec/30_encoding.md R70). -/
def State.donePin (s : State) : BitVec 1 := s.mode.bit

/-- The pin `perr` (spec/30_encoding.md R70). -/
def State.perrPin (s : State) : BitVec 1 := if s.perr then 1 else 0

/-- The pin `out_valid`: a character is pending (spec/30_encoding.md R70). -/
def State.outValid (s : State) : Bool := s.pend.isSome

/-- The pin `in_ready`: low while a command is in progress, while a character is pending (spec/40_commands.md R101), and
while `rst_n` is low (R102). -/
def State.inReady (s : State) : Bool := s.pinsNow.rstN && s.stg == .idle && s.pend.isNone

end Sys2Proof.Machine
end

