-- ==== Sys2Proof/Machine/DigitDecoder.lean ====
section
/-! DEFINITION. The peak detector and the digit decision: PEAK and DECIDE (spec/43_digit_decoder.md). -/

namespace Sys2Proof.Machine

/-- The first bin of `order` whose magnitude no later one exceeds: a scan that a strictly greater bin takes over (R170). -/
def strongest (mag : Lanes F64) (order : List Bin) : Bin :=
  order.tail.foldl (fun t b => if Fp.fgt (mag.get b) (mag.get t) then b else t) (order.headD 0)

/-- The two strongest bins under `TIE_RULE` (R170 and R171): the second scan skips the first's result. -/
@[irreducible] def topTwo (p : Params) (mag : Lanes F64) : Bin × Bin :=
  let t1 := strongest mag p.tieOrder
  (t1, strongest mag (p.tieOrder.filter fun b => b != t1))

/-- PEAK (R170). -/
def peak (p : Params) (s : State) : State :=
  let t := topTwo p s.mag
  { s with top1 := t.1, top2 := t.2 }

/-- The verdict: the threshold first, then the pair (R173). -/
def verdictFor (p : Params) (b1 b2 : Bin) (m1 m2 : F64) : Verdict :=
  if Fp.fle m1 p.thresh ∨ Fp.fle m2 p.thresh then .none
  else match pairIndex b1 b2 with
    | some i => .digit i
    | none => .unknown

/-- DECIDE (R173). -/
def decideVerdict (p : Params) (s : State) : State :=
  let m := topMagnitudes s
  let v := verdictFor p s.top1 s.top2 m.1 m.2
  { s with rk := v.kind, rsym := v.sym }

/-- The meaning of PEAK. -/
def execPeak (s : State) : Host.Outcome State Fault Refusal := .next (peak ps1 s)

/-- The meaning of DECIDE. -/
def execDecide (s : State) : Host.Outcome State Fault Refusal := .next (decideVerdict ps1 s)

end Sys2Proof.Machine
end

