-- ==== Sys2Proof/Machine/Segmentation.lean ====
section
/-! DEFINITION. The debounce and segmentation state machine: SEG (spec/44_segmentation_fsm.md). -/

namespace Sys2Proof.Machine

/-- What SEG makes of one window: the new `S` and `SIL`, and the characters emitted, in order. -/
structure SegResult where
  det : DetState
  sil : Byte
  emitted : List Byte
  deriving DecidableEq, Repr

/-- The update by the verdict (R191, R192 and R193). -/
def segUpdate (p : Params) (v : Verdict) (det : DetState) (sil : Byte) : SegResult :=
  match v with
  | .digit i =>
    match det with
    | .idle => { det := .tone, sil := 0, emitted := [p.sym i] }
    | .tone => { det := .tone, sil := 0, emitted := [] }
  | .unknown => { det := det, sil := 0, emitted := [charUnknown] }
  | .none => { det := .idle, sil := silNext p sil, emitted := [] }

/-- The update, then the boundary test on the updated counter, for every verdict (R190 and R194). -/
def segWindow (p : Params) (v : Verdict) (det : DetState) (sil : Byte) : SegResult :=
  let r := segUpdate p v det sil
  if r.sil.toNat = p.silThreshold then { r with emitted := r.emitted ++ [charLF] } else r

/-- SEG (R190). -/
def segmentStep (p : Params) (s : State) : State :=
  let r := segWindow p (verdictOf s.rk s.rsym) s.det s.sil
  emitAll r.emitted { s with det := r.det, sil := r.sil }

/-- The meaning of SEG. -/
def execSeg (s : State) : Host.Outcome State Fault Refusal := .next (segmentStep ps1 s)

end Sys2Proof.Machine
end

