-- ==== Sys2Proof/Machine/SpectralAnalyzer.lean ====
section
/-! DEFINITION. The partial DFT and the magnitude extractor: PDFT and MAGX (spec/42_spectral_analyzer.md). -/

namespace Sys2Proof.Machine

/-- One accumulation step of a lane: the product rounded, then the sum rounded (R140). -/
def laneStep (x : F64) (t : Twiddle) (acc : F64 × F64) : F64 × F64 :=
  (Fp.fadd acc.1 (Fp.fmul x t.c), Fp.fadd acc.2 (Fp.fmul x t.s))

/-- The sums `(acc_re, acc_im)` of bin `b` over the samples `0 .. count - 1` of the window, in this order, from `+0.0`
(R140). -/
@[irreducible] def laneSums (p : Params) (m : Memory) (b : Bin) (count : Nat) : F64 × F64 :=
  (List.range count).foldl (fun acc n => laneStep (windowValue m n) (p.tw b n) acc) (0, 0)

/-- PDFT: the eight lanes are independent (R144). -/
def pdft (p : Params) (s : State) : State :=
  let sums := Lanes.ofFn fun b => laneSums p s.win b p.n
  { s with re := Lanes.ofFn fun b => (sums.get b).1, im := Lanes.ofFn fun b => (sums.get b).2 }

/-- `fsqrt(fadd(fmul(re, re), fmul(im, im)))` (R150). -/
def magnitude (re im : F64) : F64 := Fp.fsqrt (Fp.fadd (Fp.fmul re re) (Fp.fmul im im))

/-- MAGX: both sums divided by `N`, then the magnitude of the quotients (R150). -/
def magx (p : Params) (s : State) : State :=
  let re := Lanes.ofFn fun b => Fp.fdiv (s.re.get b) (Fp.f64 p.n)
  let im := Lanes.ofFn fun b => Fp.fdiv (s.im.get b) (Fp.f64 p.n)
  { s with re := re, im := im, mag := Lanes.ofFn fun b => magnitude (re.get b) (im.get b) }

/-- The meaning of PDFT. -/
def execPdft (s : State) : Host.Outcome State Fault Refusal := .next (pdft ps1 s)

/-- The meaning of MAGX. -/
def execMagx (s : State) : Host.Outcome State Fault Refusal := .next (magx ps1 s)

end Sys2Proof.Machine
end

