-- ==== Sys2Proof/Machine/WindowBuffer.lean ====
section
/-! DEFINITION. The sliding window buffer: WRITE, the trigger and SLIDE (spec/45_window_buffer.md). -/

namespace Sys2Proof.Machine

/-- WRITE (R210). `WIN` has the elements `0 .. N - 1` and no other (spec/20_memory.md R50); a store at another index is log
entry 9. -/
def writeSample (p : Params) (sample : Byte) (s : State) : Except Fault State :=
  if s.fill.toNat < p.n then .ok (storeNext sample s) else .error (.winIndex s.fill.toNat)

/-- The trigger: the window is full (R211). -/
def windowFull (p : Params) (s : State) : Bool := decide (s.fill.toNat = p.n)

/-- `WIN` after SLIDE: `WIN[i] <- WIN[i + SHIFT]` for `i < KEEP`, every read from the old contents. The elements from
`KEEP` on keep their bytes, as R212 allows (log entry 18). -/
@[irreducible] def slideMemory (p : Params) (m : Memory) : Memory :=
  (List.range p.keep).foldl (fun acc i => acc.write i (m.read (i + p.shift))) m

/-- SLIDE: the copy, then `FILL <- KEEP` (R212). -/
def slideWindow (p : Params) (s : State) : State :=
  { s with win := slideMemory p s.win, fill := BitVec.ofNat 8 p.keep }

/-- The meaning of WRITE on its own: the sample is that of the PUSH in progress. R210 has the precondition `MODE = RUN` and
gives no effect outside it; in mode `DONE`, where no run reaches WRITE, the model stores the sample all the same (DESIGN
CHOICE, log entry 22). -/
def execWrite (s : State) : Host.Outcome State Fault Refusal :=
  match writeSample ps1 s.sample s with
  | .ok t => .next t
  | .error e => .fault e

/-- The meaning of SLIDE. -/
def execSlide (s : State) : Host.Outcome State Fault Refusal := .next (slideWindow ps1 s)

end Sys2Proof.Machine
end

