-- ==== Sys2Proof/Machine/Commands.lean ====
section
/-! DEFINITION. The four host commands (spec/40_commands.md). Each is atomic: all its micro-operations are one step
(R101). -/

namespace Sys2Proof.Machine

/-- The analysis of a full window: the chain of R104, each micro-operation on the state the one before it leaves. -/
def analyse (p : Params) (s : State) : State :=
  slideWindow p (segmentStep p (decideVerdict p (peak p (magx p (pdft p s)))))

/-- A PUSH in mode `RUN` (R104). The data byte is latched, then stored; a window it fills is analysed. -/
def pushRun (p : Params) (sample : Byte) (s : State) : Except Fault State :=
  match writeSample p sample (latchSample sample s) with
  | .ok t => .ok (if windowFull p t then analyse p t else t)
  | .error e => .error e

/-- The meaning of NOP (R103): nothing. -/
def execNop (s : State) : Host.Outcome State Fault Refusal := .next s

/-- The meaning of PUSH: by `MODE`, a sample (R104) or a `ProtocolError` (R105). -/
def execPush (sample : Byte) (s : State) : Host.Outcome State Fault Refusal :=
  match s.mode with
  | .run =>
    match pushRun ps1 sample s with
    | .ok t => .next t
    | .error e => .fault e
  | .done => .next (raiseProtocolError s)

/-- The meaning of EOS (R106). -/
def execEos (s : State) : Host.Outcome State Fault Refusal := .next (endStream s)

/-- The meaning of RESET (R107). -/
def execReset (s : State) : Host.Outcome State Fault Refusal := .next (resetBlock s)

end Sys2Proof.Machine
end

