-- ==== Sys2Proof/Machine/Dispatch.lean ====
section
/-! DEFINITION. One arm for each instruction. -/

namespace Sys2Proof.Machine

def exec (i : Instr) (s : State) : Host.Outcome State Fault Refusal :=
  match i with
  | .nop => Sys2Proof.Machine.execNop s
  | .push sample => Sys2Proof.Machine.execPush sample s
  | .eos => Sys2Proof.Machine.execEos s
  | .reset => Sys2Proof.Machine.execReset s
  | .write => Sys2Proof.Machine.execWrite s
  | .pdft => Sys2Proof.Machine.execPdft s
  | .magx => Sys2Proof.Machine.execMagx s
  | .peak => Sys2Proof.Machine.execPeak s
  | .decide => Sys2Proof.Machine.execDecide s
  | .seg => Sys2Proof.Machine.execSeg s
  | .slide => Sys2Proof.Machine.execSlide s

end Sys2Proof.Machine
end

