-- ==== Sys2Proof/Machine/Sequencer.lean ====
section
/-! DEFINITION. What happens at a rising clock edge around an instruction: which instruction runs, what the ports do, and
the stage that follows (spec/30_encoding.md R70, spec/40_commands.md R101 and R102). -/

namespace Sys2Proof.Machine

/-- What a rising edge does. -/
inductive Fetch where
  /-- `rst_n` is low: a reset, and no command is accepted (spec/40_commands.md R102). -/
  | hardReset
  /-- A command is in progress: its next micro-operation runs (spec/10_state.md R31). -/
  | stage (i : Instr)
  /-- A command is accepted; `rest` is what the host offers after it (spec/30_encoding.md R70). -/
  | command (i : Instr) (rest : List CmdWord)
  /-- The block waits for the host (spec/70_reset_and_hazards.md R272). -/
  | wait
  deriving DecidableEq, Repr

/-- What the coming edge does. Reset wins over everything (spec/60_exceptions.md R236). -/
def fetch (s : State) : Fetch :=
  if s.pinsNow.rstN = false then .hardReset
  else match decodeUop s.stg.code with
    | .ok i => .stage i
    | .error .idleStage =>
      match s.cmdq with
      | [] => .wait
      | w :: rest => if s.inReady ∧ s.pinsNow.inValid then .command (decodeCmd w) rest else .wait

/-- The ports at an edge without a reset: a pending character goes to a host that is ready for it, and the edge is over. -/
def portEdge (s : State) : State :=
  { (if s.pinsNow.outReady then s.takeChar else s) with pins := s.pins.tail }

/-- A reset by the pin (spec/70_reset_and_hazards.md R260). A command in progress is abandoned and a character not yet
taken is dropped (R262; log entry 19); the host goes on offering its commands. -/
def hardReset (s : State) : State := { resetBlock s with pins := s.pins.tail }

/-- The stage after the one that has run: the order of R104, with the trigger after WRITE (log entry 11). -/
def nextStage (p : Params) (s : State) : Stage :=
  match s.stg with
  | .idle => .idle
  | .write => if s.fill.toNat = p.n then .pdft else .idle
  | .pdft => .magx
  | .magx => .peak
  | .peak => .decide
  | .decide => .seg
  | .seg => .slide
  | .slide => .idle

/-- After a micro-operation the sequencer moves `STG` on. -/
def advanceStage (o : Host.Outcome State Fault Refusal) : Host.Outcome State Fault Refusal :=
  match o with
  | .next t => .next { t with stg := nextStage ps1 t }
  | .fault e => .fault e
  | .refused r => .refused r

/-- The host has a command word ready on an idle port, at an edge without a reset. -/
def placeCommand (w : CmdWord) (s : State) : State :=
  { s.takeChar with stg := .idle, cmdq := w :: s.cmdq, pins := Pins.ready :: s.pins }

/-- The stage register holds a code, at an edge without a reset. -/
def placeStage (c : StageCode) (s : State) : State :=
  { s with stg := Stage.ofCode c, pins := Pins.ready :: s.pins }

end Sys2Proof.Machine
end

