-- ==== Sys2Proof/Machine/Step.lean ====
section
/-! DEFINITION. One step: one rising clock edge. An accepted command is done within the edge that accepts it
(spec/40_commands.md R100 and R101; log entries 3 and 16). -/

namespace Sys2Proof.Machine

/-- One rising edge of `clk` (spec/30_encoding.md R70). -/
def step (s : State) : Host.Outcome State Fault Refusal :=
  match fetch s with
  | .hardReset => .next (hardReset s)
  | .stage i => advanceStage (exec i (portEdge s))
  | .command i rest => exec i { portEdge s with cmdq := rest }
  | .wait => .next (portEdge s)

/-- `s` with an instruction where the next step takes it from. A command word becomes the next one the host offers, on an
idle port; a stage code goes into `STG` (log entry 8). -/
def State.withFetchWord (s : State) (nbits w : Nat) : State :=
  if nbits ≤ 8 then placeStage (BitVec.ofNat 3 w) s else placeCommand (BitVec.ofNat 10 w) s

end Sys2Proof.Machine
end

