-- ==== Sys2Proof/Safety.lean ====
section
/-! DEFINITION. The terms the claims use: the invariant of a run, runs of commands and of verdicts, what a host can tell
apart, the real value of a binary64 pattern, and the ideal transform the hardware approximates
(spec/42_spectral_analyzer.md R141 and R143). -/

namespace Sys2Proof

/-! ## Real values -/

/-- A finite pattern as a signed whole number of units of 2^-1074. -/
def Fp.units (x : F64) : ℤ :=
  if Fp.neg x then -((Fp.man x * 2 ^ Fp.exp x : ℕ) : ℤ) else ((Fp.man x * 2 ^ Fp.exp x : ℕ) : ℤ)

/-- The real value of a finite pattern (spec/00_scope.md R13). -/
noncomputable def Fp.value (x : F64) : ℝ := (Fp.units x : ℝ) / 2 ^ 1074

/-- The pattern of 1.0. -/
def Fp.one : F64 := 0x3FF0000000000000

/-- The largest finite binary64. -/
def Fp.maxFinite : F64 := 0x7FEFFFFFFFFFFFFF

/-- `z` is the finite binary64 number nearest to the real `r`, and where another is as near, `z` has an even last
place. -/
def Fp.IsNearestEven (r : ℝ) (z : F64) : Prop :=
  Fp.isFinite z = true ∧ ∀ w : F64, Fp.isFinite w = true →
    |Fp.value z - r| ≤ |Fp.value w - r| ∧
    (Fp.value w ≠ Fp.value z → |Fp.value z - r| = |Fp.value w - r| → Fp.mag z % 2 = 0)

namespace Machine

/-! ## The ideal transform -/

/-- The phase `2*pi*k*n/N`. -/
noncomputable def phase (p : Params) (b : Bin) (n : ℕ) : ℝ := 2 * Real.pi * (p.k b : ℝ) * n / p.n

/-- `MagI(b, W)` (spec/42_spectral_analyzer.md R141). -/
noncomputable def idealMagnitude (p : Params) (b : Bin) (w : ℕ → ℝ) : ℝ :=
  Real.sqrt
    (((∑ n ∈ Finset.range p.n, w n * Real.cos (phase p b n)) / p.n) ^ 2 +
      ((∑ n ∈ Finset.range p.n, w n * Real.sin (phase p b n)) / p.n) ^ 2)

/-- The samples of a window as real numbers. -/
def windowReal (m : Memory) (n : ℕ) : ℝ := ((m.read n).toNat : ℝ)

/-- The frequency of harmonic `k`, `k * FS / N` Hz (spec/41_harmonic_table.md R124). -/
def harmonicFrequency (p : Params) (k : ℕ) : ℚ := (k : ℚ) * p.fs / p.n

/-- No entry of the twiddle table is above 1 in absolute value; in particular all are finite. -/
def TwBounded (p : Params) : Prop :=
  ∀ b : Bin, ∀ n < p.n, Fp.mag (p.tw b n).c ≤ Fp.mag Fp.one ∧ Fp.mag (p.tw b n).s ≤ Fp.mag Fp.one

/-- TW_ACC, what every conforming twiddle table has (spec/42_spectral_analyzer.md R143). -/
def TwAcc (p : Params) : Prop :=
  TwBounded p ∧ ∀ b : Bin, ∀ n < p.n,
    |Fp.value (p.tw b n).c - Real.cos (phase p b n)| ≤ 1 / 2 ^ 40 ∧
    |Fp.value (p.tw b n).s - Real.sin (phase p b n)| ≤ 1 / 2 ^ 40

/-- The magnitude MAGX leaves in bin `b` after PDFT of the window `m`. -/
def hardwareMagnitude (p : Params) (m : Memory) (b : Bin) : F64 :=
  let sums := laneSums p m b p.n
  magnitude (Fp.fdiv sums.1 (Fp.f64 p.n)) (Fp.fdiv sums.2 (Fp.f64 p.n))

/-! ## Runs -/

/-- `k` edges, stopping at the first fault or refusal. -/
def edges (k : ℕ) (s : State) : Host.Outcome State Fault Refusal := core.run k s

/-- Instructions executed one after another, up to the first that does not answer a next state. -/
def execAll : List Instr → State → Host.Outcome State Fault Refusal
  | [], s => .next s
  | i :: is, s =>
    match exec i s with
    | .next t => execAll is t
    | .fault e => .fault e
    | .refused r => .refused r

/-- A sequence of verdicts fed to SEG: the final detection state and all the characters emitted
(spec/95_test_vectors.md section 2.7). -/
def segRun (p : Params) : List Verdict → DetState → Byte → SegResult
  | [], det, sil => { det := det, sil := sil, emitted := [] }
  | v :: vs, det, sil =>
    let r := segWindow p v det sil
    let t := segRun p vs r.det r.sil
    { t with emitted := r.emitted ++ t.emitted }

/-- SEG with a counter that is a natural number and steps by `up`: the characters a sequence of verdicts emits. With
`up n = n + 1` it is the document's unbounded counter, with `up n = (n + 1) % 256` one that wraps; R196 compares both with
the 8-bit counter that stops (spec/44_segmentation_fsm.md). -/
def counterRun (up : ℕ → ℕ) (p : Params) : List Verdict → DetState → ℕ → List Byte
  | [], _, _ => []
  | .digit i :: vs, det, _ => (if det = .idle then [p.sym i] else []) ++ counterRun up p vs .tone 0
  | .unknown :: vs, det, _ => charUnknown :: counterRun up p vs det 0
  | .none :: vs, _, count =>
    (if up count = p.silThreshold then [charLF] else []) ++ counterRun up p vs .idle (up count)

/-- Commands as the port serves them: the host has taken the pending character before the next command is accepted
(spec/40_commands.md R101). -/
def serve : List CmdWord → State → Host.Outcome State Fault Refusal
  | [], s => .next s
  | w :: ws, s =>
    match exec (decodeCmd w) s.takeChar with
    | .next t => serve ws t
    | .fault e => .fault e
    | .refused r => .refused r

/-! ## Streams -/

/-- A command of a stream: one sample, or a pause. -/
def Feeds (i : Instr) : Prop := i = .nop ∨ ∃ x, i = .push x

/-- The samples of a sequence of commands, in order (spec/45_window_buffer.md R215). -/
def samplesOf (is : List Instr) : List Byte :=
  is.filterMap fun i => match i with
    | .push x => some x
    | .nop | .eos | .reset | .write | .pdft | .magx | .peak | .decide | .seg | .slide => none

/-- The command runs an analysis: a PUSH in mode `RUN` that fills the window (spec/45_window_buffer.md R211). -/
def runsAnalysis (i : Instr) (s : State) : Bool :=
  match i with
  | .push _ => decide (s.mode = .run ∧ s.fill.toNat + 1 = ps1.n)
  | .nop | .eos | .reset | .write | .pdft | .magx | .peak | .decide | .seg | .slide => false

/-- How many of the commands run an analysis (spec/40_commands.md R108). -/
def analysisCount : List Instr → State → ℕ
  | [], _ => 0
  | i :: is, s =>
    match exec i s with
    | .next t => (if runsAnalysis i s then 1 else 0) + analysisCount is t
    | .fault _ => 0
    | .refused _ => 0

/-- Window `j` of a stream: `WIN[n] = x[76*j + n]` (spec/45_window_buffer.md R215). -/
def windowAt (xs : List Byte) (j : ℕ) : Memory :=
  (List.range ps1.n).foldl (fun m n => m.write n (xs.getD (ps1.shift * j + n) 0)) []

/-- The number of windows of a stream of `len` samples (spec/45_window_buffer.md R215). -/
def windowCount (len : ℕ) : ℕ := if len < ps1.n then 0 else (len - ps1.n) / ps1.shift + 1

/-- The verdict on a window: the magnitudes, the two strongest bins, the decision. -/
def verdictOfWindow (p : Params) (m : Memory) : Verdict :=
  let mag := Lanes.ofFn (hardwareMagnitude p m)
  let t := topTwo p mag
  verdictFor p t.1 t.2 (mag.get t.1) (mag.get t.2)

/-- The verdicts on the windows of a stream, in order. -/
def streamVerdicts (xs : List Byte) : List Verdict :=
  (List.range (windowCount xs.length)).map fun j => verdictOfWindow ps1 (windowAt xs j)

/-! ## What must hold of every state of a run -/

/-- The stage register and the fill counter agree: 228 samples exactly while an analysis is in progress
(spec/10_state.md R22). -/
def StageFits (s : State) : Prop :=
  match s.stg with
  | .idle => s.fill.toNat < ps1.n
  | .write => s.fill.toNat < ps1.n ∧ s.mode = .run
  | _ => s.fill.toNat = ps1.n ∧ s.mode = .run

/-- The invariant of a run. -/
structure Inv (s : State) : Prop where
  /-- `WIN` is in canonical form. -/
  winWf : s.win.wf = true
  /-- `WIN` has elements 0..227 only (spec/20_memory.md R50). -/
  winRange : ∀ c ∈ s.win, c.1 < ps1.n
  /-- `FILL` and `STG` agree (spec/10_state.md R22). -/
  stage : StageFits s
  /-- `TOP1 != TOP2` (spec/10_state.md R27). -/
  topDistinct : s.top1 ≠ s.top2
  /-- `RSYM` is 0 unless `RK = DIGIT` (spec/30_encoding.md R77). -/
  symZero : s.rk ≠ .digit → s.rsym = 0
  /-- `PERR` is set only in mode `DONE` (spec/10_state.md R30). -/
  perrDone : s.perr = true → s.mode = .done
  /-- In mode `DONE` no sample is held (spec/40_commands.md R106). -/
  doneEmpty : s.mode = .done → s.fill = 0
  /-- A tone window clears the silence counter (spec/44_segmentation_fsm.md R191). -/
  toneSil : s.det = .tone → s.sil = 0
  /-- No character is pending while a command can still emit one (spec/40_commands.md R101). -/
  pendFree : s.stg ≠ .idle → s.stg ≠ .slide → s.pend = none

/-- The 18 characters of the output alphabet (spec/30_encoding.md R80). -/
def alphabet : List Byte :=
  [0x30, 0x31, 0x32, 0x33, 0x34, 0x35, 0x36, 0x37, 0x38, 0x39, 0x41, 0x42, 0x43, 0x44, 0x2A, 0x23, 0x3F, 0x0A]

/-! ## What a host can tell apart -/

/-- The two states agree on all that can reach a later output: everything but the transient registers and the elements of
`WIN` from `FILL` on (spec/10_state.md R37). `sample` is transient too. -/
structure SameForHost (s t : State) : Prop where
  fill : s.fill = t.fill
  win : ∀ i < s.fill.toNat, s.win.read i = t.win.read i
  det : s.det = t.det
  sil : s.sil = t.sil
  mode : s.mode = t.mode
  perr : s.perr = t.perr
  stg : s.stg = t.stg
  pend : s.pend = t.pend
  out : s.out = t.out
  cmdq : s.cmdq = t.cmdq
  pins : s.pins = t.pins

end Machine
end Sys2Proof
end

