-- ==== Sys2Proof/Certificates/Slice0/Obligations.lean ====
section
/-! DEFINITION. The statements for the provers. Each docstring names the rule it formalises, or what it rests on. -/

open Sys2Proof Sys2Proof.Machine

/-! ## Encodings and the stimulus notation -/

/-- The worked encodings of spec/30_encoding.md R92. -/
def Obligations.WorkedWordsDecode : Prop :=
  decode (.cmd 0b0110000000) = .ok (.push 0x80) ∧ (0b0110000000 : CmdWord) = 0x180 ∧
  decode (.cmd 0x100) = .ok (.push 0) ∧ decode (.cmd 0x1FF) = .ok (.push 255) ∧
  decode (.cmd 0x200) = .ok .eos ∧ decode (.cmd 0x2A5) = .ok .eos ∧
  decode (.cmd 0x300) = .ok .reset ∧ decode (.cmd 0x000) = .ok .nop ∧ decode (.cmd 0x0FF) = .ok .nop ∧
  encode (.push 0x80) = .cmd 0x180 ∧ encode (.push 0) = .cmd 0x100 ∧ encode (.push 255) = .cmd 0x1FF ∧
  encode .eos = .cmd 0x200 ∧ encode .reset = .cmd 0x300 ∧ encode .nop = .cmd 0x000

/-- The four operation codes, by match and mask (spec/30_encoding.md R72); every word is one of the four commands, the
`data` field of NOP, EOS and RESET is ignored, and their canonical words have it 0 (R74). -/
def Obligations.EveryCommandWordIsOneCommand : Prop :=
  (∀ w : CmdWord,
    (w &&& 0x300 = 0x000 ∧ decode (.cmd w) = .ok .nop) ∨
    (w &&& 0x300 = 0x100 ∧ decode (.cmd w) = .ok (.push (w.setWidth 8))) ∨
    (w &&& 0x300 = 0x200 ∧ decode (.cmd w) = .ok .eos) ∨
    (w &&& 0x300 = 0x300 ∧ decode (.cmd w) = .ok .reset)) ∧
  (∀ data : Byte,
    decode (.cmd (cmdWord 0 data)) = .ok .nop ∧ decode (.cmd (cmdWord 1 data)) = .ok (.push data) ∧
    decode (.cmd (cmdWord 2 data)) = .ok .eos ∧ decode (.cmd (cmdWord 3 data)) = .ok .reset) ∧
  encode .nop = .cmd 0x000 ∧ encode .eos = .cmd 0x200 ∧ encode .reset = .cmd 0x300

/-- The stage codes (spec/30_encoding.md R76). IDLE is no micro-operation: at an edge with `STG` idle none runs. -/
def Obligations.StageCodesDecode : Prop :=
  decode (.uop 0b000) = .error .idleStage ∧
  decode (.uop 0b001) = .ok .write ∧ decode (.uop 0b010) = .ok .pdft ∧ decode (.uop 0b011) = .ok .magx ∧
  decode (.uop 0b100) = .ok .peak ∧ decode (.uop 0b101) = .ok .decide ∧ decode (.uop 0b110) = .ok .seg ∧
  decode (.uop 0b111) = .ok .slide ∧
  Stage.idle.code = 0b000 ∧ Stage.write.code = 0b001 ∧ Stage.pdft.code = 0b010 ∧ Stage.magx.code = 0b011 ∧
  Stage.peak.code = 0b100 ∧ Stage.decide.code = 0b101 ∧ Stage.seg.code = 0b110 ∧ Stage.slide.code = 0b111 ∧
  ∀ s : State, s.stg = .idle → ∀ i, fetch s ≠ .stage i

/-- Decoding and encoding agree (spec/30_encoding.md R71 to R76). Decoding the word of an instruction gives it back, for
every instruction and every sample. Every word that decodes to an instruction is that instruction's word, but for the `data`
field of NOP, EOS and RESET, which the encoder sets to 0. -/
def Obligations.DecodeEncodeRoundTrip : Prop :=
  (∀ i : Instr, decode (encode i) = .ok i) ∧
  (∀ (c : StageCode) (i : Instr), decode (.uop c) = .ok i → encode i = .uop c) ∧
  (∀ (w : CmdWord) (i : Instr), decode (.cmd w) = .ok i → ∃ v, encode i = .cmd v ∧ opField v = opField w ∧
    ((∃ x, i = .push x) → v = w) ∧ ((∀ x, i ≠ .push x) → dataField v = 0))

/-- The pseudo-commands of a script (spec/30_encoding.md R91), as the words the block sees; and the four base lines. -/
def Obligations.PseudoCommandsExpand : Prop :=
  (∀ count b : ℕ, b < 256 → scriptWords [.pushN count b] = List.replicate count (BitVec.ofNat 10 (0x100 + b))) ∧
  (∀ bs : List ℕ, (∀ b ∈ bs, b < 256) → scriptWords [.pushV bs] = bs.map fun b => BitVec.ofNat 10 (0x100 + b)) ∧
  (∀ (t : List ℕ) (start count : ℕ), (Line.pushT t start count).wf = true →
    (scriptWords [.pushT t start count]).length = count ∧
    ∀ i < count, (scriptWords [.pushT t start count])[i]? =
      (t[(start + i) % t.length]?).map fun b => BitVec.ofNat 10 (0x100 + b)) ∧
  scriptWords [.nop] = [0x000] ∧ scriptWords [.eos] = [0x200] ∧ scriptWords [.reset] = [0x300] ∧
  (∀ b : ℕ, b < 256 → scriptWords [.push b] = [BitVec.ofNat 10 (0x100 + b)]) ∧
  ∀ ls ms : List Line, scriptWords (ls ++ ms) = scriptWords ls ++ scriptWords ms

/-! ## A step -/

/-- A step runs the decoded instruction: at an edge with no reset, on an idle port, with a command offered, the step is the
meaning of the decoded word on the state in which the host has moved on (spec/30_encoding.md R70, spec/40_commands.md R100
and R101). -/
def Obligations.StepRunsAcceptedCommand : Prop :=
  ∀ (s : State) (w : CmdWord) (rest : List CmdWord) (i : Instr),
    s.pinsNow.rstN = true → s.pinsNow.inValid = true → s.stg = .idle → s.pend = none → s.cmdq = w :: rest →
    decode (.cmd w) = .ok i →
    s.inReady = true ∧ step s = exec i { s with cmdq := rest, pins := s.pins.tail }

/-- A step runs the decoded micro-operation: at an edge with no reset and a stage code in `STG`, the step is the meaning of
that micro-operation, after the character port's transfer, and then `STG` moves on in the order of R104
(spec/10_state.md R31, spec/40_commands.md R104). One micro-operation per edge is the model's choice (log entry 11). -/
def Obligations.StepRunsStage : Prop :=
  (∀ (s : State) (i : Instr), s.pinsNow.rstN = true → decode (.uop s.stg.code) = .ok i →
    (∀ t, exec i (portEdge s) = .next t → step s = .next { t with stg := nextStage ps1 t }) ∧
    (∀ e, exec i (portEdge s) = .fault e → step s = .fault e)) ∧
  (∀ s : State,
    (s.stg = .write → nextStage ps1 s = if s.fill.toNat = 228 then .pdft else .idle) ∧
    (s.stg = .pdft → nextStage ps1 s = .magx) ∧ (s.stg = .magx → nextStage ps1 s = .peak) ∧
    (s.stg = .peak → nextStage ps1 s = .decide) ∧ (s.stg = .decide → nextStage ps1 s = .seg) ∧
    (s.stg = .seg → nextStage ps1 s = .slide) ∧ (s.stg = .slide → nextStage ps1 s = .idle)) ∧
  (∀ s : State, portEdge s =
    if s.pinsNow.outReady then { s with out := s.out ++ s.pend.toList, pend := none, pins := s.pins.tail }
    else { s with pins := s.pins.tail })

/-- `rst_n` low wins: the reset of R107 is performed, whatever the state and whatever is offered, and no command is
accepted (spec/40_commands.md R102). That the two resets agree in what the spec leaves unspecified, and in dropping a pending
character even with `out_ready` high, is the model's choice (log entries 18 and 19). -/
def Obligations.HardResetWins : Prop :=
  ∀ s : State, s.pinsNow.rstN = false →
    s.inReady = false ∧
    ∃ t u, step s = .next t ∧ exec .reset s = .next u ∧ t = { u with pins := s.pins.tail } ∧ t.cmdq = s.cmdq ∧
      t.fill = 0 ∧ t.det = .idle ∧ t.sil = 0 ∧ t.mode = .run ∧ t.perr = false ∧ t.stg = .idle ∧ t.pend = none

/-- The block waits where R272 says it waits: with no command offered, or with a character the host has not taken. Nothing
but the ports moves; and what the pins `done`, `perr`, `out_valid` and `in_ready` show (spec/30_encoding.md R70,
spec/40_commands.md R101, spec/70_reset_and_hazards.md R272). -/
def Obligations.HostWaits : Prop :=
  (∀ s : State, (s.donePin = 1 ↔ s.mode = .done) ∧ (s.perrPin = 1 ↔ s.perr = true) ∧
    (s.outValid = true ↔ ∃ c, s.pend = some c) ∧
    (s.inReady = true ↔ s.pinsNow.rstN = true ∧ s.stg = .idle ∧ s.pend = none)) ∧
  ∀ s : State, s.pinsNow.rstN = true → s.stg = .idle →
    (s.cmdq = [] ∨ s.pinsNow.inValid = false ∨ s.pend ≠ none) →
    ∃ t, step s = .next t ∧ t = { s with out := t.out, pend := t.pend, pins := s.pins.tail } ∧
      (s.pinsNow.outReady = true → t.out = s.out ++ s.pend.toList ∧ t.pend = none) ∧
      (s.pinsNow.outReady = false → t.out = s.out ∧ t.pend = s.pend)

/-- A host that never takes a pending character stops the block: through any number of edges at which `out_ready` and the
reset stay inactive, no command is accepted and nothing changes (spec/70_reset_and_hazards.md R272). -/
def Obligations.PendingCharacterBlocks : Prop :=
  ∀ (k : ℕ) (s : State) (c : Byte), s.stg = .idle → s.pend = some c → k ≤ s.pins.length →
    (∀ p ∈ s.pins.take k, p.rstN = true ∧ p.outReady = false) →
    edges k s = .next { s with pins := s.pins.drop k }

/-! ## The commands -/

/-- NOP keeps every register and emits nothing, in any number (spec/40_commands.md R103). -/
def Obligations.NopKeepsEverything : Prop :=
  ∀ s : State, exec .nop s = .next s ∧ ∀ k : ℕ, execAll (List.replicate k .nop) s = .next s

/-- PUSH in mode `RUN` (spec/40_commands.md R104). It is WRITE of its sample, then, if that fills the window, the six other
micro-operations in the order PDFT, MAGX, PEAK, DECIDE, SEG, SLIDE. It always completes. A PUSH that does not fill the
window changes nothing but the window, `FILL` and the sample register; one that fills it leaves `FILL = 152` and the window
moved down by 76, and keeps `MODE`, `PERR`, `STG` and the two streams' other ends. -/
def Obligations.PushInRun : Prop :=
  ∀ (s : State) (x : Byte), s.mode = .run → s.win.wf = true →
    (s.fill.toNat < 227 → ∃ t, exec (.push x) s = .next t ∧ execAll [.write] { s with sample := x } = .next t ∧
      t = { s with win := t.win, fill := s.fill + 1, sample := x } ∧
      ∀ i, t.win.read i = if i = s.fill.toNat then x else s.win.read i) ∧
    (s.fill.toNat = 227 → ∃ t, exec (.push x) s = .next t ∧
      execAll [.write, .pdft, .magx, .peak, .decide, .seg, .slide] { s with sample := x } = .next t ∧
      t.fill = 152 ∧ (∀ i < 152, t.win.read i = if i = 151 then x else s.win.read (i + 76)) ∧
      t.sample = x ∧ t.mode = .run ∧ t.perr = s.perr ∧ t.stg = s.stg ∧ t.cmdq = s.cmdq ∧ t.pins = s.pins ∧
      ∃ cs : List Byte, cs.length ≤ 1 ∧ t.OUT = s.OUT ++ cs)

/-- PUSH in mode `DONE`: the sample is discarded, the sticky flag is set, nothing else changes
(spec/40_commands.md R105). -/
def Obligations.PushInDone : Prop :=
  ∀ (s : State) (x : Byte), s.mode = .done → exec (.push x) s = .next { s with perr := true }

/-- EOS (spec/40_commands.md R106). A second one changes nothing. That `WIN` keeps its bytes, which the spec leaves
unspecified after EOS, is the model's choice (log entry 18). -/
def Obligations.EosEndsTheStream : Prop :=
  ∀ s : State, exec .eos s = .next { s with mode := .done, fill := 0 } ∧
    execAll [.eos, .eos] s = .next { s with mode := .done, fill := 0 }

/-- RESET (spec/40_commands.md R107), with the values the rule leaves unspecified left unsaid. The pin has the same effect,
and a RESET directly after a RESET changes nothing. That the characters taken stay in `OUT` and the pending one leaves it is
the model's reading (log entry 10), and so is that the pin drops a pending character even at an edge with `out_ready` high
(log entry 19); that the pin leaves the unspecified registers as the command does is its choice (log entry 18). -/
def Obligations.ResetStartsAStream : Prop :=
  ∀ s : State, ∃ t, exec .reset s = .next t ∧
    t.fill = 0 ∧ t.det = .idle ∧ t.sil = 0 ∧ t.mode = .run ∧ t.perr = false ∧ t.stg = .idle ∧
    t.pend = none ∧ t.out = s.out ∧ (s.pend = none → t.OUT = s.OUT) ∧ t.cmdq = s.cmdq ∧ t.pins = s.pins ∧
    exec .reset t = .next t ∧ (s.pinsNow.rstN = false → step s = .next { t with pins := s.pins.tail })

/-! ## The window buffer -/

/-- WRITE stores the sample of the PUSH at index `FILL` and nowhere else, and steps `FILL`, for every `FILL` from 0 to 227
(spec/45_window_buffer.md R210). No other register changes. In mode `DONE`, which the rule's precondition shuts out, this is
the model's choice (log entry 22); that the sample stands in a register is too (log entry 5). -/
def Obligations.WriteStoresSample : Prop :=
  ∀ s : State, s.win.wf = true → s.fill.toNat ≤ 227 →
    ∃ t, exec .write s = .next t ∧ t = { s with win := t.win, fill := s.fill + 1 } ∧
      t.fill.toNat = s.fill.toNat + 1 ∧
      t.win.read s.fill.toNat = s.sample ∧ (∀ i, i ≠ s.fill.toNat → t.win.read i = s.win.read i) ∧
      t.win.wf = true

/-- THE MODEL'S CHOICE (log entry 9): a store at an index that is no element of `WIN` (spec/20_memory.md R50) stops with a
fault, by itself and inside a PUSH. No run reaches it. -/
def Obligations.WriteOutsideWindowFaults : Prop :=
  ∀ (s : State) (x : Byte), 228 ≤ s.fill.toNat →
    exec .write s = .fault (.winIndex s.fill.toNat) ∧
    (s.mode = .run → exec (.push x) s = .fault (.winIndex s.fill.toNat))

/-- SLIDE (spec/45_window_buffer.md R212): as if simultaneous, the newest 152 elements become the oldest and `FILL` becomes
152. No other register changes. -/
def Obligations.SlideShiftsWindow : Prop :=
  ∀ s : State, s.win.wf = true →
    ∃ t, exec .slide s = .next t ∧ t = { s with win := t.win, fill := 152 } ∧ t.win.wf = true ∧
      ∀ i < 152, t.win.read i = s.win.read (i + 76)

/-! ## The spectral analyzer -/

/-- PDFT (spec/42_spectral_analyzer.md R140). In every lane the accumulators start at `+0.0` and take the 228 samples in
order, each product rounded, then the sum; `RE` and `IM` get the last values. No other register changes. An all-zero window
gives `+0.0` in every lane, and the rule's example, a 1 as the oldest sample and zeros after it, gives 1.0 and `+0.0`. -/
def Obligations.PdftSumsInOrder : Prop :=
  ∀ s : State, ∃ t, exec .pdft s = .next t ∧ t = { s with re := t.re, im := t.im } ∧
    ∀ b : Bin, ∃ accRe accIm : ℕ → F64,
      accRe 0 = 0 ∧ accIm 0 = 0 ∧
      (∀ n < 228,
        accRe (n + 1) = Fp.fadd (accRe n) (Fp.fmul (Fp.f64 (s.win.read n).toNat) (ps1.tw b n).c) ∧
        accIm (n + 1) = Fp.fadd (accIm n) (Fp.fmul (Fp.f64 (s.win.read n).toNat) (ps1.tw b n).s)) ∧
      t.re.get b = accRe 228 ∧ t.im.get b = accIm 228 ∧
      ((∀ n < 228, s.win.read n = 0) → t.re.get b = 0 ∧ t.im.get b = 0) ∧
      (s.win.read 0 = 1 → (∀ n < 228, n ≠ 0 → s.win.read n = 0) → t.re.get b = Fp.f64 1 ∧ t.im.get b = 0)

/-- MAGX (spec/42_spectral_analyzer.md R150): the division before the squares, one rounding each; the example of the rule; a
zero pair gives `+0.0`; and the result is never negative. No other register changes. -/
def Obligations.MagxDividesThenRoots : Prop :=
  ∀ s : State, ∃ t, exec .magx s = .next t ∧ t = { s with re := t.re, im := t.im, mag := t.mag } ∧
    ∀ b : Bin,
      t.re.get b = Fp.fdiv (s.re.get b) (Fp.f64 228) ∧ t.im.get b = Fp.fdiv (s.im.get b) (Fp.f64 228) ∧
      t.mag.get b = Fp.fsqrt (Fp.fadd (Fp.fmul (t.re.get b) (t.re.get b)) (Fp.fmul (t.im.get b) (t.im.get b))) ∧
      (s.re.get b = 0 → s.im.get b = 0 → t.mag.get b = 0) ∧
      (s.re.get b = Fp.f64 684 → s.im.get b = Fp.f64 912 →
        t.re.get b = Fp.f64 3 ∧ t.im.get b = Fp.f64 4 ∧ t.mag.get b = Fp.f64 5) ∧
      (Fp.isNaN (s.re.get b) = false → Fp.isNaN (s.im.get b) = false → Fp.neg (t.mag.get b) = false)

/-- Ranges (spec/42_spectral_analyzer.md R145): for every window and every table whose entries are at most 1 in absolute
value, nothing overflows and no infinity or NaN appears, at any of the intermediate results. The ideal magnitude is at most the
largest sample. -/
def Obligations.NothingOverflows : Prop :=
  ∀ p : Params, p.n = 228 → TwBounded p → ∀ (m : Memory) (b : Bin),
    (∀ n < 228,
      (∀ y ∈ [Fp.fmul (windowValue m n) (p.tw b n).c, Fp.fmul (windowValue m n) (p.tw b n).s],
        Fp.isFinite y = true ∧ |Fp.value y| ≤ 255)) ∧
    (∀ n ≤ 228,
      ∀ y ∈ [(laneSums p m b n).1, (laneSums p m b n).2], Fp.isFinite y = true ∧ |Fp.value y| < 58141) ∧
    (∀ c : ℕ, (∀ n < 228, (m.read n).toNat ≤ c) → idealMagnitude p b (windowReal m) ≤ c) ∧
    idealMagnitude p b (windowReal m) ≤ 255 ∧
    ∀ re im : F64,
      re = Fp.fdiv (laneSums p m b 228).1 (Fp.f64 228) → im = Fp.fdiv (laneSums p m b 228).2 (Fp.f64 228) →
      Fp.isFinite re = true ∧ |Fp.value re| ≤ 256 ∧ Fp.isFinite im = true ∧ |Fp.value im| ≤ 256 ∧
      (∀ y ∈ [Fp.fmul re re, Fp.fmul im im], Fp.isFinite y = true ∧ Fp.neg y = false ∧ Fp.value y < 2 ^ 17) ∧
      Fp.isFinite (Fp.fadd (Fp.fmul re re) (Fp.fmul im im)) = true ∧
      Fp.value (Fp.fadd (Fp.fmul re re) (Fp.fmul im im)) < 2 ^ 18 ∧
      Fp.isFinite (hardwareMagnitude p m b) = true ∧ Fp.neg (hardwareMagnitude p m b) = false ∧
      Fp.value (hardwareMagnitude p m b) < 512

/-- Accuracy (spec/42_spectral_analyzer.md R152): for every window, every bin and every table with TW_ACC, the magnitude the
hardware computes is within 2^-29 of the ideal one of R141; so an ideal magnitude that far from the threshold, or twice that
far from another bin's, decides the comparison. -/
def Obligations.MagnitudeAccuracy : Prop :=
  ∀ p : Params, p.n = 228 → TwAcc p → ∀ (m : Memory) (b : Bin),
    |Fp.value (hardwareMagnitude p m b) - idealMagnitude p b (windowReal m)| < 1 / 2 ^ 29 ∧
    (5 + 1 / 2 ^ 29 < idealMagnitude p b (windowReal m) → Fp.fgt (hardwareMagnitude p m b) (Fp.f64 5) = true) ∧
    (idealMagnitude p b (windowReal m) ≤ 5 - 1 / 2 ^ 29 → Fp.fle (hardwareMagnitude p m b) (Fp.f64 5) = true) ∧
    (∀ b' : Bin, idealMagnitude p b' (windowReal m) + 1 / 2 ^ 28 < idealMagnitude p b (windowReal m) →
      Fp.fgt (hardwareMagnitude p m b) (hardwareMagnitude p m b') = true)

/-- An all-zero window gives magnitudes of exactly `+0.0` in every bin, for every table of finite entries, and the verdict
`NONE` (spec/42_spectral_analyzer.md R153 (a), spec/43_digit_decoder.md R177 (a)). -/
def Obligations.ZeroWindowIsSilence : Prop :=
  ∀ (p : Params) (m : Memory), 0 < p.n → (∀ n < p.n, m.read n = 0) →
    (∀ b : Bin, ∀ n < p.n, Fp.isFinite (p.tw b n).c = true ∧ Fp.isFinite (p.tw b n).s = true) →
    (∀ b : Bin, hardwareMagnitude p m b = 0) ∧
    (Fp.fgt p.thresh 0 = true → verdictOfWindow p m = .none)

/-- A window of one constant sample value gives magnitudes below 2^-29, whatever the constant and for every conforming
table, and the verdict `NONE`: the resting level of unsigned PCM contributes nothing (spec/42_spectral_analyzer.md R151 (b)
and R153 (b), spec/43_digit_decoder.md R177 (b)). -/
def Obligations.ConstantWindowIsSilence : Prop :=
  ∀ p : Params, p = { ps1 with tw := p.tw } → TwAcc p → ∀ (m : Memory) (c : Byte), (∀ n < 228, m.read n = c) →
    (∀ b : Bin, |Fp.value (hardwareMagnitude p m b)| < 1 / 2 ^ 29) ∧ verdictOfWindow p m = .none

/-- A steady two-tone signal is decoded to its digit. If every sample is the rounding of a constant plus two on-bin tones of
amplitude at least 12, one in each group, then for every conforming table the verdict is the digit of that row and column:
the tones have ideal magnitudes of half their amplitudes, rounding moves them by at most one half, and the hardware by less
than 2^-29 (spec/42_spectral_analyzer.md R151 (c) and (d), R152; spec/43_digit_decoder.md R173). -/
def Obligations.TwoToneWindowDecodes : Prop :=
  ∀ p : Params, p = { ps1 with tw := p.tw } → TwAcc p →
    ∀ (m : Memory) (row col : ℕ) (c a1 a2 phi1 phi2 : ℝ), row < 4 → col < 4 → 12 ≤ a1 → 12 ≤ a2 →
      (∀ n < 228, |windowReal m n - (c + a1 * Real.cos (phase p (BitVec.ofNat 3 row) n + phi1) +
        a2 * Real.cos (phase p (BitVec.ofNat 3 (col + 4)) n + phi2))| ≤ 1 / 2) →
      verdictOfWindow p m = .digit (BitVec.ofNat 4 (4 * row + col))

/-! ## The binary64 operations -/

/-- `fadd` is the sum rounded once, to nearest, ties to even, wherever it does not overflow
(spec/00_scope.md R13, spec/92_eei_decisions.md D8). -/
def Obligations.FaddCorrectlyRounded : Prop :=
  ∀ x y : F64, Fp.isFinite x = true → Fp.isFinite y = true → |Fp.value x + Fp.value y| ≤ Fp.value Fp.maxFinite →
    Fp.IsNearestEven (Fp.value x + Fp.value y) (Fp.fadd x y)

/-- `fmul` is the product rounded once, to nearest, ties to even, wherever it does not overflow
(spec/00_scope.md R13, spec/92_eei_decisions.md D8). -/
def Obligations.FmulCorrectlyRounded : Prop :=
  ∀ x y : F64, Fp.isFinite x = true → Fp.isFinite y = true → |Fp.value x * Fp.value y| ≤ Fp.value Fp.maxFinite →
    Fp.IsNearestEven (Fp.value x * Fp.value y) (Fp.fmul x y)

/-- `fdiv` is the quotient rounded once, to nearest, ties to even, wherever it does not overflow
(spec/00_scope.md R13, spec/92_eei_decisions.md D8). -/
def Obligations.FdivCorrectlyRounded : Prop :=
  ∀ x y : F64, Fp.isFinite x = true → Fp.isFinite y = true → Fp.isZero y = false →
    |Fp.value x / Fp.value y| ≤ Fp.value Fp.maxFinite →
    Fp.IsNearestEven (Fp.value x / Fp.value y) (Fp.fdiv x y)

/-- `fsqrt` is the square root rounded once, to nearest, ties to even (spec/00_scope.md R13,
spec/92_eei_decisions.md D8). -/
def Obligations.FsqrtCorrectlyRounded : Prop :=
  ∀ x : F64, Fp.isFinite x = true → 0 ≤ Fp.value x →
    Fp.IsNearestEven (Real.sqrt (Fp.value x)) (Fp.fsqrt x)

/-- `f64` is exact up to 2^53, and the comparisons are those of the real values (spec/00_scope.md R13). -/
def Obligations.ConversionAndComparisonsExact : Prop :=
  (∀ i : ℕ, i ≤ 2 ^ 53 → Fp.isFinite (Fp.f64 i) = true ∧ Fp.value (Fp.f64 i) = i) ∧
  (∀ x y : F64, Fp.isFinite x = true → Fp.isFinite y = true →
    (Fp.fle x y = true ↔ Fp.value x ≤ Fp.value y) ∧ (Fp.fgt x y = true ↔ Fp.value y < Fp.value x))

/-! ## The digit decoder -/

/-- PEAK (spec/43_digit_decoder.md R170). It always completes, changes no register but `TOP1` and `TOP2`, and makes them
distinct. On numbers `TOP1` is the lowest bin of the largest magnitude and `TOP2` the lowest of the largest among the
others. -/
def Obligations.PeakPicksTwoStrongest : Prop :=
  ∀ s : State, ∃ t, exec .peak s = .next t ∧ t = { s with top1 := t.top1, top2 := t.top2 } ∧ t.top1 ≠ t.top2 ∧
    ((∀ b, Fp.isNaN (s.mag.get b) = false) →
      (∀ b, Fp.fle (s.mag.get b) (s.mag.get t.top1) = true) ∧
      (∀ b, b < t.top1 → Fp.fgt (s.mag.get t.top1) (s.mag.get b) = true) ∧
      (∀ b, b ≠ t.top1 → Fp.fle (s.mag.get b) (s.mag.get t.top2) = true) ∧
      (∀ b, b ≠ t.top1 → b < t.top2 → Fp.fgt (s.mag.get t.top2) (s.mag.get b) = true))

/-- DECIDE (spec/43_digit_decoder.md R173): the threshold first, a magnitude of exactly 5.0 counting as not detected; then
the pair. No other register changes. -/
def Obligations.DecideVerdict : Prop :=
  ∀ s : State,
    exec .decide s = .next
      (if Fp.fle (s.mag.get s.top1) (Fp.f64 5) = true ∨ Fp.fle (s.mag.get s.top2) (Fp.f64 5) = true then
        { s with rk := .none, rsym := 0 }
      else if min s.top1.toNat s.top2.toNat ≤ 3 ∧ 4 ≤ max s.top1.toNat s.top2.toNat then
        { s with
          rk := .digit,
          rsym := BitVec.ofNat 4 (4 * min s.top1.toNat s.top2.toNat + (max s.top1.toNat s.top2.toNat - 4)) }
      else { s with rk := .unknown, rsym := 0 })

/-- The verdict register as a word (spec/30_encoding.md R77): `{RK, RSYM}` with the codes of the three kinds, `RSYM` as
`{row, col}` of the two bins when it is a digit and 0 otherwise, and the code 3 never. -/
def Obligations.VerdictWordFormat : Prop :=
  ∀ s : State, ∃ t, exec .decide s = .next t ∧
    (t.rk = .none → verdictWord t = 0b000000) ∧ (t.rk = .unknown → verdictWord t = 0b010000) ∧
    (t.rk = .digit → ∃ row col : BitVec 2, verdictWord t = (0b10 : BitVec 2) ++ row ++ col ∧
      ((s.top1.toNat = row.toNat ∧ s.top2.toNat = 4 + col.toNat) ∨
       (s.top2.toNat = row.toNat ∧ s.top1.toNat = 4 + col.toNat))) ∧
    (verdictWord t).extractLsb' 4 2 ≠ 0b11

/-- The decision written on harmonic indices (spec/43_digit_decoder.md R176): with both magnitudes above the threshold the
verdict is the result of `digitForHarmonicPair` on the two harmonics. -/
def Obligations.DecideByHarmonics : Prop :=
  ∀ s : State, Fp.fgt (s.mag.get s.top1) (Fp.f64 5) = true → Fp.fgt (s.mag.get s.top2) (Fp.f64 5) = true →
    ∃ t, exec .decide s = .next t ∧
      match digitForHarmonicPair ps1 (krom s.top1) (krom s.top2) with
      | none => t.rk = .unknown
      | some x => t.rk = .digit ∧ symrom t.rsym = x

/-- When the tie rule matters (spec/43_digit_decoder.md R178). If two bins are above all others, every tie rule gives the
same verdict; if all bins but one are at or below the threshold, every tie rule gives `NONE`. A tie rule as an order of the
eight bins is the model's form of D9 (log entry 6). -/
def Obligations.TieRuleMatters : Prop :=
  ∀ (p q : Params) (mag : Lanes F64), q = { p with tieOrder := q.tieOrder } → p.ok = true → q.ok = true →
    (∀ b, Fp.isNaN (mag.get b) = false) →
    (∀ a b : Bin, a ≠ b →
      (∀ c, c ≠ a → c ≠ b → Fp.fgt (mag.get a) (mag.get c) = true ∧ Fp.fgt (mag.get b) (mag.get c) = true) →
      verdictFor p (topTwo p mag).1 (topTwo p mag).2 (mag.get (topTwo p mag).1) (mag.get (topTwo p mag).2) =
        verdictFor q (topTwo q mag).1 (topTwo q mag).2 (mag.get (topTwo q mag).1) (mag.get (topTwo q mag).2)) ∧
    (∀ a : Bin, (∀ b, b ≠ a → Fp.fle (mag.get b) p.thresh = true) →
      verdictFor q (topTwo q mag).1 (topTwo q mag).2 (mag.get (topTwo q mag).1) (mag.get (topTwo q mag).2) = .none)

/-! ## The tables -/

/-- The harmonic indices (spec/41_harmonic_table.md R122): each the nearest integer to its exact quotient, with no quotient
a half; distinct, in range, the low group below the high group; the quotients and the bin centres of the rule's table. -/
def Obligations.HarmonicTableRounded : Prop :=
  (∀ b : Bin, frequencyToHarmonic ps1 (ps1.freq b) = ps1.k b ∧ 1 ≤ ps1.k b ∧ ps1.k b ≤ 113 ∧
    (ps1.freq b * 57) % 2000 ≠ 1000) ∧
  (∀ a b : Bin, a < b → ps1.freq a < ps1.freq b ∧ ps1.k a < ps1.k b) ∧
  (bins.map fun b => (ps1.freq b : ℚ) * 57 / 2000) =
    [19.8645, 21.945, 24.282, 26.8185, 34.4565, 38.076, 42.0945, 46.5405] ∧
  bins.map ps1.k = [20, 22, 24, 27, 34, 38, 42, 47] ∧
  (bins.map fun b => ⌊harmonicFrequency ps1 (ps1.k b) * 1000⌋) =
    [701754, 771929, 842105, 947368, 1192982, 1333333, 1473684, 1649122]

/-- The symbol table (spec/41_harmonic_table.md R125) in the character codes of spec/30_encoding.md R80. -/
def Obligations.SymbolTable : Prop :=
  (List.range 16).map (fun i => (ps1.sym (BitVec.ofNat 4 i)).toNat) = "123A456B789C*0#D".toList.map Char.toNat ∧
  ∀ row col : ℕ, row < 4 → col < 4 →
    pairIndex (BitVec.ofNat 3 row) (BitVec.ofNat 3 (col + 4)) = some (BitVec.ofNat 4 (4 * row + col))

/-- The pair lookup on any two integers, and on bins, where the two forms agree (spec/41_harmonic_table.md R126). It does not
depend on the order of its arguments; 16 of the 28 unordered pairs of table harmonics are valid; a pair of equals, or with a
harmonic that is not in the table, is not (R127). -/
def Obligations.PairLookup : Prop :=
  (∀ (h1 h2 : ℤ) (x : Byte), digitForHarmonicPair ps1 h1 h2 = some x ↔
    ∃ row col : ℕ, row < 4 ∧ col < 4 ∧ min h1 h2 = [20, 22, 24, 27].getD row 0 ∧ max h1 h2 = [34, 38, 42, 47].getD col 0 ∧
      x = symrom (BitVec.ofNat 4 (4 * row + col))) ∧
  (∀ b1 b2 : Bin, pairIndex b1 b2 =
    if min b1.toNat b2.toNat ≤ 3 ∧ 4 ≤ max b1.toNat b2.toNat then
      some (BitVec.ofNat 4 (4 * min b1.toNat b2.toNat + (max b1.toNat b2.toNat - 4)))
    else none) ∧
  (∀ b1 b2 : Bin, digitForHarmonicPair ps1 (krom b1) (krom b2) = (pairIndex b1 b2).map symrom) ∧
  (∀ h1 h2 : ℤ, digitForHarmonicPair ps1 h1 h2 = digitForHarmonicPair ps1 h2 h1) ∧
  (∀ h : ℤ, digitForHarmonicPair ps1 h h = none) ∧
  (∀ h1 h2 : ℤ, (∀ b : Bin, h1 ≠ krom b) → digitForHarmonicPair ps1 h1 h2 = none) ∧
  ((bins.flatMap fun a => (bins.filter fun b => a < b).map fun b => digitForHarmonicPair ps1 (krom a) (krom b)).length = 28) ∧
  ((bins.flatMap fun a => (bins.filter fun b => a < b).map fun b =>
    digitForHarmonicPair ps1 (krom a) (krom b)).countP Option.isSome = 16)

/-- Which parameter sets a block can be built from: those that meet spec/00_scope.md R9 and whose tie rule is an order of the
eight bins (spec/92_eei_decisions.md D9; that check is the model's addition, log entry 15). A set that fails is refused (spec/60_exceptions.md R231). PS1 is accepted. -/
def Obligations.ConfigChecks : Prop :=
  (∀ p : Params, p.ok = true ↔
    0 < p.n ∧ Fp.fgt p.thresh 0 = true ∧ 0 < p.fs ∧ (1 ≤ p.shift ∧ p.shift ≤ p.n) ∧
    (1 ≤ p.silThreshold ∧ p.silThreshold ≤ p.silMax - 1) ∧
    (∀ a b : Bin, a ≠ b → p.k a ≠ p.k b) ∧ (∀ b : Bin, 1 ≤ p.k b ∧ 2 * p.k b < p.n) ∧
    (∀ a b : Bin, a < 4 → 4 ≤ b → p.k a < p.k b) ∧
    (p.tieOrder.Nodup ∧ ∀ b : Bin, b ∈ p.tieOrder)) ∧
  (∀ p : Params, p.ok = true → p.build = .ok p) ∧ (∀ p : Params, p.ok = false → ∃ e, p.build = .error e) ∧
  ps1.build = .ok ps1

/-! ## The segmentation state machine -/

/-- SEG is the transition table of spec/44_segmentation_fsm.md R195. It completes in every state, changes no register but
`S` and `SIL`, and appends to `OUT` what the table says; with the output register empty the character stays pending. -/
def Obligations.SegTransitionTable : Prop :=
  ∀ s : State, ∃ t, exec .seg s = .next t ∧
    t = { s with det := t.det, sil := t.sil, out := t.out, pend := t.pend } ∧
    (s.pend = none → t.out = s.out) ∧
    match s.rk, s.det with
    | .digit, .idle => t.det = .tone ∧ t.sil = 0 ∧ t.OUT = s.OUT ++ [symrom s.rsym]
    | .digit, .tone => t.det = .tone ∧ t.sil = 0 ∧ t.OUT = s.OUT
    | .unknown, .idle => t.det = .idle ∧ t.sil = 0 ∧ t.OUT = s.OUT ++ [0x3F]
    | .unknown, .tone => t.det = .tone ∧ t.sil = 0 ∧ t.OUT = s.OUT ++ [0x3F]
    | .none, _ => t.det = .idle ∧ t.sil.toNat = min (s.sil.toNat + 1) 255 ∧
        t.OUT = s.OUT ++ (if t.sil.toNat = 21 then [0x0A] else [])

/-- A window gives at most one character, for every parameter set that can be built; so does a PUSH, and with the output
register empty that one register holds it (spec/44_segmentation_fsm.md R198). -/
def Obligations.OneCharacterPerWindow : Prop :=
  (∀ (p : Params) (v : Verdict) (det : DetState) (sil : Byte), p.ok = true →
    (segWindow p v det sil).emitted.length ≤ 1) ∧
  (∀ (s t : State) (x : Byte), exec (.push x) s = .next t → ∃ cs : List Byte, cs.length ≤ 1 ∧ t.OUT = s.OUT ++ cs ∧
    (s.pend = none → t.out = s.out ∧ t.pend.toList = cs))

/-- Debounce (spec/44_segmentation_fsm.md R191): of any run of digit windows, whichever digits they are, an idle machine
emits the first and a machine in a tone emits none; the counter is cleared. -/
def Obligations.HeldDigitEmittedOnce : Prop :=
  ∀ (i : SymIndex) (is : List SymIndex) (sil : Byte),
    segRun ps1 ((i :: is).map .digit) .idle sil = ⟨.tone, 0, [symrom i]⟩ ∧
    segRun ps1 ((i :: is).map .digit) .tone sil = ⟨.tone, 0, []⟩

/-- No debounce for `?` (spec/44_segmentation_fsm.md R192): `n` unknown windows emit `n` of them, in either state, which they
keep; the counter is cleared. -/
def Obligations.UnknownEmittedEveryWindow : Prop :=
  ∀ (n : ℕ) (det : DetState) (sil : Byte),
    segRun ps1 (List.replicate (n + 1) .unknown) det sil = ⟨det, 0, List.replicate (n + 1) 0x3F⟩

/-- A run of silent windows (spec/44_segmentation_fsm.md R193, R194 and R199 (f)): the state is idle, the counter is the
length of the run up to 255, and exactly one boundary is emitted if the run has at least 21 windows, none if it is
shorter. -/
def Obligations.SilenceRunHasOneBoundary : Prop :=
  ∀ (n : ℕ) (det : DetState),
    segRun ps1 (List.replicate (n + 1) .none) det 0 =
      ⟨.idle, BitVec.ofNat 8 (min (n + 1) 255), if 21 ≤ n + 1 then [0x0A] else []⟩

/-- The 8-bit counter that stops emits what an unbounded counter would, on every sequence of verdicts and for every parameter
set that can be built with an 8-bit maximum; one that wraps from 255 to 0 does not: it emits two boundaries in one run of 277
silent windows (spec/44_segmentation_fsm.md R196). -/
def Obligations.SaturatingCounterIndistinguishable : Prop :=
  (∀ (p : Params) (vs : List Verdict) (det : DetState) (sil : Byte), p.ok = true → p.silMax ≤ 255 → sil.toNat ≤ p.silMax →
    (segRun p vs det sil).emitted = counterRun (fun n => n + 1) p vs det sil.toNat) ∧
  (∀ n : ℕ, (segRun ps1 (List.replicate n .none) .idle 0).sil.toNat = min n 255) ∧
  (counterRun (fun n => (n + 1) % 256) ps1 (List.replicate 277 .none) .idle 0).length = 2 ∧
  (counterRun (fun n => n + 1) ps1 (List.replicate 277 .none) .idle 0).length = 1

/-- No two boundaries in a row, on every sequence of verdicts from every detection state
(spec/44_segmentation_fsm.md R199 (i)). -/
def Obligations.NoTwoBoundariesInARow : Prop :=
  ∀ (vs : List Verdict) (det : DetState) (sil : Byte) (before after : List Byte) (a b : Byte),
    (segRun ps1 vs det sil).emitted = before ++ a :: b :: after → ¬ (a = 0x0A ∧ b = 0x0A)

/-! ## The machine over whole runs -/

/-- The state after a reset, as far as the spec gives it: the state a block starts in, and the state after the command and
after the pin (spec/10_state.md R39). At the start nothing has been emitted. -/
def Obligations.ResetValues : Prop :=
  (∀ t : State, (t = State.reset ∨ ∃ s, exec .reset s = .next t ∨ (s.pinsNow.rstN = false ∧ step s = .next t)) →
    t.fill = 0 ∧ t.det = .idle ∧ t.det.bit = 0 ∧ t.sil = 0 ∧ t.mode = .run ∧ t.mode.bit = 0 ∧ t.perr = false ∧
    t.stg = .idle ∧ t.stg.code = 0 ∧ t.pend = none) ∧
  State.reset.out = []

/-- The invariant holds after reset. That `TOP1` and `TOP2` differ there rests on the model's values for registers the spec
leaves unspecified (log entry 2). -/
def Obligations.InvariantAtReset : Prop := Inv State.reset

/-- Every step keeps the invariant: the canonical form (the model's, log entry 1) and the range of `WIN`, `FILL` against
`STG`, `TOP1 != TOP2`, `RSYM` 0 unless a digit, `PERR` only in `DONE`, no sample held in `DONE`, `SIL = 0` in a tone, no
character pending while a command can emit one (spec/10_state.md R22, R27, R30; spec/20_memory.md R50; spec/30_encoding.md R77; spec/40_commands.md R101 and
R106; spec/44_segmentation_fsm.md R191). That a RESET keeps what the transient registers hold is the model's choice (log
entry 18). -/
def Obligations.StepKeepsInvariant : Prop := ∀ s t : State, Inv s → step s = .next t → Inv t

/-- Nothing stops the block: from every state that meets the invariant, any number of edges lead to a next state, whatever
the host drives; and every command word has an outcome (spec/40_commands.md R100, spec/60_exceptions.md R234). -/
def Obligations.NothingStopsTheBlock : Prop :=
  (∀ (k : ℕ) (s : State), Inv s → ∃ t, edges k s = .next t ∧ Inv t) ∧
  (∀ (w : CmdWord) (s : State), Inv s → s.stg = .idle → ∃ t, exec (decodeCmd w) s = .next t)

/-- The only way out of mode `DONE`, and the only way to clear `PERR`, is a reset, by the command or the pin; and a reset does
both (spec/60_exceptions.md R238). -/
def Obligations.OnlyResetLeavesDone : Prop :=
  (∀ (i : Instr) (s t : State), exec i s = .next t → i ≠ .reset →
    (s.mode = .done → t.mode = .done) ∧ (s.perr = true → t.perr = true)) ∧
  (∀ s t : State, step s = .next t → (s.mode = .done ∧ t.mode = .run) ∨ (s.perr = true ∧ t.perr = false) →
    s.pinsNow.rstN = false ∨ ∃ rest, fetch s = .command .reset rest) ∧
  (∀ s : State, ∃ t, exec .reset s = .next t ∧ t.mode = .run ∧ t.perr = false)

/-- Who writes what (the column 'written by' of spec/10_state.md section 1): an instruction that is not named for a register
leaves it as it was. A PUSH runs the analysis, and so writes its registers, only when it fills the window. What RESET and EOS
make unspecified is left unsaid. -/
def Obligations.OnlyTheNamedWritersWrite : Prop :=
  ∀ (i : Instr) (s t : State), exec i s = .next t →
    ((∀ x, i ≠ .push x) → i ≠ .write → i ≠ .slide → i ≠ .eos → i ≠ .reset → t.win = s.win ∧ t.fill = s.fill) ∧
    (runsAnalysis i s = false → i ≠ .reset →
      (i ≠ .pdft → i ≠ .magx → t.re = s.re ∧ t.im = s.im) ∧
      (i ≠ .magx → t.mag = s.mag) ∧
      (i ≠ .peak → t.top1 = s.top1 ∧ t.top2 = s.top2) ∧
      (i ≠ .decide → t.rk = s.rk ∧ t.rsym = s.rsym) ∧
      (i ≠ .seg → t.det = s.det ∧ t.sil = s.sil ∧ t.out = s.out ∧ t.pend = s.pend)) ∧
    (i ≠ .eos → i ≠ .reset → t.mode = s.mode) ∧
    ((∀ x, i ≠ .push x) → i ≠ .reset → t.perr = s.perr) ∧
    ((∀ x, i ≠ .push x) → t.sample = s.sample) ∧ (i ≠ .reset → t.stg = s.stg) ∧ t.cmdq = s.cmdq ∧ t.pins = s.pins

/-- A character the host has taken stays taken, whatever happens next (spec/10_state.md R32); and at an edge without a reset
by the pin the whole output stream only grows, in the order of emission (spec/00_scope.md R12). -/
def Obligations.OutputOnlyGrows : Prop :=
  ∀ s t : State, step s = .next t →
    (∃ cs, t.out = s.out ++ cs) ∧ (s.pinsNow.rstN = true → ∃ cs, t.OUT = s.OUT ++ cs)

/-- The output alphabet (spec/30_encoding.md R80): 18 characters, by their codes, and no step puts any other on the character
port. -/
def Obligations.OnlyTheAlphabetIsEmitted : Prop :=
  alphabet.map BitVec.toNat = "0123456789ABCD*#?\n".toList.map Char.toNat ∧
  (∀ c ∈ alphabet, c.msb = false) ∧
  (∀ s t : State, step s = .next t → (∀ c, s.pend = some c → c ∈ alphabet) → ∀ c, t.pend = some c → c ∈ alphabet) ∧
  State.reset.pend = none

/-- No information passes through the transient registers or the elements of `WIN` beyond `FILL`: two states that agree on
everything else give states that agree on everything else, and so the same output, under every sequence of commands
(spec/10_state.md R37). -/
def Obligations.TransientsNeverMatter : Prop :=
  ∀ (ws : List CmdWord) (s t s' : State), SameForHost s t → s.win.wf = true → t.win.wf = true →
    execAll (ws.map decodeCmd) s = .next s' →
    ∃ t', execAll (ws.map decodeCmd) t = .next t' ∧ SameForHost s' t' ∧ s'.OUT = t'.OUT

/-- The windows of a stream (spec/45_window_buffer.md R215). After a reset state and any commands that are PUSH and NOP, with
samples `x[0], x[1], ...`: the number of analyses is 0 below 228 samples and `floor((L - 228) / 76) + 1` from there; a PUSH
runs analysis `j` exactly when it is that of `x[76*j + 227]`; the buffer holds `x[76*j + n]` then, and `x[76*(j+1) + i]`
after it. -/
def Obligations.WindowsOfStream : Prop :=
  ∀ (is : List Instr) (s : State), s.mode = .run → s.fill = 0 → s.win.wf = true → (∀ i ∈ is, Feeds i) →
    ∃ t, execAll is s = .next t ∧ t.mode = .run ∧ t.win.wf = true ∧
      analysisCount is s = windowCount (samplesOf is).length ∧
      t.fill.toNat + 76 * windowCount (samplesOf is).length = (samplesOf is).length ∧
      (∀ i < t.fill.toNat, t.win.read i = (samplesOf is).getD (76 * windowCount (samplesOf is).length + i) 0) ∧
      ∀ x : Byte, ∃ u, exec (.push x) t = .next u ∧
        (runsAnalysis (.push x) t = true ↔ ∃ j, (samplesOf is).length = 76 * j + 227) ∧
        ∀ j, (samplesOf is).length = 76 * j + 227 →
          (∀ b : Bin, u.mag.get b = hardwareMagnitude ps1 (windowAt (samplesOf is ++ [x]) j) b) ∧
          (∀ n < 228, (windowAt (samplesOf is ++ [x]) j).read n = (samplesOf is ++ [x]).getD (76 * j + n) 0) ∧
          ∀ i < 152, u.win.read i = (samplesOf is ++ [x]).getD (76 * (j + 1) + i) 0

/-- The whole pipeline in one equation: the characters a stream adds to the output are those the segmentation machine gives
for the verdicts on its windows, in window order, one verdict per window, none skipped; and `S` and `SIL` are its final state
(spec/40_commands.md R104 and R108, spec/45_window_buffer.md R215, spec/70_reset_and_hazards.md R270). -/
def Obligations.StreamOutputIsTheSegmentedVerdicts : Prop :=
  ∀ (is : List Instr) (s : State), s.mode = .run → s.fill = 0 → s.win.wf = true → (∀ i ∈ is, Feeds i) →
    ∃ t, execAll is s = .next t ∧
      t.OUT = s.OUT ++ (segRun ps1 (streamVerdicts (samplesOf is)) s.det s.sil).emitted ∧
      t.det = (segRun ps1 (streamVerdicts (samplesOf is)) s.det s.sil).det ∧
      t.sil = (segRun ps1 (streamVerdicts (samplesOf is)) s.det s.sil).sil

/-- The output depends on the commands only (spec/40_commands.md R101). Whatever levels the host drives, as long as it does not
reset by the pin, the state after any number of edges is the state the commands accepted so far give one after another, and
differs from it only in how far the last character has got. That one edge completes a command is the model's choice (log
entries 3 and 11). -/
def Obligations.OutputDependsOnlyOnCommands : Prop :=
  ∀ (k : ℕ) (s t : State), s.stg = .idle → (∀ p ∈ s.pins, p.rstN = true) → edges k s = .next t →
    ∃ n u, t.cmdq = s.cmdq.drop n ∧ serve (s.cmdq.take n) s = .next u ∧
      t.takeChar = { u.takeChar with cmdq := t.cmdq, pins := s.pins.drop k }

/-- A host that is always ready is served: with `L` commands to offer, after `2*L + 1` edges all are done and the last
character is taken (spec/40_commands.md R101, spec/70_reset_and_hazards.md R272). The count of edges is the model's (log
entry 3). -/
def Obligations.ReadyHostIsServed : Prop :=
  ∀ s : State, Inv s → s.stg = .idle → s.pins = [] →
    ∃ t, edges (2 * s.cmdq.length + 1) s = .next t ∧ t.cmdq = [] ∧ t.pend = none ∧ t.stg = .idle

/-- A block that takes one edge for each micro-operation does the same as one whose PUSH is atomic: from `STG = WRITE` with
the sample latched, one edge, or seven if the sample fills the window, lead to the state the PUSH gives, but for how far the
character has got (spec/10_state.md R31, spec/40_commands.md R101 and R104). The refinement is the model's (log entry
11). -/
def Obligations.MultiCycleEqualsAtomic : Prop :=
  ∀ s : State, s.stg = .write → s.mode = .run → s.pend = none → s.win.wf = true → (∀ p ∈ s.pins, p.rstN = true) →
    (s.fill.toNat < 227 → ∃ t u, edges 1 s = .next t ∧ exec (.push s.sample) { s with stg := .idle } = .next u ∧
      t.takeChar = { u.takeChar with pins := s.pins.drop 1 }) ∧
    (s.fill.toNat = 227 → ∃ t u, edges 7 s = .next t ∧ exec (.push s.sample) { s with stg := .idle } = .next u ∧
      t.takeChar = { u.takeChar with pins := s.pins.drop 7 })
end

