-- ==== Sys2Proof/Laws/Decode.lean ====
section
/-! SUPPORT. The fields of a command word. -/

namespace Sys2Proof

@[simp] theorem opField_cmdWord (op : BitVec 2) (data : Byte) : opField (cmdWord op data) = op := by
  apply BitVec.eq_of_toNat_eq
  have hd := data.isLt
  have ho := op.isLt
  simp only [opField, cmdWord, BitVec.extractLsb'_toNat, BitVec.toNat_append, Nat.shiftRight_eq_div_pow]
  rw [← Nat.shiftLeft_add_eq_or_of_lt hd, Nat.shiftLeft_eq]
  omega

@[simp] theorem dataField_cmdWord (op : BitVec 2) (data : Byte) : dataField (cmdWord op data) = data := by
  apply BitVec.eq_of_toNat_eq
  have hd := data.isLt
  simp only [dataField, cmdWord, BitVec.extractLsb'_toNat, BitVec.toNat_append, Nat.shiftRight_eq_div_pow]
  rw [← Nat.shiftLeft_add_eq_or_of_lt hd, Nat.shiftLeft_eq]
  omega

/-- A word is its two fields. -/
theorem cmdWord_fields (w : CmdWord) : cmdWord (opField w) (dataField w) = w := by
  apply BitVec.eq_of_toNat_eq
  have := w.isLt
  have h : w.toNat % 256 < 2 ^ 8 := by omega
  simp only [opField, dataField, cmdWord, BitVec.extractLsb'_toNat, BitVec.toNat_append, Nat.shiftRight_eq_div_pow]
  rw [← Nat.shiftLeft_add_eq_or_of_lt (by simpa using h), Nat.shiftLeft_eq]
  omega

/-- Every operation code is one of the four. -/
theorem Op.cases (op : BitVec 2) : op = 0 ∨ op = 1 ∨ op = 2 ∨ op = 3 := by revert op; decide

end Sys2Proof
end

