-- ==== Sys2Proof/Laws/Float64.lean ====
section
/-! SUPPORT. One spec lemma for each helper of the binary64 arithmetic: the sign and the magnitude of a pattern, `log2`,
rounding to an integer, the integer square root, and the two comparisons. -/

namespace Sys2Proof.Fp

/-! ### Patterns -/

theorem mag_lt (x : F64) : mag x < 2 ^ 63 := Nat.mod_lt _ (by norm_num)

theorem toNat_eq (x : F64) : x.toNat = (if neg x then 2 ^ 63 else 0) + mag x := by
  have := x.isLt
  unfold neg mag
  split <;> simp_all <;> omega

@[simp] theorem mag_pack (s : Bool) {m : ℕ} (h : m < 2 ^ 63) : mag (pack s m) = m := by
  unfold mag pack
  cases s <;> simp <;> omega

@[simp] theorem neg_pack (s : Bool) {m : ℕ} (h : m < 2 ^ 63) : neg (pack s m) = s := by
  unfold neg pack
  cases s <;> simp <;> omega

/-- A pattern is its sign and its magnitude. -/
@[simp] theorem pack_neg_mag (x : F64) : pack (neg x) (mag x) = x := by
  apply BitVec.eq_of_toNat_eq
  have h := toNat_eq x
  have := mag_lt x
  unfold pack
  cases hs : neg x <;> simp [hs] at h ⊢ <;> omega

theorem infMag_lt : infMag < 2 ^ 63 := by decide

theorem roundMag_le (n up down : ℕ) : roundMag n up down ≤ infMag := Nat.min_le_left _ _

/-! ### log2 -/

/-- Dropping `k` low bits takes `k` from the logarithm, as long as something is left. -/
theorem log2_shift {n k : ℕ} (h : n >>> k ≠ 0) : Nat.log2 n = k + Nat.log2 (n >>> k) := by
  rw [Nat.shiftRight_eq_div_pow] at *
  have hn : n ≠ 0 := by rintro rfl; simp at h
  obtain ⟨h1, h2⟩ := (Nat.log2_eq_iff h).1 rfl
  refine (Nat.log2_eq_iff hn).2 ⟨?_, ?_⟩
  · rw [pow_add, mul_comm]; exact (Nat.le_div_iff_mul_le (by positivity)).1 h1
  · rw [Nat.add_assoc, pow_add, mul_comm]; exact (Nat.div_lt_iff_lt_mul (by positivity)).1 h2

/-- Each step of the search is at most one more than all later ones together. -/
def Halving : List ℕ → Prop
  | [] => True
  | k :: ks => k ≤ 1 + ks.sum ∧ Halving ks

/-- The search is right for the numbers its steps can reach. -/
theorem log2Below_eq (ks : List ℕ) (n acc : ℕ) (hk : Halving ks) (hn : n < 2 ^ (1 + ks.sum)) :
    log2Below ks n acc = acc + Nat.log2 n := by
  induction ks generalizing n acc with
  | nil =>
    have : n = 0 ∨ n = 1 := by simp at hn; omega
    rcases this with rfl | rfl <;> rfl
  | cons k ks ih =>
    unfold log2Below
    split
    · refine ih n acc hk.2 ?_
      have h0 : n < 2 ^ k := by
        rw [← Nat.div_eq_zero_iff_lt (by positivity), ← Nat.shiftRight_eq_div_pow]; assumption
      exact h0.trans_le (Nat.pow_le_pow_right (by norm_num) hk.1)
    · rename_i h0
      rw [ih (n >>> k) (acc + k) hk.2 ?_, log2_shift h0, Nat.add_assoc]
      rw [Nat.shiftRight_eq_div_pow, Nat.div_lt_iff_lt_mul (by positivity), ← pow_add]
      rw [List.sum_cons] at hn
      exact hn.trans_le (Nat.pow_le_pow_right (by norm_num) (by omega))

/-- `Fp.log2` is `Nat.log2`. -/
@[simp] theorem log2_eq (n : ℕ) : log2 n = Nat.log2 n := by
  unfold log2
  split
  · rw [log2Below_eq _ _ _ (by simp [Halving]), Nat.zero_add]
    rw [Nat.shiftRight_eq_div_pow, Nat.div_eq_zero_iff_lt (by positivity)] at *
    assumption
  · rfl

/-! ### Rounding to an integer -/

/-- `rne n d` is within half a `d` of `n`, and exactly half only with an even result. -/
theorem rne_spec (n : ℕ) {d : ℕ} (hd : 0 < d) :
    2 * (rne n d * d) ≤ 2 * n + d ∧ 2 * n ≤ 2 * (rne n d * d) + d ∧
    ((2 * (rne n d * d) = 2 * n + d ∨ 2 * n = 2 * (rne n d * d) + d) → rne n d % 2 = 0) := by
  have h := Nat.div_add_mod n d
  have hm := Nat.mod_lt n hd
  unfold rne
  simp only
  set q := n / d
  set r := n % d
  have e1 : d * q = q * d := Nat.mul_comm ..
  have e2 : (q + 1) * d = q * d + d := by ring
  have e3 : (q + q % 2) * d = q * d + q % 2 * d := by ring
  split
  · refine ⟨by omega, by omega, fun hh => by omega⟩
  · split
    · refine ⟨by omega, by omega, fun hh => by omega⟩
    · rcases Nat.mod_two_eq_zero_or_one q with hq | hq
      · rw [e3, hq]; refine ⟨by omega, by omega, fun _ => by omega⟩
      · rw [e3, hq]; refine ⟨by omega, by omega, fun _ => by omega⟩

/-- A whole quotient is not changed by rounding. -/
theorem rne_exact (q : ℕ) {d : ℕ} (hd : 0 < d) : rne (q * d) d = q := by
  unfold rne
  simp [Nat.mul_div_cancel _ hd, hd]

/-- Rounding keeps the order. -/
theorem rne_mono {m n d : ℕ} (hd : 0 < d) (h : m ≤ n) : rne m d ≤ rne n d := by
  obtain ⟨a1, a2, a3⟩ := rne_spec m hd
  obtain ⟨b1, b2, b3⟩ := rne_spec n hd
  by_contra hlt
  have hge : rne n d + 1 ≤ rne m d := by omega
  have hmul : rne n d * d + d ≤ rne m d * d := by
    calc rne n d * d + d = (rne n d + 1) * d := by ring
      _ ≤ rne m d * d := Nat.mul_le_mul_right d hge
  have e : rne m d = rne n d + 1 := by
    by_contra hne
    have : rne n d + 2 ≤ rne m d := by omega
    have : rne n d * d + 2 * d ≤ rne m d * d := by
      calc rne n d * d + 2 * d = (rne n d + 2) * d := by ring
        _ ≤ rne m d * d := Nat.mul_le_mul_right d this
    omega
  have := a3 (by omega)
  have := b3 (by omega)
  omega

/-! ### The integer square root -/

/-- The bits found are those of the square root, if the starting value is below it by less than `2^k`. -/
theorem isqrtBits_spec (k n r : ℕ) (h1 : r * r ≤ n) (h2 : n < (r + 2 ^ k) * (r + 2 ^ k)) :
    isqrtBits k n r * isqrtBits k n r ≤ n ∧ n < (isqrtBits k n r + 1) * (isqrtBits k n r + 1) := by
  induction k generalizing r with
  | zero => exact ⟨h1, by simpa [isqrtBits] using h2⟩
  | succ k ih =>
    unfold isqrtBits
    split
    · refine ih (r + 2 ^ k) ‹_› ?_
      rwa [Nat.add_assoc, ← Nat.two_mul, ← Nat.pow_succ']
    · exact ih r h1 (by omega)

/-- `isqrtBits 82` from zero is the integer square root of numbers below 4^82. -/
theorem isqrt_eq_sqrt {n : ℕ} (h : n < 2 ^ 164) : isqrtBits 82 n 0 = Nat.sqrt n := by
  obtain ⟨h1, h2⟩ := isqrtBits_spec 82 n 0 (by simp) (by simpa using h)
  exact (Nat.eq_sqrt.2 ⟨h1, h2⟩)

/-! ### Comparisons -/

theorem isNaN_of_isFinite {x : F64} (h : isFinite x = true) : isNaN x = false := by
  simp only [isFinite, isNaN, decide_eq_true_eq, decide_eq_false_iff_not] at *
  omega

/-- On numbers, `fle` and `fgt` are opposite. -/
theorem fgt_eq_not_fle {x y : F64} (hx : isNaN x = false) (hy : isNaN y = false) : fgt x y = !fle x y := by
  simp only [fgt, fle, hx, hy, Bool.or_self, Bool.not_false, Bool.true_and]
  rw [← decide_not]
  exact decide_eq_decide.2 (by omega)

theorem fle_iff {x y : F64} (hx : isNaN x = false) (hy : isNaN y = false) : fle x y = true ↔ key x ≤ key y := by
  simp [fle, hx, hy]

theorem fgt_iff {x y : F64} (hx : isNaN x = false) (hy : isNaN y = false) : fgt x y = true ↔ key y < key x := by
  simp [fgt, hx, hy]

end Sys2Proof.Fp
end

