-- ==== Sys2Proof/Laws/State.lean ====
section
/-! SUPPORT. What each operation on a state leaves in each field: one lemma per field per operation. -/

namespace Sys2Proof

/-- Every bin is one of the eight. -/
theorem Bin.cases (b : Bin) : b = 0 ∨ b = 1 ∨ b = 2 ∨ b = 3 ∨ b = 4 ∨ b = 5 ∨ b = 6 ∨ b = 7 := by
  revert b; decide

@[simp] theorem Lanes.get_ofFn {α : Type} (f : Bin → α) (b : Bin) : (Lanes.ofFn f).get b = f b := by
  rcases Bin.cases b with rfl | rfl | rfl | rfl | rfl | rfl | rfl | rfl <;> rfl

/-- Lanes are equal when they agree on every bin. -/
theorem Lanes.ext_get {α : Type} {l l' : Lanes α} (h : ∀ b, l.get b = l'.get b) : l = l' := by
  cases l; cases l'
  have h0 := h 0; have h1 := h 1; have h2 := h 2; have h3 := h 3
  have h4 := h 4; have h5 := h 5; have h6 := h 6; have h7 := h 7
  simp only [Lanes.get] at h0 h1 h2 h3 h4 h5 h6 h7
  simp_all

namespace Machine

/-! ### storeNext -/

@[simp] theorem storeNext_win (v : Byte) (s : State) : (storeNext v s).win = s.win.write s.fill.toNat v := rfl
@[simp] theorem storeNext_fill (v : Byte) (s : State) : (storeNext v s).fill = s.fill + 1 := rfl
@[simp] theorem storeNext_re (v : Byte) (s : State) : (storeNext v s).re = s.re := rfl
@[simp] theorem storeNext_im (v : Byte) (s : State) : (storeNext v s).im = s.im := rfl
@[simp] theorem storeNext_mag (v : Byte) (s : State) : (storeNext v s).mag = s.mag := rfl
@[simp] theorem storeNext_top1 (v : Byte) (s : State) : (storeNext v s).top1 = s.top1 := rfl
@[simp] theorem storeNext_top2 (v : Byte) (s : State) : (storeNext v s).top2 = s.top2 := rfl
@[simp] theorem storeNext_rk (v : Byte) (s : State) : (storeNext v s).rk = s.rk := rfl
@[simp] theorem storeNext_rsym (v : Byte) (s : State) : (storeNext v s).rsym = s.rsym := rfl
@[simp] theorem storeNext_det (v : Byte) (s : State) : (storeNext v s).det = s.det := rfl
@[simp] theorem storeNext_sil (v : Byte) (s : State) : (storeNext v s).sil = s.sil := rfl
@[simp] theorem storeNext_mode (v : Byte) (s : State) : (storeNext v s).mode = s.mode := rfl
@[simp] theorem storeNext_perr (v : Byte) (s : State) : (storeNext v s).perr = s.perr := rfl
@[simp] theorem storeNext_stg (v : Byte) (s : State) : (storeNext v s).stg = s.stg := rfl
@[simp] theorem storeNext_sample (v : Byte) (s : State) : (storeNext v s).sample = s.sample := rfl
@[simp] theorem storeNext_pend (v : Byte) (s : State) : (storeNext v s).pend = s.pend := rfl
@[simp] theorem storeNext_out (v : Byte) (s : State) : (storeNext v s).out = s.out := rfl
@[simp] theorem storeNext_cmdq (v : Byte) (s : State) : (storeNext v s).cmdq = s.cmdq := rfl
@[simp] theorem storeNext_pins (v : Byte) (s : State) : (storeNext v s).pins = s.pins := rfl

/-! ### latchSample -/

@[simp] theorem latchSample_win (v : Byte) (s : State) : (latchSample v s).win = s.win := rfl
@[simp] theorem latchSample_fill (v : Byte) (s : State) : (latchSample v s).fill = s.fill := rfl
@[simp] theorem latchSample_re (v : Byte) (s : State) : (latchSample v s).re = s.re := rfl
@[simp] theorem latchSample_im (v : Byte) (s : State) : (latchSample v s).im = s.im := rfl
@[simp] theorem latchSample_mag (v : Byte) (s : State) : (latchSample v s).mag = s.mag := rfl
@[simp] theorem latchSample_top1 (v : Byte) (s : State) : (latchSample v s).top1 = s.top1 := rfl
@[simp] theorem latchSample_top2 (v : Byte) (s : State) : (latchSample v s).top2 = s.top2 := rfl
@[simp] theorem latchSample_rk (v : Byte) (s : State) : (latchSample v s).rk = s.rk := rfl
@[simp] theorem latchSample_rsym (v : Byte) (s : State) : (latchSample v s).rsym = s.rsym := rfl
@[simp] theorem latchSample_det (v : Byte) (s : State) : (latchSample v s).det = s.det := rfl
@[simp] theorem latchSample_sil (v : Byte) (s : State) : (latchSample v s).sil = s.sil := rfl
@[simp] theorem latchSample_mode (v : Byte) (s : State) : (latchSample v s).mode = s.mode := rfl
@[simp] theorem latchSample_perr (v : Byte) (s : State) : (latchSample v s).perr = s.perr := rfl
@[simp] theorem latchSample_stg (v : Byte) (s : State) : (latchSample v s).stg = s.stg := rfl
@[simp] theorem latchSample_sample (v : Byte) (s : State) : (latchSample v s).sample = v := rfl
@[simp] theorem latchSample_pend (v : Byte) (s : State) : (latchSample v s).pend = s.pend := rfl
@[simp] theorem latchSample_out (v : Byte) (s : State) : (latchSample v s).out = s.out := rfl
@[simp] theorem latchSample_cmdq (v : Byte) (s : State) : (latchSample v s).cmdq = s.cmdq := rfl
@[simp] theorem latchSample_pins (v : Byte) (s : State) : (latchSample v s).pins = s.pins := rfl

/-! ### endStream -/

@[simp] theorem endStream_win (s : State) : (endStream s).win = s.win := rfl
@[simp] theorem endStream_fill (s : State) : (endStream s).fill = 0 := rfl
@[simp] theorem endStream_re (s : State) : (endStream s).re = s.re := rfl
@[simp] theorem endStream_im (s : State) : (endStream s).im = s.im := rfl
@[simp] theorem endStream_mag (s : State) : (endStream s).mag = s.mag := rfl
@[simp] theorem endStream_top1 (s : State) : (endStream s).top1 = s.top1 := rfl
@[simp] theorem endStream_top2 (s : State) : (endStream s).top2 = s.top2 := rfl
@[simp] theorem endStream_rk (s : State) : (endStream s).rk = s.rk := rfl
@[simp] theorem endStream_rsym (s : State) : (endStream s).rsym = s.rsym := rfl
@[simp] theorem endStream_det (s : State) : (endStream s).det = s.det := rfl
@[simp] theorem endStream_sil (s : State) : (endStream s).sil = s.sil := rfl
@[simp] theorem endStream_mode (s : State) : (endStream s).mode = .done := rfl
@[simp] theorem endStream_perr (s : State) : (endStream s).perr = s.perr := rfl
@[simp] theorem endStream_stg (s : State) : (endStream s).stg = s.stg := rfl
@[simp] theorem endStream_sample (s : State) : (endStream s).sample = s.sample := rfl
@[simp] theorem endStream_pend (s : State) : (endStream s).pend = s.pend := rfl
@[simp] theorem endStream_out (s : State) : (endStream s).out = s.out := rfl
@[simp] theorem endStream_cmdq (s : State) : (endStream s).cmdq = s.cmdq := rfl
@[simp] theorem endStream_pins (s : State) : (endStream s).pins = s.pins := rfl

/-! ### takeChar -/

@[simp] theorem takeChar_win (s : State) : s.takeChar.win = s.win := rfl
@[simp] theorem takeChar_fill (s : State) : s.takeChar.fill = s.fill := rfl
@[simp] theorem takeChar_re (s : State) : s.takeChar.re = s.re := rfl
@[simp] theorem takeChar_im (s : State) : s.takeChar.im = s.im := rfl
@[simp] theorem takeChar_mag (s : State) : s.takeChar.mag = s.mag := rfl
@[simp] theorem takeChar_top1 (s : State) : s.takeChar.top1 = s.top1 := rfl
@[simp] theorem takeChar_top2 (s : State) : s.takeChar.top2 = s.top2 := rfl
@[simp] theorem takeChar_rk (s : State) : s.takeChar.rk = s.rk := rfl
@[simp] theorem takeChar_rsym (s : State) : s.takeChar.rsym = s.rsym := rfl
@[simp] theorem takeChar_det (s : State) : s.takeChar.det = s.det := rfl
@[simp] theorem takeChar_sil (s : State) : s.takeChar.sil = s.sil := rfl
@[simp] theorem takeChar_mode (s : State) : s.takeChar.mode = s.mode := rfl
@[simp] theorem takeChar_perr (s : State) : s.takeChar.perr = s.perr := rfl
@[simp] theorem takeChar_stg (s : State) : s.takeChar.stg = s.stg := rfl
@[simp] theorem takeChar_sample (s : State) : s.takeChar.sample = s.sample := rfl
@[simp] theorem takeChar_pend (s : State) : s.takeChar.pend = none := rfl
@[simp] theorem takeChar_out (s : State) : s.takeChar.out = s.out ++ s.pend.toList := rfl
@[simp] theorem takeChar_cmdq (s : State) : s.takeChar.cmdq = s.cmdq := rfl
@[simp] theorem takeChar_pins (s : State) : s.takeChar.pins = s.pins := rfl

/-! ### emit -/

@[simp] theorem emit_win (c : Byte) (s : State) : (emit c s).win = s.win := rfl
@[simp] theorem emit_fill (c : Byte) (s : State) : (emit c s).fill = s.fill := rfl
@[simp] theorem emit_re (c : Byte) (s : State) : (emit c s).re = s.re := rfl
@[simp] theorem emit_im (c : Byte) (s : State) : (emit c s).im = s.im := rfl
@[simp] theorem emit_mag (c : Byte) (s : State) : (emit c s).mag = s.mag := rfl
@[simp] theorem emit_top1 (c : Byte) (s : State) : (emit c s).top1 = s.top1 := rfl
@[simp] theorem emit_top2 (c : Byte) (s : State) : (emit c s).top2 = s.top2 := rfl
@[simp] theorem emit_rk (c : Byte) (s : State) : (emit c s).rk = s.rk := rfl
@[simp] theorem emit_rsym (c : Byte) (s : State) : (emit c s).rsym = s.rsym := rfl
@[simp] theorem emit_det (c : Byte) (s : State) : (emit c s).det = s.det := rfl
@[simp] theorem emit_sil (c : Byte) (s : State) : (emit c s).sil = s.sil := rfl
@[simp] theorem emit_mode (c : Byte) (s : State) : (emit c s).mode = s.mode := rfl
@[simp] theorem emit_perr (c : Byte) (s : State) : (emit c s).perr = s.perr := rfl
@[simp] theorem emit_stg (c : Byte) (s : State) : (emit c s).stg = s.stg := rfl
@[simp] theorem emit_sample (c : Byte) (s : State) : (emit c s).sample = s.sample := rfl
@[simp] theorem emit_pend (c : Byte) (s : State) : (emit c s).pend = some c := rfl
@[simp] theorem emit_out (c : Byte) (s : State) : (emit c s).out = s.out ++ s.pend.toList := rfl
@[simp] theorem emit_cmdq (c : Byte) (s : State) : (emit c s).cmdq = s.cmdq := rfl
@[simp] theorem emit_pins (c : Byte) (s : State) : (emit c s).pins = s.pins := rfl

/-! ### raiseProtocolError -/

@[simp] theorem raiseProtocolError_win (s : State) : (raiseProtocolError s).win = s.win := rfl
@[simp] theorem raiseProtocolError_fill (s : State) : (raiseProtocolError s).fill = s.fill := rfl
@[simp] theorem raiseProtocolError_re (s : State) : (raiseProtocolError s).re = s.re := rfl
@[simp] theorem raiseProtocolError_im (s : State) : (raiseProtocolError s).im = s.im := rfl
@[simp] theorem raiseProtocolError_mag (s : State) : (raiseProtocolError s).mag = s.mag := rfl
@[simp] theorem raiseProtocolError_top1 (s : State) : (raiseProtocolError s).top1 = s.top1 := rfl
@[simp] theorem raiseProtocolError_top2 (s : State) : (raiseProtocolError s).top2 = s.top2 := rfl
@[simp] theorem raiseProtocolError_rk (s : State) : (raiseProtocolError s).rk = s.rk := rfl
@[simp] theorem raiseProtocolError_rsym (s : State) : (raiseProtocolError s).rsym = s.rsym := rfl
@[simp] theorem raiseProtocolError_det (s : State) : (raiseProtocolError s).det = s.det := rfl
@[simp] theorem raiseProtocolError_sil (s : State) : (raiseProtocolError s).sil = s.sil := rfl
@[simp] theorem raiseProtocolError_mode (s : State) : (raiseProtocolError s).mode = s.mode := rfl
@[simp] theorem raiseProtocolError_perr (s : State) : (raiseProtocolError s).perr = true := rfl
@[simp] theorem raiseProtocolError_stg (s : State) : (raiseProtocolError s).stg = s.stg := rfl
@[simp] theorem raiseProtocolError_sample (s : State) : (raiseProtocolError s).sample = s.sample := rfl
@[simp] theorem raiseProtocolError_pend (s : State) : (raiseProtocolError s).pend = s.pend := rfl
@[simp] theorem raiseProtocolError_out (s : State) : (raiseProtocolError s).out = s.out := rfl
@[simp] theorem raiseProtocolError_cmdq (s : State) : (raiseProtocolError s).cmdq = s.cmdq := rfl
@[simp] theorem raiseProtocolError_pins (s : State) : (raiseProtocolError s).pins = s.pins := rfl

/-! ### resetBlock -/

@[simp] theorem resetBlock_win (s : State) : (resetBlock s).win = s.win := rfl
@[simp] theorem resetBlock_fill (s : State) : (resetBlock s).fill = 0 := rfl
@[simp] theorem resetBlock_re (s : State) : (resetBlock s).re = s.re := rfl
@[simp] theorem resetBlock_im (s : State) : (resetBlock s).im = s.im := rfl
@[simp] theorem resetBlock_mag (s : State) : (resetBlock s).mag = s.mag := rfl
@[simp] theorem resetBlock_top1 (s : State) : (resetBlock s).top1 = s.top1 := rfl
@[simp] theorem resetBlock_top2 (s : State) : (resetBlock s).top2 = s.top2 := rfl
@[simp] theorem resetBlock_rk (s : State) : (resetBlock s).rk = s.rk := rfl
@[simp] theorem resetBlock_rsym (s : State) : (resetBlock s).rsym = s.rsym := rfl
@[simp] theorem resetBlock_det (s : State) : (resetBlock s).det = .idle := rfl
@[simp] theorem resetBlock_sil (s : State) : (resetBlock s).sil = 0 := rfl
@[simp] theorem resetBlock_mode (s : State) : (resetBlock s).mode = .run := rfl
@[simp] theorem resetBlock_perr (s : State) : (resetBlock s).perr = false := rfl
@[simp] theorem resetBlock_stg (s : State) : (resetBlock s).stg = .idle := rfl
@[simp] theorem resetBlock_sample (s : State) : (resetBlock s).sample = s.sample := rfl
@[simp] theorem resetBlock_pend (s : State) : (resetBlock s).pend = none := rfl
@[simp] theorem resetBlock_out (s : State) : (resetBlock s).out = s.out := rfl
@[simp] theorem resetBlock_cmdq (s : State) : (resetBlock s).cmdq = s.cmdq := rfl
@[simp] theorem resetBlock_pins (s : State) : (resetBlock s).pins = s.pins := rfl

/-! ### hardReset -/

@[simp] theorem hardReset_win (s : State) : (hardReset s).win = s.win := rfl
@[simp] theorem hardReset_fill (s : State) : (hardReset s).fill = 0 := rfl
@[simp] theorem hardReset_re (s : State) : (hardReset s).re = s.re := rfl
@[simp] theorem hardReset_im (s : State) : (hardReset s).im = s.im := rfl
@[simp] theorem hardReset_mag (s : State) : (hardReset s).mag = s.mag := rfl
@[simp] theorem hardReset_top1 (s : State) : (hardReset s).top1 = s.top1 := rfl
@[simp] theorem hardReset_top2 (s : State) : (hardReset s).top2 = s.top2 := rfl
@[simp] theorem hardReset_rk (s : State) : (hardReset s).rk = s.rk := rfl
@[simp] theorem hardReset_rsym (s : State) : (hardReset s).rsym = s.rsym := rfl
@[simp] theorem hardReset_det (s : State) : (hardReset s).det = .idle := rfl
@[simp] theorem hardReset_sil (s : State) : (hardReset s).sil = 0 := rfl
@[simp] theorem hardReset_mode (s : State) : (hardReset s).mode = .run := rfl
@[simp] theorem hardReset_perr (s : State) : (hardReset s).perr = false := rfl
@[simp] theorem hardReset_stg (s : State) : (hardReset s).stg = .idle := rfl
@[simp] theorem hardReset_sample (s : State) : (hardReset s).sample = s.sample := rfl
@[simp] theorem hardReset_pend (s : State) : (hardReset s).pend = none := rfl
@[simp] theorem hardReset_out (s : State) : (hardReset s).out = s.out := rfl
@[simp] theorem hardReset_cmdq (s : State) : (hardReset s).cmdq = s.cmdq := rfl
@[simp] theorem hardReset_pins (s : State) : (hardReset s).pins = s.pins.tail := rfl

/-! ### slideWindow -/

@[simp] theorem slideWindow_win (p : Params) (s : State) : (slideWindow p s).win = slideMemory p s.win := rfl
@[simp] theorem slideWindow_fill (p : Params) (s : State) : (slideWindow p s).fill = BitVec.ofNat 8 p.keep := rfl
@[simp] theorem slideWindow_re (p : Params) (s : State) : (slideWindow p s).re = s.re := rfl
@[simp] theorem slideWindow_im (p : Params) (s : State) : (slideWindow p s).im = s.im := rfl
@[simp] theorem slideWindow_mag (p : Params) (s : State) : (slideWindow p s).mag = s.mag := rfl
@[simp] theorem slideWindow_top1 (p : Params) (s : State) : (slideWindow p s).top1 = s.top1 := rfl
@[simp] theorem slideWindow_top2 (p : Params) (s : State) : (slideWindow p s).top2 = s.top2 := rfl
@[simp] theorem slideWindow_rk (p : Params) (s : State) : (slideWindow p s).rk = s.rk := rfl
@[simp] theorem slideWindow_rsym (p : Params) (s : State) : (slideWindow p s).rsym = s.rsym := rfl
@[simp] theorem slideWindow_det (p : Params) (s : State) : (slideWindow p s).det = s.det := rfl
@[simp] theorem slideWindow_sil (p : Params) (s : State) : (slideWindow p s).sil = s.sil := rfl
@[simp] theorem slideWindow_mode (p : Params) (s : State) : (slideWindow p s).mode = s.mode := rfl
@[simp] theorem slideWindow_perr (p : Params) (s : State) : (slideWindow p s).perr = s.perr := rfl
@[simp] theorem slideWindow_stg (p : Params) (s : State) : (slideWindow p s).stg = s.stg := rfl
@[simp] theorem slideWindow_sample (p : Params) (s : State) : (slideWindow p s).sample = s.sample := rfl
@[simp] theorem slideWindow_pend (p : Params) (s : State) : (slideWindow p s).pend = s.pend := rfl
@[simp] theorem slideWindow_out (p : Params) (s : State) : (slideWindow p s).out = s.out := rfl
@[simp] theorem slideWindow_cmdq (p : Params) (s : State) : (slideWindow p s).cmdq = s.cmdq := rfl
@[simp] theorem slideWindow_pins (p : Params) (s : State) : (slideWindow p s).pins = s.pins := rfl

/-! ### pdft -/

@[simp] theorem pdft_win (p : Params) (s : State) : (pdft p s).win = s.win := rfl
@[simp] theorem pdft_fill (p : Params) (s : State) : (pdft p s).fill = s.fill := rfl
@[simp] theorem pdft_mag (p : Params) (s : State) : (pdft p s).mag = s.mag := rfl
@[simp] theorem pdft_top1 (p : Params) (s : State) : (pdft p s).top1 = s.top1 := rfl
@[simp] theorem pdft_top2 (p : Params) (s : State) : (pdft p s).top2 = s.top2 := rfl
@[simp] theorem pdft_rk (p : Params) (s : State) : (pdft p s).rk = s.rk := rfl
@[simp] theorem pdft_rsym (p : Params) (s : State) : (pdft p s).rsym = s.rsym := rfl
@[simp] theorem pdft_det (p : Params) (s : State) : (pdft p s).det = s.det := rfl
@[simp] theorem pdft_sil (p : Params) (s : State) : (pdft p s).sil = s.sil := rfl
@[simp] theorem pdft_mode (p : Params) (s : State) : (pdft p s).mode = s.mode := rfl
@[simp] theorem pdft_perr (p : Params) (s : State) : (pdft p s).perr = s.perr := rfl
@[simp] theorem pdft_stg (p : Params) (s : State) : (pdft p s).stg = s.stg := rfl
@[simp] theorem pdft_sample (p : Params) (s : State) : (pdft p s).sample = s.sample := rfl
@[simp] theorem pdft_pend (p : Params) (s : State) : (pdft p s).pend = s.pend := rfl
@[simp] theorem pdft_out (p : Params) (s : State) : (pdft p s).out = s.out := rfl
@[simp] theorem pdft_cmdq (p : Params) (s : State) : (pdft p s).cmdq = s.cmdq := rfl
@[simp] theorem pdft_pins (p : Params) (s : State) : (pdft p s).pins = s.pins := rfl

/-! ### magx -/

@[simp] theorem magx_win (p : Params) (s : State) : (magx p s).win = s.win := rfl
@[simp] theorem magx_fill (p : Params) (s : State) : (magx p s).fill = s.fill := rfl
@[simp] theorem magx_top1 (p : Params) (s : State) : (magx p s).top1 = s.top1 := rfl
@[simp] theorem magx_top2 (p : Params) (s : State) : (magx p s).top2 = s.top2 := rfl
@[simp] theorem magx_rk (p : Params) (s : State) : (magx p s).rk = s.rk := rfl
@[simp] theorem magx_rsym (p : Params) (s : State) : (magx p s).rsym = s.rsym := rfl
@[simp] theorem magx_det (p : Params) (s : State) : (magx p s).det = s.det := rfl
@[simp] theorem magx_sil (p : Params) (s : State) : (magx p s).sil = s.sil := rfl
@[simp] theorem magx_mode (p : Params) (s : State) : (magx p s).mode = s.mode := rfl
@[simp] theorem magx_perr (p : Params) (s : State) : (magx p s).perr = s.perr := rfl
@[simp] theorem magx_stg (p : Params) (s : State) : (magx p s).stg = s.stg := rfl
@[simp] theorem magx_sample (p : Params) (s : State) : (magx p s).sample = s.sample := rfl
@[simp] theorem magx_pend (p : Params) (s : State) : (magx p s).pend = s.pend := rfl
@[simp] theorem magx_out (p : Params) (s : State) : (magx p s).out = s.out := rfl
@[simp] theorem magx_cmdq (p : Params) (s : State) : (magx p s).cmdq = s.cmdq := rfl
@[simp] theorem magx_pins (p : Params) (s : State) : (magx p s).pins = s.pins := rfl

/-! ### peak -/

@[simp] theorem peak_win (p : Params) (s : State) : (peak p s).win = s.win := rfl
@[simp] theorem peak_fill (p : Params) (s : State) : (peak p s).fill = s.fill := rfl
@[simp] theorem peak_re (p : Params) (s : State) : (peak p s).re = s.re := rfl
@[simp] theorem peak_im (p : Params) (s : State) : (peak p s).im = s.im := rfl
@[simp] theorem peak_mag (p : Params) (s : State) : (peak p s).mag = s.mag := rfl
@[simp] theorem peak_top1 (p : Params) (s : State) : (peak p s).top1 = (topTwo p s.mag).1 := rfl
@[simp] theorem peak_top2 (p : Params) (s : State) : (peak p s).top2 = (topTwo p s.mag).2 := rfl
@[simp] theorem peak_rk (p : Params) (s : State) : (peak p s).rk = s.rk := rfl
@[simp] theorem peak_rsym (p : Params) (s : State) : (peak p s).rsym = s.rsym := rfl
@[simp] theorem peak_det (p : Params) (s : State) : (peak p s).det = s.det := rfl
@[simp] theorem peak_sil (p : Params) (s : State) : (peak p s).sil = s.sil := rfl
@[simp] theorem peak_mode (p : Params) (s : State) : (peak p s).mode = s.mode := rfl
@[simp] theorem peak_perr (p : Params) (s : State) : (peak p s).perr = s.perr := rfl
@[simp] theorem peak_stg (p : Params) (s : State) : (peak p s).stg = s.stg := rfl
@[simp] theorem peak_sample (p : Params) (s : State) : (peak p s).sample = s.sample := rfl
@[simp] theorem peak_pend (p : Params) (s : State) : (peak p s).pend = s.pend := rfl
@[simp] theorem peak_out (p : Params) (s : State) : (peak p s).out = s.out := rfl
@[simp] theorem peak_cmdq (p : Params) (s : State) : (peak p s).cmdq = s.cmdq := rfl
@[simp] theorem peak_pins (p : Params) (s : State) : (peak p s).pins = s.pins := rfl

/-! ### decideVerdict -/

@[simp] theorem decideVerdict_win (p : Params) (s : State) : (decideVerdict p s).win = s.win := rfl
@[simp] theorem decideVerdict_fill (p : Params) (s : State) : (decideVerdict p s).fill = s.fill := rfl
@[simp] theorem decideVerdict_re (p : Params) (s : State) : (decideVerdict p s).re = s.re := rfl
@[simp] theorem decideVerdict_im (p : Params) (s : State) : (decideVerdict p s).im = s.im := rfl
@[simp] theorem decideVerdict_mag (p : Params) (s : State) : (decideVerdict p s).mag = s.mag := rfl
@[simp] theorem decideVerdict_top1 (p : Params) (s : State) : (decideVerdict p s).top1 = s.top1 := rfl
@[simp] theorem decideVerdict_top2 (p : Params) (s : State) : (decideVerdict p s).top2 = s.top2 := rfl
@[simp] theorem decideVerdict_det (p : Params) (s : State) : (decideVerdict p s).det = s.det := rfl
@[simp] theorem decideVerdict_sil (p : Params) (s : State) : (decideVerdict p s).sil = s.sil := rfl
@[simp] theorem decideVerdict_mode (p : Params) (s : State) : (decideVerdict p s).mode = s.mode := rfl
@[simp] theorem decideVerdict_perr (p : Params) (s : State) : (decideVerdict p s).perr = s.perr := rfl
@[simp] theorem decideVerdict_stg (p : Params) (s : State) : (decideVerdict p s).stg = s.stg := rfl
@[simp] theorem decideVerdict_sample (p : Params) (s : State) : (decideVerdict p s).sample = s.sample := rfl
@[simp] theorem decideVerdict_pend (p : Params) (s : State) : (decideVerdict p s).pend = s.pend := rfl
@[simp] theorem decideVerdict_out (p : Params) (s : State) : (decideVerdict p s).out = s.out := rfl
@[simp] theorem decideVerdict_cmdq (p : Params) (s : State) : (decideVerdict p s).cmdq = s.cmdq := rfl
@[simp] theorem decideVerdict_pins (p : Params) (s : State) : (decideVerdict p s).pins = s.pins := rfl

/-! ### The transient registers -/

/-- What PDFT leaves in `RE`. -/
@[simp] theorem pdft_re_get (p : Params) (s : State) (b : Bin) : (pdft p s).re.get b = (laneSums p s.win b p.n).1 := by
  simp [pdft]

/-- What PDFT leaves in `IM`. -/
@[simp] theorem pdft_im_get (p : Params) (s : State) (b : Bin) : (pdft p s).im.get b = (laneSums p s.win b p.n).2 := by
  simp [pdft]

/-- What MAGX leaves in `RE`. -/
@[simp] theorem magx_re_get (p : Params) (s : State) (b : Bin) :
    (magx p s).re.get b = Fp.fdiv (s.re.get b) (Fp.f64 p.n) := by
  simp [magx]

/-- What MAGX leaves in `IM`. -/
@[simp] theorem magx_im_get (p : Params) (s : State) (b : Bin) :
    (magx p s).im.get b = Fp.fdiv (s.im.get b) (Fp.f64 p.n) := by
  simp [magx]

/-- What MAGX leaves in `MAG`. -/
@[simp] theorem magx_mag_get (p : Params) (s : State) (b : Bin) :
    (magx p s).mag.get b = magnitude ((magx p s).re.get b) ((magx p s).im.get b) := by
  simp [magx]

/-- What DECIDE leaves in `RK` and `RSYM`, read as a verdict. -/
theorem decideVerdict_verdict (p : Params) (s : State) :
    verdictOf (decideVerdict p s).rk (decideVerdict p s).rsym =
      verdictFor p s.top1 s.top2 (s.mag.get s.top1) (s.mag.get s.top2) := by
  simp only [decideVerdict, topMagnitudes]
  cases verdictFor p s.top1 s.top2 (s.mag.get s.top1) (s.mag.get s.top2) <;> rfl

/-! ### portEdge -/

@[simp] theorem portEdge_win (s : State) : (portEdge s).win = s.win := by
  unfold portEdge; cases s.pinsNow.outReady <;> rfl
@[simp] theorem portEdge_fill (s : State) : (portEdge s).fill = s.fill := by
  unfold portEdge; cases s.pinsNow.outReady <;> rfl
@[simp] theorem portEdge_re (s : State) : (portEdge s).re = s.re := by
  unfold portEdge; cases s.pinsNow.outReady <;> rfl
@[simp] theorem portEdge_im (s : State) : (portEdge s).im = s.im := by
  unfold portEdge; cases s.pinsNow.outReady <;> rfl
@[simp] theorem portEdge_mag (s : State) : (portEdge s).mag = s.mag := by
  unfold portEdge; cases s.pinsNow.outReady <;> rfl
@[simp] theorem portEdge_top1 (s : State) : (portEdge s).top1 = s.top1 := by
  unfold portEdge; cases s.pinsNow.outReady <;> rfl
@[simp] theorem portEdge_top2 (s : State) : (portEdge s).top2 = s.top2 := by
  unfold portEdge; cases s.pinsNow.outReady <;> rfl
@[simp] theorem portEdge_rk (s : State) : (portEdge s).rk = s.rk := by
  unfold portEdge; cases s.pinsNow.outReady <;> rfl
@[simp] theorem portEdge_rsym (s : State) : (portEdge s).rsym = s.rsym := by
  unfold portEdge; cases s.pinsNow.outReady <;> rfl
@[simp] theorem portEdge_det (s : State) : (portEdge s).det = s.det := by
  unfold portEdge; cases s.pinsNow.outReady <;> rfl
@[simp] theorem portEdge_sil (s : State) : (portEdge s).sil = s.sil := by
  unfold portEdge; cases s.pinsNow.outReady <;> rfl
@[simp] theorem portEdge_mode (s : State) : (portEdge s).mode = s.mode := by
  unfold portEdge; cases s.pinsNow.outReady <;> rfl
@[simp] theorem portEdge_perr (s : State) : (portEdge s).perr = s.perr := by
  unfold portEdge; cases s.pinsNow.outReady <;> rfl
@[simp] theorem portEdge_stg (s : State) : (portEdge s).stg = s.stg := by
  unfold portEdge; cases s.pinsNow.outReady <;> rfl
@[simp] theorem portEdge_sample (s : State) : (portEdge s).sample = s.sample := by
  unfold portEdge; cases s.pinsNow.outReady <;> rfl
@[simp] theorem portEdge_cmdq (s : State) : (portEdge s).cmdq = s.cmdq := by
  unfold portEdge; cases s.pinsNow.outReady <;> rfl
@[simp] theorem portEdge_pins (s : State) : (portEdge s).pins = s.pins.tail := rfl

/-- A character pending at the edge is transferred exactly when the host is ready for it. -/
theorem portEdge_output (s : State) :
    ((portEdge s).out, (portEdge s).pend) =
      if s.pinsNow.outReady then (s.out ++ s.pend.toList, none) else (s.out, s.pend) := by
  unfold portEdge; cases s.pinsNow.outReady <;> rfl

/-- With nothing pending an edge moves nothing on the character port. -/
theorem portEdge_of_pend_none {s : State} (h : s.pend = none) : portEdge s = { s with pins := s.pins.tail } := by
  unfold portEdge State.takeChar
  cases s.pinsNow.outReady <;> simp [h]

/-! ### emitAll and SEG -/

@[simp] theorem emitAll_win (cs : List Byte) (s : State) : (emitAll cs s).win = s.win := by
  induction cs generalizing s with
  | nil => rfl
  | cons c cs ih => exact (ih (emit c s)).trans (emit_win c s)
@[simp] theorem emitAll_fill (cs : List Byte) (s : State) : (emitAll cs s).fill = s.fill := by
  induction cs generalizing s with
  | nil => rfl
  | cons c cs ih => exact (ih (emit c s)).trans (emit_fill c s)
@[simp] theorem emitAll_re (cs : List Byte) (s : State) : (emitAll cs s).re = s.re := by
  induction cs generalizing s with
  | nil => rfl
  | cons c cs ih => exact (ih (emit c s)).trans (emit_re c s)
@[simp] theorem emitAll_im (cs : List Byte) (s : State) : (emitAll cs s).im = s.im := by
  induction cs generalizing s with
  | nil => rfl
  | cons c cs ih => exact (ih (emit c s)).trans (emit_im c s)
@[simp] theorem emitAll_mag (cs : List Byte) (s : State) : (emitAll cs s).mag = s.mag := by
  induction cs generalizing s with
  | nil => rfl
  | cons c cs ih => exact (ih (emit c s)).trans (emit_mag c s)
@[simp] theorem emitAll_top1 (cs : List Byte) (s : State) : (emitAll cs s).top1 = s.top1 := by
  induction cs generalizing s with
  | nil => rfl
  | cons c cs ih => exact (ih (emit c s)).trans (emit_top1 c s)
@[simp] theorem emitAll_top2 (cs : List Byte) (s : State) : (emitAll cs s).top2 = s.top2 := by
  induction cs generalizing s with
  | nil => rfl
  | cons c cs ih => exact (ih (emit c s)).trans (emit_top2 c s)
@[simp] theorem emitAll_rk (cs : List Byte) (s : State) : (emitAll cs s).rk = s.rk := by
  induction cs generalizing s with
  | nil => rfl
  | cons c cs ih => exact (ih (emit c s)).trans (emit_rk c s)
@[simp] theorem emitAll_rsym (cs : List Byte) (s : State) : (emitAll cs s).rsym = s.rsym := by
  induction cs generalizing s with
  | nil => rfl
  | cons c cs ih => exact (ih (emit c s)).trans (emit_rsym c s)
@[simp] theorem emitAll_det (cs : List Byte) (s : State) : (emitAll cs s).det = s.det := by
  induction cs generalizing s with
  | nil => rfl
  | cons c cs ih => exact (ih (emit c s)).trans (emit_det c s)
@[simp] theorem emitAll_sil (cs : List Byte) (s : State) : (emitAll cs s).sil = s.sil := by
  induction cs generalizing s with
  | nil => rfl
  | cons c cs ih => exact (ih (emit c s)).trans (emit_sil c s)
@[simp] theorem emitAll_mode (cs : List Byte) (s : State) : (emitAll cs s).mode = s.mode := by
  induction cs generalizing s with
  | nil => rfl
  | cons c cs ih => exact (ih (emit c s)).trans (emit_mode c s)
@[simp] theorem emitAll_perr (cs : List Byte) (s : State) : (emitAll cs s).perr = s.perr := by
  induction cs generalizing s with
  | nil => rfl
  | cons c cs ih => exact (ih (emit c s)).trans (emit_perr c s)
@[simp] theorem emitAll_stg (cs : List Byte) (s : State) : (emitAll cs s).stg = s.stg := by
  induction cs generalizing s with
  | nil => rfl
  | cons c cs ih => exact (ih (emit c s)).trans (emit_stg c s)
@[simp] theorem emitAll_sample (cs : List Byte) (s : State) : (emitAll cs s).sample = s.sample := by
  induction cs generalizing s with
  | nil => rfl
  | cons c cs ih => exact (ih (emit c s)).trans (emit_sample c s)
@[simp] theorem emitAll_cmdq (cs : List Byte) (s : State) : (emitAll cs s).cmdq = s.cmdq := by
  induction cs generalizing s with
  | nil => rfl
  | cons c cs ih => exact (ih (emit c s)).trans (emit_cmdq c s)
@[simp] theorem emitAll_pins (cs : List Byte) (s : State) : (emitAll cs s).pins = s.pins := by
  induction cs generalizing s with
  | nil => rfl
  | cons c cs ih => exact (ih (emit c s)).trans (emit_pins c s)

@[simp] theorem emit_OUT (c : Byte) (s : State) : (emit c s).OUT = s.OUT ++ [c] := rfl

@[simp] theorem takeChar_OUT (s : State) : s.takeChar.OUT = s.OUT := by simp [State.OUT]

/-- `emitAll` appends its characters to `OUT`, in order. -/
@[simp] theorem emitAll_OUT (cs : List Byte) (s : State) : (emitAll cs s).OUT = s.OUT ++ cs := by
  induction cs generalizing s with
  | nil => exact (List.append_nil _).symm
  | cons c cs ih => exact (ih (emit c s)).trans (by simp)

/-- An edge without a reset moves characters and loses none. -/
@[simp] theorem portEdge_OUT (s : State) : (portEdge s).OUT = s.OUT := by
  unfold portEdge
  cases s.pinsNow.outReady
  · rfl
  · exact takeChar_OUT s

@[simp] theorem segmentStep_win (p : Params) (s : State) : (segmentStep p s).win = s.win := by
  simp [segmentStep]
@[simp] theorem segmentStep_fill (p : Params) (s : State) : (segmentStep p s).fill = s.fill := by
  simp [segmentStep]
@[simp] theorem segmentStep_re (p : Params) (s : State) : (segmentStep p s).re = s.re := by
  simp [segmentStep]
@[simp] theorem segmentStep_im (p : Params) (s : State) : (segmentStep p s).im = s.im := by
  simp [segmentStep]
@[simp] theorem segmentStep_mag (p : Params) (s : State) : (segmentStep p s).mag = s.mag := by
  simp [segmentStep]
@[simp] theorem segmentStep_top1 (p : Params) (s : State) : (segmentStep p s).top1 = s.top1 := by
  simp [segmentStep]
@[simp] theorem segmentStep_top2 (p : Params) (s : State) : (segmentStep p s).top2 = s.top2 := by
  simp [segmentStep]
@[simp] theorem segmentStep_rk (p : Params) (s : State) : (segmentStep p s).rk = s.rk := by
  simp [segmentStep]
@[simp] theorem segmentStep_rsym (p : Params) (s : State) : (segmentStep p s).rsym = s.rsym := by
  simp [segmentStep]
@[simp] theorem segmentStep_mode (p : Params) (s : State) : (segmentStep p s).mode = s.mode := by
  simp [segmentStep]
@[simp] theorem segmentStep_perr (p : Params) (s : State) : (segmentStep p s).perr = s.perr := by
  simp [segmentStep]
@[simp] theorem segmentStep_stg (p : Params) (s : State) : (segmentStep p s).stg = s.stg := by
  simp [segmentStep]
@[simp] theorem segmentStep_sample (p : Params) (s : State) : (segmentStep p s).sample = s.sample := by
  simp [segmentStep]
@[simp] theorem segmentStep_cmdq (p : Params) (s : State) : (segmentStep p s).cmdq = s.cmdq := by
  simp [segmentStep]
@[simp] theorem segmentStep_pins (p : Params) (s : State) : (segmentStep p s).pins = s.pins := by
  simp [segmentStep]

/-- Everything SEG does: the new detection state, and its characters appended to `OUT`. -/
theorem segmentStep_spec (p : Params) (s : State) :
    (segmentStep p s).det = (segWindow p (verdictOf s.rk s.rsym) s.det s.sil).det ∧
    (segmentStep p s).sil = (segWindow p (verdictOf s.rk s.rsym) s.det s.sil).sil ∧
    (segmentStep p s).OUT = s.OUT ++ (segWindow p (verdictOf s.rk s.rsym) s.det s.sil).emitted := by
  refine ⟨?_, ?_, ?_⟩
  · simp [segmentStep]
  · simp [segmentStep]
  · exact (emitAll_OUT _ _).trans rfl

end Machine
end Sys2Proof
end

