-- ==== Sys2Proof/Laws/Memory.lean ====
section
/-! SUPPORT. The contents of `WIN`: every operation keeps the canonical form, a read after a write gives the value
written, and a write leaves every other element alone. -/

namespace Sys2Proof.Machine

/-- All listed indices are at least `k`. -/
def Memory.From (k : Nat) (m : Memory) : Prop := ∀ c ∈ m, k ≤ c.1

theorem Memory.wf_tail {c : Host.Cell} {m : Memory} (h : Memory.wf (c :: m) = true) : Memory.wf m = true := by
  cases m with
  | nil => rfl
  | cons d m => simp only [Memory.wf, Bool.and_eq_true] at h; exact h.2

theorem Memory.wf_head {a : Nat} {v : Byte} {m : Memory} (h : Memory.wf ((a, v) :: m) = true) :
    v ≠ Memory.unwritten := by
  cases m with
  | nil => simpa [Memory.wf] using h
  | cons d m => simp only [Memory.wf, Bool.and_eq_true, bne_iff_ne] at h; exact h.1.2

theorem Memory.wf_from {a : Nat} {v : Byte} {m : Memory} (h : Memory.wf ((a, v) :: m) = true) :
    Memory.From (a + 1) m := by
  induction m generalizing a v with
  | nil => intro c hc; cases hc
  | cons d m ih =>
    have h1 : a < d.1 := by simp only [Memory.wf, Bool.and_eq_true, decide_eq_true_eq] at h; exact h.1.1
    have h2 : Memory.From (d.1 + 1) m := ih (Memory.wf_tail h)
    intro c hc
    rcases List.mem_cons.1 hc with rfl | hc
    · exact h1
    · exact Nat.le_trans (by omega) (h2 c hc)

/-- A list with a head of a smaller index and a proper value is canonical if its tail is. -/
theorem Memory.wf_cons {a : Nat} {v : Byte} {m : Memory} (hv : v ≠ Memory.unwritten) (hm : Memory.wf m = true)
    (hf : Memory.From (a + 1) m) : Memory.wf ((a, v) :: m) = true := by
  cases m with
  | nil => simpa [Memory.wf] using hv
  | cons d m =>
    have : a < d.1 := hf d (List.mem_cons_self ..)
    simp only [Memory.wf, Bool.and_eq_true, decide_eq_true_eq, bne_iff_ne]
    exact ⟨⟨this, hv⟩, hm⟩

/-- An index below every listed one is unwritten. -/
theorem Memory.read_below {k i : Nat} {m : Memory} (h : Memory.From k m) (hi : i < k) :
    m.read i = Memory.unwritten := by
  cases m with
  | nil => rfl
  | cons c m =>
    have : k ≤ c.1 := h c (List.mem_cons_self ..)
    simp only [Memory.read]
    rw [if_neg (by omega), if_pos (by omega)]

theorem Memory.read_cons_of_lt {a i : Nat} {v : Byte} {m : Memory} (h : a < i) : Memory.read ((a, v) :: m) i = m.read i := by
  simp only [Memory.read]
  rw [if_neg (by omega), if_neg (by omega)]

theorem Memory.read_cons_of_gt {a i : Nat} {v : Byte} {m : Memory} (h : i < a) :
    Memory.read ((a, v) :: m) i = Memory.unwritten := by
  simp only [Memory.read]
  rw [if_neg (by omega), if_pos h]

@[simp] theorem Memory.read_cons_self {a : Nat} {v : Byte} {m : Memory} : Memory.read ((a, v) :: m) a = v := by
  simp [Memory.read]

/-- Reading through the listing of one element, placed before larger indices. -/
theorem Memory.read_cell_append {i j : Nat} {v : Byte} {m : Memory} (h : Memory.From (i + 1) m) :
    Memory.read (Memory.cell i v ++ m) j = if j = i then v else m.read j := by
  unfold Memory.cell
  split
  · rw [List.nil_append]
    split
    · subst j; rw [Memory.read_below h (by omega)]; exact Eq.symm ‹v = _›
    · rfl
  · rw [List.singleton_append]
    rcases Nat.lt_trichotomy j i with hj | rfl | hj
    · rw [if_neg (by omega), Memory.read_cons_of_gt hj, Memory.read_below h (by omega)]
    · simp
    · rw [if_neg (by omega), Memory.read_cons_of_lt hj]

theorem Memory.wf_cell_append {i : Nat} {v : Byte} {m : Memory} (hm : Memory.wf m = true) (h : Memory.From (i + 1) m) :
    Memory.wf (Memory.cell i v ++ m) = true := by
  unfold Memory.cell
  split
  · exact hm
  · exact Memory.wf_cons ‹_› hm h

/-- The listing of one element holds at most that index. -/
theorem Memory.mem_cell {i : Nat} {v : Byte} {c : Host.Cell} (h : c ∈ Memory.cell i v) : c.1 = i := by
  unfold Memory.cell at h
  split at h
  · cases h
  · rw [List.mem_singleton.1 h]

theorem Memory.from_cell_append {k i : Nat} {v : Byte} {m : Memory} (hi : k ≤ i) (h : Memory.From k m) :
    Memory.From k (Memory.cell i v ++ m) := by
  intro c hc
  rcases List.mem_append.1 hc with hc | hc
  · exact (Memory.mem_cell hc).symm ▸ hi
  · exact h c hc

/-- A write lists its own index and indices listed before, no others. -/
theorem Memory.mem_write {i : Nat} {v : Byte} {m : Memory} {c : Host.Cell} (h : c ∈ m.write i v) : c.1 = i ∨ c ∈ m := by
  induction m with
  | nil => exact .inl (Memory.mem_cell h)
  | cons d m ih =>
    simp only [Memory.write] at h
    split at h
    · exact (List.mem_append.1 h).imp Memory.mem_cell (List.mem_cons_of_mem d)
    · split at h
      · exact (List.mem_append.1 h).imp Memory.mem_cell id
      · rcases List.mem_cons.1 h with rfl | h
        · exact .inr (List.mem_cons_self ..)
        · exact (ih h).imp id (List.mem_cons_of_mem d)

theorem Memory.from_write {k i : Nat} {v : Byte} {m : Memory} (hi : k ≤ i) (h : Memory.From k m) :
    Memory.From k (m.write i v) :=
  fun c hc => (Memory.mem_write hc).elim (fun e => e.symm ▸ hi) (h c)

/-- A write lists no index beyond those listed before and its own. -/
theorem Memory.range_write {k i : Nat} {v : Byte} {m : Memory} (hi : i < k) (h : ∀ c ∈ m, c.1 < k) :
    ∀ c ∈ m.write i v, c.1 < k :=
  fun c hc => (Memory.mem_write hc).elim (fun e => e.symm ▸ hi) (h c)

/-- A write keeps the canonical form. -/
theorem Memory.wf_write {i : Nat} {v : Byte} {m : Memory} (h : m.wf = true) : (m.write i v).wf = true := by
  induction m with
  | nil => simpa [Memory.write] using Memory.wf_cell_append (i := i) (v := v) h (fun c hc => nomatch hc)
  | cons c m ih =>
    obtain ⟨a, w⟩ := c
    have hf := Memory.wf_from h
    simp only [Memory.write]
    split
    · subst i; exact Memory.wf_cell_append (Memory.wf_tail h) hf
    · split
      · refine Memory.wf_cell_append h fun d hd => ?_
        rcases List.mem_cons.1 hd with rfl | hd
        · assumption
        · exact Nat.le_trans (by omega) (hf d hd)
      · exact Memory.wf_cons (Memory.wf_head h) (ih (Memory.wf_tail h)) (Memory.from_write (by omega) hf)

/-- A read after a write: the value written at its index, the old value everywhere else. -/
theorem Memory.read_write {i j : Nat} {v : Byte} {m : Memory} (h : m.wf = true) :
    (m.write i v).read j = if j = i then v else m.read j := by
  induction m with
  | nil =>
    have := Memory.read_cell_append (i := i) (j := j) (v := v) (m := []) (fun c hc => nomatch hc)
    rwa [List.append_nil] at this
  | cons c m ih =>
    obtain ⟨a, w⟩ := c
    have hf := Memory.wf_from h
    simp only [Memory.write]
    split
    · subst i
      rw [Memory.read_cell_append hf]
      split
      · rfl
      · rcases Nat.lt_or_gt_of_ne ‹j ≠ a› with hj | hj
        · rw [Memory.read_below hf (by omega), Memory.read_cons_of_gt hj]
        · rw [Memory.read_cons_of_lt hj]
    · split
      · refine Memory.read_cell_append fun d hd => ?_
        rcases List.mem_cons.1 hd with rfl | hd
        · assumption
        · exact Nat.le_trans (by omega) (hf d hd)
      · rcases Nat.lt_trichotomy j a with hj | rfl | hj
        · rw [if_neg (by omega), Memory.read_cons_of_gt hj, Memory.read_cons_of_gt hj]
        · rw [if_neg (by omega), Memory.read_cons_self, Memory.read_cons_self]
        · rw [Memory.read_cons_of_lt hj, Memory.read_cons_of_lt hj, ih (Memory.wf_tail h)]

/-! ### Many writes: the copy of SLIDE -/

/-- Writing `f i` at each `i < count`, one after another. -/
theorem Memory.fold_write_spec (f : Nat → Byte) (m : Memory) (h : m.wf = true) (count : Nat) :
    ((List.range count).foldl (fun acc i => acc.write i (f i)) m).wf = true ∧
    ∀ j, ((List.range count).foldl (fun acc i => acc.write i (f i)) m).read j = if j < count then f j else m.read j := by
  induction count with
  | zero => exact ⟨h, fun j => by simp⟩
  | succ k ih =>
    simp only [List.range_succ, List.foldl_append, List.foldl_cons, List.foldl_nil]
    refine ⟨Memory.wf_write ih.1, fun j => ?_⟩
    rw [Memory.read_write ih.1, ih.2 j]
    by_cases hj : j = k
    · subst hj; simp
    · rw [if_neg hj]
      exact if_congr (by omega) rfl rfl

theorem Memory.fold_write_range (f : Nat → Byte) (m : Memory) {k : Nat} (h : ∀ c ∈ m, c.1 < k) (count : Nat) (hk : count ≤ k) :
    ∀ c ∈ (List.range count).foldl (fun acc i => acc.write i (f i)) m, c.1 < k := by
  induction count with
  | zero => simpa using h
  | succ n ih =>
    simp only [List.range_succ, List.foldl_append, List.foldl_cons, List.foldl_nil]
    exact Memory.range_write (by omega) (ih (by omega))

/-- SLIDE keeps the canonical form. -/
theorem slideMemory_wf (p : Params) {m : Memory} (h : m.wf = true) : (slideMemory p m).wf = true := by
  unfold slideMemory
  exact (Memory.fold_write_spec (fun i => m.read (i + p.shift)) m h p.keep).1

/-- SLIDE as if simultaneous: every element below `KEEP` is the old one `SHIFT` further on, the others stay. -/
theorem slideMemory_read (p : Params) {m : Memory} (h : m.wf = true) (i : Nat) :
    (slideMemory p m).read i = if i < p.keep then m.read (i + p.shift) else m.read i := by
  unfold slideMemory
  exact (Memory.fold_write_spec (fun j => m.read (j + p.shift)) m h p.keep).2 i

/-- SLIDE lists no element outside `WIN`. -/
theorem slideMemory_range (p : Params) {m : Memory} (h : ∀ c ∈ m, c.1 < p.n) : ∀ c ∈ slideMemory p m, c.1 < p.n := by
  unfold slideMemory
  exact Memory.fold_write_range (fun i => m.read (i + p.shift)) m h p.keep (Nat.sub_le _ _)

/-! ### Stores and PUSH -/

/-- Everything WRITE can do. -/
theorem writeSample_cases (p : Params) (v : Byte) (s : State) :
    (s.fill.toNat < p.n ∧ writeSample p v s = .ok (storeNext v s)) ∨
    (p.n ≤ s.fill.toNat ∧ writeSample p v s = .error (.winIndex s.fill.toNat)) := by
  unfold writeSample
  split
  · exact .inl ⟨‹_›, rfl⟩
  · exact .inr ⟨by omega, rfl⟩

/-- Everything a PUSH in mode `RUN` can do: store, store and analyse, or a fault outside `WIN`. -/
theorem pushRun_cases (p : Params) (v : Byte) (s : State) :
    (s.fill.toNat < p.n ∧ (s.fill + 1).toNat ≠ p.n ∧ pushRun p v s = .ok (storeNext v (latchSample v s))) ∨
    (s.fill.toNat < p.n ∧ (s.fill + 1).toNat = p.n ∧
      pushRun p v s = .ok (analyse p (storeNext v (latchSample v s)))) ∨
    (p.n ≤ s.fill.toNat ∧ pushRun p v s = .error (.winIndex s.fill.toNat)) := by
  unfold pushRun
  rcases writeSample_cases p v (latchSample v s) with ⟨h, e⟩ | ⟨h, e⟩
  · by_cases hf : (s.fill + 1).toNat = p.n
    · exact .inr (.inl ⟨h, hf, by simp only [e, windowFull]; exact congrArg _ (if_pos (by simpa using hf))⟩)
    · exact .inl ⟨h, hf, by simp only [e, windowFull]; exact congrArg _ (if_neg (by simpa using hf))⟩
  · exact .inr (.inr ⟨h, by rw [e]; rfl⟩)

end Sys2Proof.Machine
end

