-- ==== Sys2Proof/Laws/PerInstr.lean ====
section
/-! SUPPORT. A statement about every instruction as syntax, one lemma for each constructor: its word lies in its own row of
spec/opcode_table.json, in the row's format, and the bits the row's mask leaves free hold its operand or zeros. -/

namespace Sys2Proof.Laws.OpcodeRow

/-- The word of a CMD row: the row's match under its mask, and `data` below. -/
def InCmdRow (f : Frame) (mtch : CmdWord) (data : Byte) : Prop :=
  ∃ w, f = .cmd w ∧ w &&& 0x300 = mtch ∧ dataField w = data

/-- The code of a UOP row: all its bits are fixed. -/
def InUopRow (f : Frame) (mtch : StageCode) : Prop := ∃ c, f = .uop c ∧ c &&& 0x7 = mtch

def Statement (i : Instr) : Prop :=
  match i with
  | .nop => InCmdRow (encode i) 0x000 0
  | .push sample => InCmdRow (encode i) 0x100 sample
  | .eos => InCmdRow (encode i) 0x200 0
  | .reset => InCmdRow (encode i) 0x300 0
  | .write => InUopRow (encode i) 0x1
  | .pdft => InUopRow (encode i) 0x2
  | .magx => InUopRow (encode i) 0x3
  | .peak => InUopRow (encode i) 0x4
  | .decide => InUopRow (encode i) 0x5
  | .seg => InUopRow (encode i) 0x6
  | .slide => InUopRow (encode i) 0x7

theorem nop : Statement .nop := ⟨_, rfl, by decide, by decide⟩
theorem push (sample : Byte) : Statement (.push sample) :=
  ⟨_, rfl, by revert sample; decide, dataField_cmdWord 1 sample⟩
theorem eos : Statement .eos := ⟨_, rfl, by decide, by decide⟩
theorem reset : Statement .reset := ⟨_, rfl, by decide, by decide⟩
theorem write : Statement .write := ⟨_, rfl, by decide⟩
theorem pdft : Statement .pdft := ⟨_, rfl, by decide⟩
theorem magx : Statement .magx := ⟨_, rfl, by decide⟩
theorem peak : Statement .peak := ⟨_, rfl, by decide⟩
theorem decide : Statement .decide := ⟨_, rfl, by decide⟩
theorem seg : Statement .seg := ⟨_, rfl, by decide⟩
theorem slide : Statement .slide := ⟨_, rfl, by decide⟩

end Sys2Proof.Laws.OpcodeRow
end

