-- ==== Sys2Proof/Laws/Rounding.lean ====
section
/-! SUPPORT. Rounding to binary64: the magnitudes of the format, what makes one of them the nearest to a number, and what
`roundMag` answers. -/

namespace Sys2Proof.Fp

/-- The magnitude, in units of 2^-1074, of the number with magnitude bits `m`. -/
def unitsOf (m : ℕ) : ℕ := (if m < 2 ^ 52 then m else 2 ^ 52 + m % 2 ^ 52) * 2 ^ (m / 2 ^ 52 - 1)

/-- The value of a pattern is its magnitude with its sign. -/
theorem value_eq (x : F64) : value x = (if neg x then -1 else 1) * (unitsOf (mag x) : ℝ) / 2 ^ 1074 := by
  unfold value units
  rw [show man x * 2 ^ exp x = unitsOf (mag x) from rfl]
  split
  · rw [Int.cast_neg, Int.cast_natCast, neg_one_mul]
  · rw [Int.cast_natCast, one_mul]

/-- A significand of up to 53 bits and its exponent, as magnitude bits. -/
theorem unitsOf_pack {q R : ℕ} (hq : 0 < q → 2 ^ 52 ≤ R) (hR : R ≤ 2 ^ 53) : unitsOf (q * 2 ^ 52 + R) = R * 2 ^ q := by
  unfold unitsOf
  rcases Nat.lt_trichotomy R (2 ^ 52) with h | h | h
  · have : q = 0 := by
      by_contra h0; have := hq (by omega); omega
    subst this
    rw [if_pos (by omega)]
    have : (0 * 2 ^ 52 + R) / 2 ^ 52 - 1 = 0 := by omega
    rw [this]; ring
  · rw [if_neg (by omega)]
    have h1 : (q * 2 ^ 52 + R) / 2 ^ 52 - 1 = q := by omega
    have h2 : (q * 2 ^ 52 + R) % 2 ^ 52 = 0 := by omega
    rw [h1, h2, h, Nat.add_zero]
  · rw [if_neg (by omega)]
    by_cases h53 : R = 2 ^ 53
    · have h1 : (q * 2 ^ 52 + R) / 2 ^ 52 - 1 = q + 1 := by omega
      have h2 : (q * 2 ^ 52 + R) % 2 ^ 52 = 0 := by omega
      rw [h1, h2, h53, Nat.add_zero, ← pow_add, ← pow_add]
      congr 1; omega
    · have h1 : (q * 2 ^ 52 + R) / 2 ^ 52 - 1 = q := by omega
      have h2 : (q * 2 ^ 52 + R) % 2 ^ 52 = R - 2 ^ 52 := by omega
      have h3 : 2 ^ 52 + (R - 2 ^ 52) = R := by omega
      rw [h1, h2, h3]

/-- Every magnitude is a multiple of `2^q`, or below `2^(52+q)`. -/
theorem unitsOf_granular (m q : ℕ) : 2 ^ q ∣ unitsOf m ∨ unitsOf m < 2 ^ (52 + q) := by
  unfold unitsOf
  by_cases h : q ≤ m / 2 ^ 52 - 1
  · exact .inl (Dvd.dvd.mul_left (pow_dvd_pow 2 h) _)
  · right
    have h1 : (if m < 2 ^ 52 then m else 2 ^ 52 + m % 2 ^ 52) < 2 ^ 53 := by
      have := Nat.mod_lt m (show 0 < 2 ^ 52 by norm_num)
      split <;> omega
    calc (if m < 2 ^ 52 then m else 2 ^ 52 + m % 2 ^ 52) * 2 ^ (m / 2 ^ 52 - 1)
        < 2 ^ 53 * 2 ^ (m / 2 ^ 52 - 1) := Nat.mul_lt_mul_of_pos_right h1 (by positivity)
      _ = 2 ^ (53 + (m / 2 ^ 52 - 1)) := by rw [pow_add]
      _ ≤ 2 ^ (52 + q) := Nat.pow_le_pow_right (by norm_num) (by omega)

/-- `R * 2^q` is `a` rounded to 53 significant bits (fewer at the bottom of the range), a half to even. -/
structure Rounds (a : ℝ) (q R : ℕ) : Prop where
  near : 2 * |(R : ℝ) * 2 ^ q - a| ≤ 2 ^ q
  even : 2 * |(R : ℝ) * 2 ^ q - a| = 2 ^ q → R % 2 = 0
  low : 0 < q → (2 : ℝ) ^ (52 + q) ≤ a
  full : 0 < q → 2 ^ 52 ≤ R
  top : R ≤ 2 ^ 53

/-- A whole number of steps is no nearer than the nearest. -/
theorem Rounds.le_multiple {a : ℝ} {q R : ℕ} (h : Rounds a q R) (k : ℕ) :
    |(R : ℝ) * 2 ^ q - a| ≤ |(k : ℝ) * 2 ^ q - a| ∧
    (k ≠ R → |(R : ℝ) * 2 ^ q - a| = |(k : ℝ) * 2 ^ q - a| → R % 2 = 0) := by
  have hp : (0 : ℝ) < 2 ^ q := by positivity
  by_cases hk : k = R
  · subst hk; exact ⟨le_refl _, fun h => absurd rfl h⟩
  · have h1 : (1 : ℝ) ≤ |(k : ℝ) - R| := by
      have : (1 : ℤ) ≤ |(k : ℤ) - R| := Int.one_le_abs (by omega)
      exact_mod_cast this
    have h2 : (2 : ℝ) ^ q ≤ |(k : ℝ) * 2 ^ q - R * 2 ^ q| := by
      rw [← sub_mul, abs_mul, abs_of_pos hp]; nlinarith
    have h3 : |(k : ℝ) * 2 ^ q - R * 2 ^ q| ≤ |(k : ℝ) * 2 ^ q - a| + |(R : ℝ) * 2 ^ q - a| := by
      rw [abs_sub_comm ((R : ℝ) * 2 ^ q) a]; exact abs_sub_le _ _ _
    have h4 := h.near
    exact ⟨by linarith, fun _ he => h.even (by linarith)⟩

/-- The rounded number is the nearest of all magnitudes, and an even one where another is as near. -/
theorem Rounds.nearest {a : ℝ} {q R : ℕ} (h : Rounds a q R) (m : ℕ) :
    |(unitsOf (q * 2 ^ 52 + R) : ℝ) - a| ≤ |(unitsOf m : ℝ) - a| ∧
    (unitsOf m ≠ unitsOf (q * 2 ^ 52 + R) → |(unitsOf (q * 2 ^ 52 + R) : ℝ) - a| = |(unitsOf m : ℝ) - a| →
      (q * 2 ^ 52 + R) % 2 = 0) := by
  have hp : (0 : ℝ) < 2 ^ q := by positivity
  have hu := unitsOf_pack h.full h.top
  have hmod : (q * 2 ^ 52 + R) % 2 = R % 2 := by omega
  rw [hu, hmod]
  push_cast
  have multiple : ∀ k : ℕ, unitsOf m = k * 2 ^ q → |(R : ℝ) * 2 ^ q - a| ≤ |(unitsOf m : ℝ) - a| ∧
      (unitsOf m ≠ R * 2 ^ q → |(R : ℝ) * 2 ^ q - a| = |(unitsOf m : ℝ) - a| → R % 2 = 0) := by
    intro k hk
    obtain ⟨h1, h2⟩ := h.le_multiple k
    rw [hk]; push_cast
    exact ⟨h1, fun hne => h2 (fun e => hne (by rw [e]))⟩
  rcases unitsOf_granular m q with ⟨k, hk⟩ | hlt
  · exact multiple k (by rw [hk, Nat.mul_comm])
  · by_cases hq : 0 < q
    · have hlow := h.low hq
      have hm : (unitsOf m : ℝ) < 2 ^ (52 + q) := by exact_mod_cast hlt
      have h1 := (h.le_multiple (2 ^ 52)).1
      have e1 : |((2 ^ 52 : ℕ) : ℝ) * 2 ^ q - a| = a - 2 ^ (52 + q) := by
        have e : ((2 ^ 52 : ℕ) : ℝ) * 2 ^ q = 2 ^ (52 + q) := by rw [pow_add]; norm_num
        rw [abs_sub_comm, e]; exact abs_of_nonneg (by linarith)
      have e2 : |(unitsOf m : ℝ) - a| = a - unitsOf m := by
        rw [abs_sub_comm]; exact abs_of_pos (by linarith)
      rw [e1] at h1; rw [e2]
      exact ⟨by linarith, fun _ he => by linarith⟩
    · have : q = 0 := by omega
      subst this
      exact multiple (unitsOf m) (by simp)

/-- A rounded number is the nearest binary64 to the number it was rounded from, whatever the sign. -/
theorem Rounds.isNearestEven {a : ℝ} {q R : ℕ} (h : Rounds a q R) (ha : 0 ≤ a) (s : Bool)
    (hfin : q * 2 ^ 52 + R < infMag) :
    IsNearestEven ((if s then -1 else 1) * a / 2 ^ 1074) (pack s (q * 2 ^ 52 + R)) := by
  have hlt : q * 2 ^ 52 + R < 2 ^ 63 := hfin.trans infMag_lt
  have hD : (0 : ℝ) < 2 ^ 1074 := by positivity
  have hval : value (pack s (q * 2 ^ 52 + R)) = (if s then -1 else 1) * (unitsOf (q * 2 ^ 52 + R) : ℝ) / 2 ^ 1074 := by
    rw [value_eq, neg_pack s hlt, mag_pack s hlt]
  have hsgn : |(if s then (-1 : ℝ) else 1)| = 1 := by cases s <;> simp
  have hdist : |value (pack s (q * 2 ^ 52 + R)) - (if s then -1 else 1) * a / 2 ^ 1074| =
      |(unitsOf (q * 2 ^ 52 + R) : ℝ) - a| / 2 ^ 1074 := by
    rw [hval, ← sub_div, ← mul_sub, abs_div, abs_mul, hsgn, one_mul, abs_of_pos hD]
  refine ⟨by rw [isFinite, mag_pack s hlt]; exact decide_eq_true hfin, fun w _ => ?_⟩
  obtain ⟨h1, h2⟩ := h.nearest (mag w)
  rw [hdist, mag_pack s hlt]
  by_cases hs : neg w = s
  · have hw : |value w - (if s then -1 else 1) * a / 2 ^ 1074| = |(unitsOf (mag w) : ℝ) - a| / 2 ^ 1074 := by
      rw [value_eq, hs, ← sub_div, ← mul_sub, abs_div, abs_mul, hsgn, one_mul, abs_of_pos hD]
    rw [hw]
    refine ⟨by gcongr, fun hne he => h2 (fun e => hne ?_) ?_⟩
    · rw [hval, value_eq, hs, e]
    · exact (div_left_inj' hD.ne').1 he
  · -- the other sign: zero is at least as near
    obtain ⟨z1, z2⟩ := h.nearest 0
    have hz : (unitsOf 0 : ℝ) = 0 := by simp [unitsOf]
    have hw : |value w - (if s then -1 else 1) * a / 2 ^ 1074| = ((unitsOf (mag w) : ℝ) + a) / 2 ^ 1074 := by
      have e : neg w = !s := by cases hn : neg w <;> cases s <;> simp_all
      have hu : (0 : ℝ) ≤ unitsOf (mag w) := by positivity
      rw [value_eq, e, ← sub_div, abs_div, abs_of_pos hD]
      congr 1
      cases s
      · simp only [Bool.not_false, if_true, Bool.false_eq_true, if_false]
        rw [show (-1 : ℝ) * unitsOf (mag w) - 1 * a = -(unitsOf (mag w) + a) by ring, abs_neg]
        exact abs_of_nonneg (by linarith)
      · simp only [Bool.not_true, Bool.false_eq_true, if_false, if_true]
        rw [show (1 : ℝ) * unitsOf (mag w) - -1 * a = unitsOf (mag w) + a by ring]
        exact abs_of_nonneg (by linarith)
    have hu : (0 : ℝ) ≤ unitsOf (mag w) := by positivity
    rw [hz, zero_sub, abs_neg, abs_of_nonneg ha] at z1 z2
    rw [hw]
    refine ⟨by gcongr; linarith, fun hne he => ?_⟩
    have he' : |(unitsOf (q * 2 ^ 52 + R) : ℝ) - a| = unitsOf (mag w) + a := (div_left_inj' hD.ne').1 he
    have hw0 : (unitsOf (mag w) : ℝ) = 0 := by linarith
    by_cases hzero : unitsOf (q * 2 ^ 52 + R) = 0
    · exfalso; apply hne
      rw [hval, value_eq, hzero, hw0]; simp
    · exact z2 (by simpa [unitsOf] using Ne.symm hzero) (by linarith)

/-! ### What `roundMag` answers -/

/-- `n` stands for `x` in every comparison with an even number: it is `x`, or it is odd and `x` lies strictly between its two
neighbours. -/
def Sticky (n : ℕ) (x : ℝ) : Prop := ∀ j : ℕ, ((2 * j : ℝ) ≤ x ↔ 2 * j ≤ n) ∧ (x ≤ (2 * j : ℝ) ↔ n ≤ 2 * j)

/-- The exponent of the last place that `roundMag` keeps. -/
def lastPlace (n up down : ℕ) : ℕ := (Nat.log2 n + up) - (52 + down)

/-- Rounding of a number that `n` stands for, when at least two of its bits are dropped. -/
theorem roundMag_sticky {n up down : ℕ} {x : ℝ} (hn : 0 < n) (hx : Sticky n x)
    (hdrop : up + 2 ≤ lastPlace n up down + down) :
    ∃ q R, roundMag n up down = min infMag (q * 2 ^ 52 + R) ∧ Rounds (x * 2 ^ up / 2 ^ down) q R := by
  set q := lastPlace n up down with hq
  obtain ⟨e, he⟩ : ∃ e, q + down = up + (e + 2) := ⟨q + down - up - 2, by omega⟩
  have hsub : q + down - up = e + 2 := by omega
  refine ⟨q, rne n (2 ^ (e + 2)), ?_, ?_⟩
  · unfold roundMag
    simp only [log2_eq]
    rw [show (Nat.log2 n + up) - (52 + down) = q from rfl, if_neg (by omega), hsub]
  obtain ⟨r1, r2, r3⟩ := rne_spec n (show 0 < 2 ^ (e + 2) by positivity)
  set R := rne n (2 ^ (e + 2)) with hR
  have hlog := (Nat.log2_eq_iff hn.ne').1 rfl
  have hU : (0 : ℝ) < 2 ^ up := by positivity
  have hDn : (0 : ℝ) < 2 ^ down := by positivity
  -- everything in units of 2^(up - down)
  have hscale : (2 : ℝ) ^ q = 2 ^ (e + 2) * 2 ^ up / 2 ^ down := by
    rw [eq_div_iff hDn.ne', ← pow_add, ← pow_add, he]; congr 1; omega
  have hdist : |(R : ℝ) * 2 ^ q - x * 2 ^ up / 2 ^ down| = |(R : ℝ) * 2 ^ (e + 2) - x| * (2 ^ up / 2 ^ down) := by
    have hpos : (0 : ℝ) < 2 ^ up / 2 ^ down := by positivity
    calc |(R : ℝ) * 2 ^ q - x * 2 ^ up / 2 ^ down| = |((R : ℝ) * 2 ^ (e + 2) - x) * (2 ^ up / 2 ^ down)| := by
          rw [hscale]; congr 1; ring
      _ = |(R : ℝ) * 2 ^ (e + 2) - x| * (2 ^ up / 2 ^ down) := by rw [abs_mul, abs_of_pos hpos]
  have hpos : (0 : ℝ) < 2 ^ up / 2 ^ down := by positivity
  -- the half steps are even numbers
  have hhi : x ≤ (2 * R + 1) * 2 ^ (e + 1) := by
    have h : n ≤ 2 * ((2 * R + 1) * 2 ^ e) := by
      have e1 : R * 2 ^ (e + 2) = 4 * (R * 2 ^ e) := by ring
      have e2 : 2 ^ (e + 2) = 4 * 2 ^ e := by ring
      have e3 : 2 * ((2 * R + 1) * 2 ^ e) = 4 * (R * 2 ^ e) + 2 * 2 ^ e := by ring
      omega
    have := (hx ((2 * R + 1) * 2 ^ e)).2.2 h
    push_cast at this
    calc x ≤ _ := this
      _ = (2 * R + 1) * 2 ^ (e + 1) := by ring
  have hlo : (2 * R - 1 : ℝ) * 2 ^ (e + 1) ≤ x := by
    by_cases hR0 : R = 0
    · have : (0 : ℝ) ≤ x := by have := (hx 0).1.2 (by omega); simpa using this
      have : (0 : ℝ) < 2 ^ (e + 1) := by positivity
      rw [hR0]; push_cast; nlinarith
    · have h : 2 * ((2 * R - 1) * 2 ^ e) ≤ n := by
        have e1 : R * 2 ^ (e + 2) = 4 * (R * 2 ^ e) := by ring
        have e2 : 2 ^ (e + 2) = 4 * 2 ^ e := by ring
        have e3 : 2 * ((2 * R - 1) * 2 ^ e) + 2 * 2 ^ e = 4 * (R * 2 ^ e) := by
          obtain ⟨k, hk⟩ : ∃ k, 2 * R = k + 1 := ⟨2 * R - 1, by omega⟩
          rw [hk, Nat.add_sub_cancel]
          have : 4 * (R * 2 ^ e) = 2 * ((2 * R) * 2 ^ e) := by ring
          rw [this, hk]; ring
        omega
      have := (hx ((2 * R - 1) * 2 ^ e)).1.2 h
      rw [Nat.cast_mul, Nat.cast_sub (by omega)] at this
      push_cast at this
      calc (2 * R - 1 : ℝ) * 2 ^ (e + 1) = 2 * ((2 * R - 1) * 2 ^ e) := by ring
        _ ≤ x := this
  have hpow : (2 : ℝ) ^ (e + 2) = 2 * 2 ^ (e + 1) := by ring
  have hnear : 2 * |(R : ℝ) * 2 ^ (e + 2) - x| ≤ 2 ^ (e + 2) := by
    have : |(R : ℝ) * 2 ^ (e + 2) - x| ≤ 2 ^ (e + 1) := abs_le.2 ⟨by rw [hpow]; linarith, by rw [hpow]; linarith⟩
    linarith
  have hlow : 0 < q → (2 : ℝ) ^ (54 + e) ≤ x := by
    intro h0
    have hl : Nat.log2 n = 54 + e := by simp only [lastPlace] at hq; omega
    have h : 2 * 2 ^ (53 + e) ≤ n := by
      have : 2 * 2 ^ (53 + e) = 2 ^ (54 + e) := by ring
      rw [this, ← hl]; exact hlog.1
    have := (hx (2 ^ (53 + e))).1.2 h
    push_cast at this
    calc (2 : ℝ) ^ (54 + e) = 2 * 2 ^ (53 + e) := by ring
      _ ≤ x := this
  refine ⟨?_, ?_, ?_, ?_, ?_⟩
  · rw [hdist, hscale, mul_div_assoc, ← mul_assoc]
    exact mul_le_mul_of_nonneg_right hnear hpos.le
  · intro h
    rw [hdist, hscale, mul_div_assoc, ← mul_assoc] at h
    have h := mul_right_cancel₀ hpos.ne' h
    rw [hpow] at h
    have e1 : R * 2 ^ (e + 2) = 4 * (R * 2 ^ e) := by ring
    have e2 : 2 ^ (e + 2) = 4 * 2 ^ e := by ring
    rcases le_total 0 ((R : ℝ) * (2 * 2 ^ (e + 1)) - x) with hs | hs
    · rw [abs_of_nonneg hs] at h
      have hx' : x = (2 * R - 1) * 2 ^ (e + 1) := by linarith
      have hR0 : R ≠ 0 := by
        intro h0
        have : (0 : ℝ) ≤ x := by have := (hx 0).1.2 (by omega); simpa using this
        have : (0 : ℝ) < 2 ^ (e + 1) := by positivity
        rw [h0] at hx'; push_cast at hx'; nlinarith
      have hc : x = 2 * (((2 * R - 1) * 2 ^ e : ℕ) : ℝ) := by
        rw [hx', Nat.cast_mul, Nat.cast_sub (by omega)]; push_cast; ring
      have h1 := (hx ((2 * R - 1) * 2 ^ e)).1.1 hc.ge
      have h2 := (hx ((2 * R - 1) * 2 ^ e)).2.1 hc.le
      have e3 : 2 * ((2 * R - 1) * 2 ^ e) + 2 * 2 ^ e = 4 * (R * 2 ^ e) := by
        obtain ⟨k, hk⟩ : ∃ k, 2 * R = k + 1 := ⟨2 * R - 1, by omega⟩
        rw [hk, Nat.add_sub_cancel]
        have : 4 * (R * 2 ^ e) = 2 * ((2 * R) * 2 ^ e) := by ring
        rw [this, hk]; ring
      exact r3 (.inl (by omega))
    · rw [abs_of_nonpos hs] at h
      have hx' : x = (2 * R + 1) * 2 ^ (e + 1) := by linarith
      have hc : x = 2 * (((2 * R + 1) * 2 ^ e : ℕ) : ℝ) := by rw [hx']; push_cast; ring
      have h1 := (hx ((2 * R + 1) * 2 ^ e)).1.1 hc.ge
      have h2 := (hx ((2 * R + 1) * 2 ^ e)).2.1 hc.le
      have e3 : 2 * ((2 * R + 1) * 2 ^ e) = 4 * (R * 2 ^ e) + 2 * 2 ^ e := by ring
      exact r3 (.inr (by omega))
  · intro h0
    rw [pow_add, hscale, ← mul_div_assoc, ← mul_assoc, ← pow_add, show 52 + (e + 2) = 54 + e by omega]
    gcongr; exact hlow h0
  · intro h0
    have hl : Nat.log2 n = 54 + e := by simp only [lastPlace] at hq; omega
    have h1 : 2 ^ 52 * 2 ^ (e + 2) ≤ n := by rw [← pow_add, show 52 + (e + 2) = 54 + e by omega, ← hl]; exact hlog.1
    have h2 := rne_mono (show 0 < 2 ^ (e + 2) by positivity) h1
    rwa [rne_exact _ (show 0 < 2 ^ (e + 2) by positivity)] at h2
  · have h1 : n ≤ 2 ^ 53 * 2 ^ (e + 2) := by
      rw [← pow_add]
      refine hlog.2.le.trans (Nat.pow_le_pow_right (by norm_num) ?_)
      simp only [lastPlace] at hq; omega
    have h2 := rne_mono (show 0 < 2 ^ (e + 2) by positivity) h1
    rwa [rne_exact _ (show 0 < 2 ^ (e + 2) by positivity)] at h2

/-- A number stands for itself. -/
theorem sticky_self (n : ℕ) : Sticky n n := fun j => ⟨by norm_cast, by norm_cast⟩

/-- A common factor changes no rounding. -/
theorem rne_scale (n d : ℕ) : rne (4 * n) (4 * d) = rne n d := by
  unfold rne
  rw [Nat.mul_div_mul_left _ _ (by norm_num), Nat.mul_mod_mul_left]
  simp only
  congr 1
  · exact propext ⟨fun h => by omega, fun h => by omega⟩
  · congr 1
    exact propext ⟨fun h => by omega, fun h => by omega⟩

/-- Two zero bits below a number change no rounding. -/
theorem roundMag_two_more {n up down : ℕ} (hn : 0 < n) (h : up ≤ lastPlace n up down + down) :
    lastPlace (4 * n) up (down + 2) = lastPlace n up down ∧ roundMag (4 * n) up (down + 2) = roundMag n up down := by
  have hlog : Nat.log2 (4 * n) = Nat.log2 n + 2 := by
    obtain ⟨a, b⟩ := (Nat.log2_eq_iff hn.ne').1 rfl
    refine (Nat.log2_eq_iff (by omega)).2 ⟨?_, ?_⟩
    · rw [pow_add]; omega
    · rw [show Nat.log2 n + 2 + 1 = Nat.log2 n + 1 + 2 by omega, pow_add]; omega
  have hq : lastPlace (4 * n) up (down + 2) = lastPlace n up down := by
    simp only [lastPlace, hlog]; omega
  refine ⟨hq, ?_⟩
  unfold roundMag
  simp only [log2_eq]
  have e1 : (Nat.log2 (4 * n) + up) - (52 + (down + 2)) = lastPlace n up down := hq
  have e2 : (Nat.log2 n + up) - (52 + down) = lastPlace n up down := rfl
  rw [e1, e2]
  set q := lastPlace n up down
  rw [if_neg (show ¬ q + (down + 2) ≤ up by omega)]
  split
  · have : q + (down + 2) - up = 2 := by omega
    have h0 : up - (q + down) = 0 := by omega
    rw [this, h0, pow_zero, Nat.mul_one, Nat.mul_comm 4 n]
    rw [show n * 4 = n * 2 ^ 2 by norm_num, rne_exact n (by norm_num)]
  · have : 2 ^ (q + (down + 2) - up) = 4 * 2 ^ (q + down - up) := by
      rw [show q + (down + 2) - up = (q + down - up) + 2 by omega, pow_add]; ring
    rw [this, rne_scale]

/-- Rounding of an exact number. -/
theorem roundMag_exact {n up down : ℕ} (hn : 0 < n) :
    ∃ q R, roundMag n up down = min infMag (q * 2 ^ 52 + R) ∧ Rounds ((n : ℝ) * 2 ^ up / 2 ^ down) q R := by
  by_cases h : up ≤ lastPlace n up down + down
  · obtain ⟨h1, h2⟩ := roundMag_two_more hn h
    obtain ⟨q, R, e, hr⟩ := roundMag_sticky (n := 4 * n) (up := up) (down := down + 2) (by omega) (sticky_self _)
      (by rw [h1]; omega)
    refine ⟨q, R, h2 ▸ e, ?_⟩
    have : ((4 * n : ℕ) : ℝ) * 2 ^ up / 2 ^ (down + 2) = n * 2 ^ up / 2 ^ down := by
      rw [pow_add]; push_cast; field_simp; norm_num
    rwa [this] at hr
  · -- no bit is dropped
    set q := lastPlace n up down with hq
    have hlog := (Nat.log2_eq_iff hn.ne').1 rfl
    refine ⟨q, n * 2 ^ (up - (q + down)), ?_, ?_⟩
    · unfold roundMag
      simp only [log2_eq]
      rw [show (Nat.log2 n + up) - (52 + down) = q from rfl, if_pos (by omega)]
    have hx : ((n * 2 ^ (up - (q + down)) : ℕ) : ℝ) * 2 ^ q = n * 2 ^ up / 2 ^ down := by
      rw [eq_div_iff (by positivity)]
      push_cast
      rw [mul_assoc, mul_assoc, ← pow_add, ← pow_add]; congr 2; omega
    have hz : |((n * 2 ^ (up - (q + down)) : ℕ) : ℝ) * 2 ^ q - n * 2 ^ up / 2 ^ down| = 0 := by rw [hx]; simp
    have hfull : 0 < q → 2 ^ 52 ≤ n * 2 ^ (up - (q + down)) := by
      intro h0
      calc 2 ^ 52 = 2 ^ (Nat.log2 n) * 2 ^ (up - (q + down)) := by
            rw [← pow_add]; congr 1; simp only [lastPlace] at hq; omega
        _ ≤ n * 2 ^ (up - (q + down)) := Nat.mul_le_mul_right _ hlog.1
    refine ⟨?_, ?_, ?_, hfull, ?_⟩
    · rw [hz]; simp
    · rw [hz]; intro h0; exfalso; have : (0 : ℝ) < 2 ^ q := by positivity
      linarith
    · intro h0
      rw [← hx, pow_add]
      have : ((2 ^ 52 : ℕ) : ℝ) ≤ ((n * 2 ^ (up - (q + down)) : ℕ) : ℝ) := by exact_mod_cast hfull h0
      rw [Nat.cast_pow] at this
      exact mul_le_mul_of_nonneg_right this (by positivity)
    · calc n * 2 ^ (up - (q + down)) ≤ 2 ^ (Nat.log2 n + 1) * 2 ^ (up - (q + down)) :=
            Nat.mul_le_mul_right _ hlog.2.le
        _ = 2 ^ (Nat.log2 n + 1 + (up - (q + down))) := by rw [pow_add _ (Nat.log2 n + 1)]
        _ ≤ 2 ^ 53 := Nat.pow_le_pow_right (by norm_num) (by simp only [lastPlace] at hq; omega)

/-- A significand whose product with the last place is at most half of it above the largest one is no longer than that. -/
theorem significand_le {R a T : ℝ} (hT : 0 < T) (ha : a ≤ (2 ^ 53 - 1) * T) (h : 2 * |R * T - a| ≤ T) :
    R ≤ 2 ^ 53 - 1 / 2 := by
  have h1 := le_abs_self (R * T - a)
  by_contra hc
  have := mul_pos (show (0 : ℝ) < R - (2 ^ 53 - 1 / 2) by linarith) hT
  nlinarith

/-- A number not above the largest finite one does not round to infinity. -/
theorem Rounds.lt_infMag {a : ℝ} {q R : ℕ} (h : Rounds a q R) (ha : a ≤ unitsOf (infMag - 1)) :
    q * 2 ^ 52 + R < infMag := by
  have hmax : unitsOf (infMag - 1) = (2 ^ 53 - 1) * 2 ^ 2045 := by
    rw [show infMag - 1 = 2045 * 2 ^ 52 + (2 ^ 53 - 1) by decide]
    exact unitsOf_pack (fun _ => by norm_num) (by norm_num)
  have hmaxR : (unitsOf (infMag - 1) : ℝ) = (2 ^ 53 - 1) * 2 ^ 2045 := by
    have h53 : ((2 ^ 53 - 1 : ℕ) : ℝ) = 2 ^ 53 - 1 := by norm_num
    rw [hmax, Nat.cast_mul, h53, Nat.cast_pow 2 2045, Nat.cast_ofNat]
  rw [hmaxR] at ha
  have hp : (0 : ℝ) < 2 ^ 2045 := by positivity
  have htop := h.top
  have hinf : infMag = 2047 * 2 ^ 52 := by decide
  rcases Nat.lt_trichotomy q 2045 with hq | hq | hq
  · omega
  · subst hq
    have h3 := significand_le hp ha h.near
    have h4 : R < 2 ^ 53 := by
      by_contra hc
      have : (9007199254740992 : ℝ) ≤ R := by exact_mod_cast (by omega : 9007199254740992 ≤ R)
      norm_num at h3
      linarith
    omega
  · exfalso
    have h1 := h.low (by omega)
    have h2 : (2 : ℝ) ^ (53 + 2045) ≤ 2 ^ (52 + q) := pow_le_pow_right₀ (by norm_num) (by omega)
    rw [pow_add] at h2
    have h3 : ((2 : ℝ) ^ 53 - 1) * 2 ^ 2045 < 2 ^ 53 * 2 ^ 2045 :=
      mul_lt_mul_of_pos_right (by norm_num) hp
    exact absurd ((h2.trans h1).trans ha) (not_le.2 h3)

end Sys2Proof.Fp
end

