-- ==== Sys2Proof/Laws/Step.lean ====
section
/-! SUPPORT. What one step, one PUSH and one SEG can do, each said once. -/

namespace Sys2Proof.Machine

@[simp] theorem edges_zero (s : State) : edges 0 s = .next s := rfl

/-- One edge, then the others. -/
theorem edges_succ (k : Nat) (s : State) :
    edges (k + 1) s = match step s with
      | .next t => edges k t
      | .fault e => .fault e
      | .refused r => .refused r := by
  cases h : step s <;> simp only [edges, Host.Core.run, core, h]

/-- The others, then one edge. -/
theorem edges_succ_last (k : Nat) (s : State) :
    edges (k + 1) s = match edges k s with
      | .next t => step t
      | .fault e => .fault e
      | .refused r => .refused r := by
  induction k generalizing s with
  | zero => rw [edges_succ, edges_zero]; dsimp only; cases step s <;> rfl
  | succ k ih =>
    rw [edges_succ, edges_succ k s]
    cases step s with
    | next t => exact ih t
    | fault e => rfl
    | refused r => rfl

/-- Everything an edge can do: a reset, the next micro-operation of the command in progress, an accepted command, or
nothing but the ports. -/
theorem step_cases (s : State) :
    (s.pinsNow.rstN = false ∧ step s = .next (hardReset s)) ∨
    (s.pinsNow.rstN = true ∧ ∃ i, decodeUop s.stg.code = .ok i ∧ step s = advanceStage (exec i (portEdge s))) ∨
    (s.pinsNow.rstN = true ∧ s.stg = .idle ∧ s.pend = none ∧ s.pinsNow.inValid = true ∧ ∃ w rest, s.cmdq = w :: rest ∧
      step s = exec (decodeCmd w) { s with cmdq := rest, pins := s.pins.tail }) ∨
    (s.pinsNow.rstN = true ∧ s.stg = .idle ∧ (s.cmdq = [] ∨ s.pend ≠ none ∨ s.pinsNow.inValid = false) ∧
      step s = .next (portEdge s)) := by
  cases hr : s.pinsNow.rstN
  · exact .inl ⟨rfl, by simp [step, fetch, hr]⟩
  · refine .inr ?_
    cases hs : s.stg
    case idle =>
      refine .inr ?_
      have hd : decodeUop s.stg.code = .error .idleStage := by rw [hs]; rfl
      cases hq : s.cmdq with
      | nil => exact .inr ⟨rfl, rfl, .inl rfl, by simp [step, fetch, hr, hd, hq]⟩
      | cons w rest =>
        by_cases hp : s.pend = none
        · cases hv : s.pinsNow.inValid
          · exact .inr ⟨rfl, rfl, .inr (.inr rfl), by simp [step, fetch, hr, hd, hq, hv]⟩
          · refine .inl ⟨rfl, rfl, hp, rfl, w, rest, rfl, ?_⟩
            simp only [step, fetch, hr, hd, hq, hv, State.inReady, portEdge_of_pend_none hp]
            simp [hs, hp]
        · refine .inr ⟨rfl, rfl, .inr (.inl hp), ?_⟩
          simp [step, fetch, hr, hd, hq, State.inReady, hp]
    all_goals exact .inl ⟨rfl, _, rfl, by simp [step, fetch, hr, hs, Stage.code, decodeUop]⟩

/-! ### The constants of PS1 as numerals -/

@[simp] theorem ps1_n : ps1.n = 228 := rfl
@[simp] theorem ps1_shift : ps1.shift = 76 := rfl
@[simp] theorem ps1_keep : ps1.keep = 152 := rfl
@[simp] theorem ps1_silThreshold : ps1.silThreshold = 21 := rfl
@[simp] theorem ps1_silMax : ps1.silMax = 255 := rfl
@[simp] theorem ps1_sym : ps1.sym = symrom := rfl
@[simp] theorem ps1_k : ps1.k = krom := rfl
@[simp] theorem ps1_tieOrder : ps1.tieOrder = bins := rfl

/-- A store steps `FILL` without a wrap. -/
theorem fill_succ_toNat {f : Byte} (h : f.toNat < 228) : (f + 1).toNat = f.toNat + 1 := by
  simp [BitVec.toNat_add]; omega

/-! ### The commands and the micro-operations -/

/-- Everything a PUSH can do. -/
theorem execPush_cases (x : Byte) (s : State) :
    (s.mode = .done ∧ execPush x s = .next (raiseProtocolError s)) ∨
    (s.mode = .run ∧ s.fill.toNat + 1 < ps1.n ∧ execPush x s = .next (storeNext x (latchSample x s))) ∨
    (s.mode = .run ∧ s.fill.toNat + 1 = ps1.n ∧ execPush x s = .next (analyse ps1 (storeNext x (latchSample x s)))) ∨
    (s.mode = .run ∧ ps1.n ≤ s.fill.toNat ∧ execPush x s = .fault (.winIndex s.fill.toNat)) := by
  have hf : s.fill.toNat < ps1.n → (s.fill + 1).toNat = s.fill.toNat + 1 := fill_succ_toNat
  cases hm : s.mode
  · rcases pushRun_cases ps1 x s with ⟨h, h1, e⟩ | ⟨h, h1, e⟩ | ⟨h, e⟩
    · exact .inr (.inl ⟨rfl, by have := hf h; omega, by simp [execPush, hm, e]⟩)
    · exact .inr (.inr (.inl ⟨rfl, by have := hf h; omega, by simp [execPush, hm, e]⟩))
    · exact .inr (.inr (.inr ⟨rfl, h, by simp [execPush, hm, e]⟩))
  · exact .inl ⟨rfl, by simp [execPush, hm]⟩

/-- Everything WRITE can do. -/
theorem execWrite_cases (s : State) :
    (s.fill.toNat < ps1.n ∧ execWrite s = .next (storeNext s.sample s)) ∨
    (ps1.n ≤ s.fill.toNat ∧ execWrite s = .fault (.winIndex s.fill.toNat)) := by
  unfold execWrite
  rcases writeSample_cases ps1 s.sample s with ⟨h, e⟩ | ⟨h, e⟩
  · exact .inl ⟨h, by rw [e]⟩
  · exact .inr ⟨h, by rw [e]⟩

/-- The counter as a number. -/
theorem silNext_toNat {p : Params} (hp : p.silMax < 256) (sil : Byte) :
    (silNext p sil).toNat = min (sil.toNat + 1) p.silMax := by
  simp only [silNext, BitVec.toNat_ofNat]
  exact Nat.mod_eq_of_lt (by omega)

/-- Everything SEG can do on one window, if the threshold is at least 1. -/
theorem segWindow_cases {p : Params} (hp : 1 ≤ p.silThreshold) (v : Verdict) (det : DetState) (sil : Byte) :
    (∃ i, v = .digit i ∧ segWindow p v det sil = ⟨.tone, 0, if det = .idle then [p.sym i] else []⟩) ∨
    (v = .unknown ∧ segWindow p v det sil = ⟨det, 0, [charUnknown]⟩) ∨
    (v = .none ∧ segWindow p v det sil =
      ⟨.idle, silNext p sil, if (silNext p sil).toNat = p.silThreshold then [charLF] else []⟩) := by
  have h0 : ¬ (0 : Byte).toNat = p.silThreshold := by simp; omega
  cases v with
  | none =>
    refine .inr (.inr ⟨rfl, ?_⟩)
    simp only [segWindow, segUpdate]
    split <;> simp [*]
  | unknown =>
    refine .inr (.inl ⟨rfl, ?_⟩)
    simp only [segWindow, segUpdate, h0, if_false]
  | digit i =>
    refine .inl ⟨i, rfl, ?_⟩
    cases det <;> simp only [segWindow, segUpdate, h0, if_false] <;> simp

/-- With the output register empty, SEG leaves its character pending and hands nothing over. -/
theorem segmentStep_output {p : Params} (hp : 1 ≤ p.silThreshold) {s : State} (h : s.pend = none) :
    (segmentStep p s).out = s.out ∧
    (segmentStep p s).pend.toList = (segWindow p (verdictOf s.rk s.rsym) s.det s.sil).emitted := by
  unfold segmentStep
  rcases segWindow_cases hp (verdictOf s.rk s.rsym) s.det s.sil with ⟨i, _, e⟩ | ⟨_, e⟩ | ⟨_, e⟩ <;> rw [e]
  · cases s.det <;> simp [emitAll, h]
  · simp [emitAll, h]
  · simp only; split <;> simp [emitAll, h]

/-! ### The sums of a lane -/

@[simp] theorem laneSums_zero (p : Params) (m : Memory) (b : Bin) : laneSums p m b 0 = (0, 0) := by
  simp [laneSums]

theorem laneSums_succ (p : Params) (m : Memory) (b : Bin) (n : Nat) :
    laneSums p m b (n + 1) = laneStep (windowValue m n) (p.tw b n) (laneSums p m b n) := by
  simp only [laneSums, List.range_succ, List.foldl_append, List.foldl_cons, List.foldl_nil]

/-- The sums depend on the elements they read. -/
theorem laneSums_congr (p : Params) {m m' : Memory} (b : Bin) {count : Nat}
    (h : ∀ n < count, m.read n = m'.read n) : laneSums p m b count = laneSums p m' b count := by
  induction count with
  | zero => simp
  | succ k ih =>
    rw [laneSums_succ, laneSums_succ, ih fun n hn => h n (by omega), windowValue, windowValue, h k (by omega)]

/-! ### What the analysis of a full window leaves in each field -/

/-- The magnitudes of the window analysed. -/
@[simp] theorem analyse_mag_get (p : Params) (s : State) (b : Bin) :
    (analyse p s).mag.get b = magnitude (Fp.fdiv (laneSums p s.win b p.n).1 (Fp.f64 p.n))
      (Fp.fdiv (laneSums p s.win b p.n).2 (Fp.f64 p.n)) := by
  simp [analyse, slideWindow, decideVerdict, peak]

/-- The state SEG sees inside an analysis. -/
def decided (p : Params) (s : State) : State := decideVerdict p (peak p (magx p (pdft p s)))

theorem analyse_eq (p : Params) (s : State) : analyse p s = slideWindow p (segmentStep p (decided p s)) := rfl

@[simp] theorem decided_det (p : Params) (s : State) : (decided p s).det = s.det := rfl
@[simp] theorem decided_sil (p : Params) (s : State) : (decided p s).sil = s.sil := rfl
@[simp] theorem decided_out (p : Params) (s : State) : (decided p s).out = s.out := rfl
@[simp] theorem decided_pend (p : Params) (s : State) : (decided p s).pend = s.pend := rfl
@[simp] theorem decided_OUT (p : Params) (s : State) : (decided p s).OUT = s.OUT := rfl

@[simp] theorem analyse_win (p : Params) (s : State) : (analyse p s).win = slideMemory p s.win := by
  simp [analyse, slideWindow, decideVerdict, peak, magx, pdft]
@[simp] theorem analyse_fill (p : Params) (s : State) : (analyse p s).fill = BitVec.ofNat 8 p.keep := rfl
@[simp] theorem analyse_mode (p : Params) (s : State) : (analyse p s).mode = s.mode := by
  simp [analyse, slideWindow, decideVerdict, peak, magx, pdft]
@[simp] theorem analyse_perr (p : Params) (s : State) : (analyse p s).perr = s.perr := by
  simp [analyse, slideWindow, decideVerdict, peak, magx, pdft]
@[simp] theorem analyse_stg (p : Params) (s : State) : (analyse p s).stg = s.stg := by
  simp [analyse, slideWindow, decideVerdict, peak, magx, pdft]
@[simp] theorem analyse_sample (p : Params) (s : State) : (analyse p s).sample = s.sample := by
  simp [analyse, slideWindow, decideVerdict, peak, magx, pdft]
@[simp] theorem analyse_cmdq (p : Params) (s : State) : (analyse p s).cmdq = s.cmdq := by
  simp [analyse, slideWindow, decideVerdict, peak, magx, pdft]
@[simp] theorem analyse_pins (p : Params) (s : State) : (analyse p s).pins = s.pins := by
  simp [analyse, slideWindow, decideVerdict, peak, magx, pdft]
@[simp] theorem analyse_det (p : Params) (s : State) :
    (analyse p s).det = (segWindow p (verdictOf (decided p s).rk (decided p s).rsym) s.det s.sil).det :=
  (segmentStep_spec p (decided p s)).1
@[simp] theorem analyse_sil (p : Params) (s : State) :
    (analyse p s).sil = (segWindow p (verdictOf (decided p s).rk (decided p s).rsym) s.det s.sil).sil :=
  (segmentStep_spec p (decided p s)).2.1
@[simp] theorem analyse_OUT (p : Params) (s : State) :
    (analyse p s).OUT =
      s.OUT ++ (segWindow p (verdictOf (decided p s).rk (decided p s).rsym) s.det s.sil).emitted :=
  (segmentStep_spec p (decided p s)).2.2

/-! ### The host's side: no instruction reads or writes what the host still has to offer -/

/-- The state with another host beside it. -/
def withHost (q : List CmdWord) (ps : List Pins) (s : State) : State := { s with cmdq := q, pins := ps }

theorem emitAll_withHost (cs : List Byte) (q : List CmdWord) (ps : List Pins) (s : State) :
    emitAll cs (withHost q ps s) = withHost q ps (emitAll cs s) := by
  induction cs generalizing s with
  | nil => rfl
  | cons c cs ih => exact ih (emit c s)

theorem segmentStep_withHost (p : Params) (q : List CmdWord) (ps : List Pins) (s : State) :
    segmentStep p (withHost q ps s) = withHost q ps (segmentStep p s) :=
  emitAll_withHost (segWindow p (verdictOf s.rk s.rsym) s.det s.sil).emitted q ps
    { s with
      det := (segWindow p (verdictOf s.rk s.rsym) s.det s.sil).det,
      sil := (segWindow p (verdictOf s.rk s.rsym) s.det s.sil).sil }

theorem analyse_withHost (p : Params) (q : List CmdWord) (ps : List Pins) (s : State) :
    analyse p (withHost q ps s) = withHost q ps (analyse p s) := by
  rw [analyse_eq, analyse_eq]
  exact congrArg (slideWindow p) (segmentStep_withHost p q ps (decided p s))

/-- Every instruction does the same whatever the host still has to offer, and leaves that as it is. -/
theorem exec_withHost (i : Instr) (q : List CmdWord) (ps : List Pins) (s : State) :
    exec i (withHost q ps s) = match exec i s with
      | .next t => .next (withHost q ps t)
      | .fault e => .fault e
      | .refused r => .refused r := by
  cases i with
  | push x =>
    simp only [exec]
    rcases execPush_cases x (withHost q ps s) with ⟨k1, f⟩ | ⟨k1, k2, f⟩ | ⟨k1, k2, f⟩ | ⟨k1, k2, f⟩ <;> rw [f] <;>
      simp only [withHost] at k1 <;> (try simp only [withHost] at k2) <;>
      rcases execPush_cases x s with ⟨h1, e⟩ | ⟨h1, h2, e⟩ | ⟨h1, h2, e⟩ | ⟨h1, h2, e⟩ <;>
      first
      | exact absurd (h1.symm.trans k1) (by decide)
      | omega
      | rw [e]
    · rfl
    · rfl
    · exact congrArg Host.Outcome.next (analyse_withHost ps1 q ps (storeNext x (latchSample x s)))
    · rfl
  | write =>
    simp only [exec]
    rcases execWrite_cases s with ⟨h, e⟩ | ⟨h, e⟩ <;> rw [e] <;>
      rcases execWrite_cases (withHost q ps s) with ⟨k, f⟩ | ⟨k, f⟩ <;> rw [f] <;> simp only [withHost] at k <;>
      first
      | omega
      | rfl
  | seg => exact congrArg Host.Outcome.next (segmentStep_withHost ps1 q ps s)
  | nop => rfl
  | eos => rfl
  | reset => rfl
  | pdft => rfl
  | magx => rfl
  | peak => rfl
  | decide => rfl
  | slide => rfl

end Sys2Proof.Machine
end

