-- ==== Sys2Proof/Laws/Twiddle.lean ====
section
/-! SUPPORT. TW_DEFAULT is a conforming twiddle table: it has the property TW_ACC (spec/42_spectral_analyzer.md R143). The
table is close to the powers of one root of unity: each entry follows from the one before it by a rotation, up to a
rounding error that is checked on integers, and the first entry is compared with the Taylor sum of the exponential. -/

namespace Sys2Proof.Machine.Twiddles

open Complex

-- One theorem at a time: see Tests/Slice0.lean.
set_option Elab.async false

/-- A cosine entry as a multiple of 2^-60. -/
def cz (p : ℕ) : ℤ := Fp.units (cosTable p) / 2 ^ 1014

/-- A sine entry as a multiple of 2^-60. -/
def sz (p : ℕ) : ℤ := Fp.units (sinTable p) / 2 ^ 1014

theorem units_cos : ∀ p < 228, Fp.units (cosTable p) = cz p * 2 ^ 1014 := by decide +kernel

theorem units_sin : ∀ p < 228, Fp.units (sinTable p) = sz p * 2 ^ 1014 := by decide +kernel

/-- Every entry is at most 1 in absolute value. -/
theorem entry_bounds : ∀ p < 228, |cz p| ≤ 2 ^ 60 ∧ |sz p| ≤ 2 ^ 60 := by decide +kernel

/-- The pattern of every entry is at most that of 1.0, so every entry is finite. -/
theorem entry_mag : ∀ p < 228, Fp.mag (cosTable p) ≤ Fp.mag Fp.one ∧ Fp.mag (sinTable p) ≤ Fp.mag Fp.one := by
  decide +kernel

/-- One rotation takes each entry to the next, up to the rounding of the entries. -/
theorem rotation : ∀ p < 227,
    |cz 1 * cz p - sz 1 * sz p - 2 ^ 60 * cz (p + 1)| ≤ 2 ^ 67 ∧
    |cz 1 * sz p + sz 1 * cz p - 2 ^ 60 * sz (p + 1)| ≤ 2 ^ 67 := by decide +kernel

theorem value_of_units {x : F64} {z : ℤ} (h : Fp.units x = z * 2 ^ 1014) : Fp.value x = z / 2 ^ 60 := by
  have : (2 : ℝ) ^ 1074 = 2 ^ 1014 * 2 ^ 60 := by rw [← pow_add]
  rw [Fp.value, h, this, Int.cast_mul, Int.cast_pow, Int.cast_ofNat, mul_comm, mul_div_mul_left _ _ (by positivity)]

/-- The entry as a complex number. -/
noncomputable def w (p : ℕ) : ℂ := ⟨cz p / 2 ^ 60, sz p / 2 ^ 60⟩

/-- The first root of unity of order 228. -/
noncomputable def root : ℂ := exp ((2 * Real.pi / 228 : ℝ) * I)

theorem norm_le_abs_add (z : ℂ) : ‖z‖ ≤ |z.re| + |z.im| := Complex.norm_le_abs_re_add_abs_im z

theorem norm_w_le {p : ℕ} (hp : p < 228) : ‖w p‖ ≤ 2 := by
  obtain ⟨hc, hs⟩ := entry_bounds p hp
  have hc' : |(cz p : ℝ)| ≤ 2 ^ 60 := by exact_mod_cast hc
  have hs' : |(sz p : ℝ)| ≤ 2 ^ 60 := by exact_mod_cast hs
  refine (norm_le_abs_add _).trans ?_
  have e1 : |(w p).re| ≤ 1 := by
    rw [w, abs_div, abs_of_pos (by positivity : (0 : ℝ) < 2 ^ 60)]
    exact (div_le_one (by positivity)).2 hc'
  have e2 : |(w p).im| ≤ 1 := by
    rw [w, abs_div, abs_of_pos (by positivity : (0 : ℝ) < 2 ^ 60)]
    exact (div_le_one (by positivity)).2 hs'
  linarith

theorem rotation_error {p : ℕ} (hp : p < 227) : ‖w (p + 1) - w 1 * w p‖ ≤ 1 / 2 ^ 52 := by
  obtain ⟨h1, h2⟩ := rotation p hp
  have h1' : |(cz 1 * cz p - sz 1 * sz p - 2 ^ 60 * cz (p + 1) : ℝ)| ≤ 2 ^ 67 := by exact_mod_cast h1
  have h2' : |(cz 1 * sz p + sz 1 * cz p - 2 ^ 60 * sz (p + 1) : ℝ)| ≤ 2 ^ 67 := by exact_mod_cast h2
  have e1 : (w (p + 1) - w 1 * w p).re = -(cz 1 * cz p - sz 1 * sz p - 2 ^ 60 * cz (p + 1) : ℝ) / 2 ^ 120 := by
    simp only [w, sub_re, mul_re]; ring
  have e2 : (w (p + 1) - w 1 * w p).im = -(cz 1 * sz p + sz 1 * cz p - 2 ^ 60 * sz (p + 1) : ℝ) / 2 ^ 120 := by
    simp only [w, sub_im, mul_im]; ring
  refine (norm_le_abs_add _).trans ?_
  rw [e1, e2, abs_div, abs_div, abs_neg, abs_neg, abs_of_pos (by positivity : (0 : ℝ) < 2 ^ 120), ← add_div,
    div_le_div_iff₀ (by positivity) (by positivity)]
  calc _ ≤ ((2 : ℝ) ^ 67 + 2 ^ 67) * 2 ^ 52 := by gcongr
    _ = 1 * 2 ^ 120 := by norm_num

/-- A rational close to `2*pi/228`. -/
noncomputable def angle : ℝ := 32534543531013042941 / 1180591620717411303424

theorem angle_error : |2 * Real.pi / 228 - angle| ≤ 1 / 2 ^ 60 := by
  have h1 := Real.pi_gt_d20
  have h2 := Real.pi_lt_d20
  rw [angle, abs_le]
  constructor <;> norm_num at h1 h2 ⊢ <;> linarith

theorem norm_root : ‖root‖ = 1 := norm_exp_ofReal_mul_I _

/-- The first entry is close to the root of unity. -/
theorem first_error : ‖w 1 - root‖ ≤ 1 / 2 ^ 52 := by
  have hangle : ‖(angle : ℂ) * I‖ ≤ 1 := by
    rw [norm_mul, norm_I, mul_one, norm_real, Real.norm_eq_abs, abs_le]
    rw [angle]; constructor <;> norm_num
  have htaylor := exp_bound hangle (n := 12) (by norm_num)
  have hclose : ‖root - exp (angle * I)‖ ≤ 1 / 2 ^ 60 := by
    have : root - exp (angle * I) = exp (angle * I) * (exp (I * ((2 * Real.pi / 228 - angle : ℝ) : ℂ)) - 1) := by
      rw [mul_sub, mul_one, ← exp_add, root]; congr 2; push_cast; ring
    rw [this, norm_mul, norm_exp_ofReal_mul_I, one_mul]
    exact Real.norm_exp_I_mul_ofReal_sub_one_le.trans (by simpa using angle_error)
  have hnorm : ‖(angle : ℂ) * I‖ = angle := by
    rw [norm_mul, norm_I, mul_one, norm_real, Real.norm_eq_abs, abs_of_nonneg]; rw [angle]; norm_num
  rw [hnorm] at htaylor
  set t : ℂ := ∑ m ∈ Finset.range 12, ((angle : ℂ) * I) ^ m / m.factorial with ht
  have hcz : cz 1 = 1152483748410765312 := by decide +kernel
  have hsz : sz 1 = 31767993861553520 := by decide +kernel
  have hI : ∀ m : ℕ, I ^ (m + 2) = -I ^ m := fun m => by rw [pow_add, I_sq]; ring
  have htre : t = ⟨1 - angle ^ 2 / 2 + angle ^ 4 / 24 - angle ^ 6 / 720 + angle ^ 8 / 40320 - angle ^ 10 / 3628800,
      angle - angle ^ 3 / 6 + angle ^ 5 / 120 - angle ^ 7 / 5040 + angle ^ 9 / 362880 - angle ^ 11 / 39916800⟩ := by
    rw [ht]
    simp only [Finset.sum_range_succ, Finset.sum_range_zero, mul_pow, hI, Nat.factorial]
    apply Complex.ext <;> simp [← ofReal_pow] <;> ring
  have hw : ‖w 1 - t‖ ≤ 1 / 2 ^ 53 := by
    refine (norm_le_abs_add _).trans ?_
    rw [htre]
    simp only [w, hcz, hsz, sub_re, sub_im, angle]
    norm_num
  have h3 : ‖exp (angle * I) - t‖ ≤ 1 / 2 ^ 60 := htaylor.trans (by rw [angle]; norm_num [Nat.factorial])
  calc ‖w 1 - root‖ = ‖(w 1 - t) - (exp (angle * I) - t) - (root - exp (angle * I))‖ := by ring_nf
    _ ≤ ‖w 1 - t‖ + ‖exp (angle * I) - t‖ + ‖root - exp (angle * I)‖ :=
        (norm_sub_le _ _).trans (add_le_add_left (norm_sub_le _ _) _)
    _ ≤ 1 / 2 ^ 53 + 1 / 2 ^ 60 + 1 / 2 ^ 60 := by gcongr
    _ ≤ 1 / 2 ^ 52 := by norm_num

/-- Entry `p` is close to the `p`-th power of the root, with an error that grows by a fixed amount with `p`. -/
theorem power_error : ∀ p < 228, ‖w p - root ^ p‖ ≤ p * (3 / 2 ^ 52) := by
  intro p
  induction p with
  | zero =>
    intro _
    have hc : cz 0 = 2 ^ 60 := by decide +kernel
    have hs : sz 0 = 0 := by decide +kernel
    have : w 0 = 1 := by apply Complex.ext <;> norm_num [w, hc, hs]
    simp [this]
  | succ p ih =>
    intro hp
    have e := ih (by omega)
    have : w (p + 1) - root ^ (p + 1) =
        (w (p + 1) - w 1 * w p) + (w 1 - root) * w p + root * (w p - root ^ p) := by rw [pow_succ]; ring
    rw [this]
    refine (norm_add₃_le ..).trans ?_
    rw [norm_mul, norm_mul, norm_root, one_mul]
    have h1 := rotation_error (p := p) (by omega)
    have h2 : ‖w 1 - root‖ * ‖w p‖ ≤ 1 / 2 ^ 52 * 2 :=
      mul_le_mul first_error (norm_w_le (by omega)) (norm_nonneg _) (by positivity)
    push_cast
    linarith

theorem root_pow (p : ℕ) : root ^ p = ⟨Real.cos (2 * Real.pi * p / 228), Real.sin (2 * Real.pi * p / 228)⟩ := by
  have : root ^ p = exp (((2 * Real.pi * p / 228 : ℝ) : ℂ) * I) := by
    rw [root, ← exp_nat_mul]; congr 1; push_cast; ring
  rw [this]
  apply Complex.ext
  · exact exp_ofReal_mul_I_re _
  · exact exp_ofReal_mul_I_im _

/-- The entries are as accurate as TW_ACC asks. -/
theorem entry_error {p : ℕ} (hp : p < 228) :
    |Fp.value (cosTable p) - Real.cos (2 * Real.pi * p / 228)| ≤ 1 / 2 ^ 40 ∧
    |Fp.value (sinTable p) - Real.sin (2 * Real.pi * p / 228)| ≤ 1 / 2 ^ 40 := by
  have h := power_error p hp
  rw [root_pow] at h
  have hb : (p : ℝ) * (3 / 2 ^ 52) ≤ 1 / 2 ^ 40 := by
    have : (p : ℝ) ≤ 228 := by exact_mod_cast hp.le
    calc (p : ℝ) * (3 / 2 ^ 52) ≤ 228 * (3 / 2 ^ 52) := by gcongr
      _ ≤ 1 / 2 ^ 40 := by norm_num
  rw [value_of_units (units_cos p hp), value_of_units (units_sin p hp)]
  refine ⟨?_, ?_⟩
  · exact (Complex.abs_re_le_norm _).trans (h.trans hb)
  · exact (Complex.abs_im_le_norm _).trans (h.trans hb)

/-- The phase of entry `(b, n)` differs from that of the table index by whole turns. -/
theorem phase_eq (b : Bin) (n : ℕ) :
    ∃ t : ℕ, phase ps1 b n = 2 * Real.pi * ((krom b * n % 228 : ℕ) : ℝ) / 228 + t * (2 * Real.pi) := by
  refine ⟨krom b * n / 228, ?_⟩
  have : (krom b * n : ℝ) = 228 * ((krom b * n / 228 : ℕ) : ℝ) + ((krom b * n % 228 : ℕ) : ℝ) := by
    exact_mod_cast (Nat.div_add_mod (krom b * n) 228).symm
  have hp : phase ps1 b n = 2 * Real.pi * (krom b * n) / 228 := by simp only [phase, ps1]; push_cast; ring
  rw [hp, this]; ring

/-- TW_DEFAULT has the property TW_ACC. -/
theorem twAcc_ps1 : TwAcc ps1 := by
  have hlt : ∀ (b : Bin) (n : ℕ), krom b * n % 228 < 228 := fun b n => Nat.mod_lt _ (by norm_num)
  refine ⟨fun b n _ => entry_mag _ (hlt b n), fun b n _ => ?_⟩
  obtain ⟨t, ht⟩ := phase_eq b n
  rw [ht, Real.cos_add_nat_mul_two_pi, Real.sin_add_nat_mul_two_pi]
  exact entry_error (hlt b n)

end Sys2Proof.Machine.Twiddles
end

