-- ==== Sys2Proof/Tests/Slice0.lean ====
section
/-! SUPPORT. Tests and witnesses. A test's expected result is from spec/95_test_vectors.md or from a worked example of a
rule, named in its comment. A witness shows that the hypotheses of a statement can be met together. -/

namespace Sys2Proof.Tests

open Sys2Proof Sys2Proof.Machine

-- One theorem at a time: in the package as one text the kernel evaluations below would otherwise wait for each other, each in
-- a thread of its own.
set_option Elab.async false

/-! ## Helpers -/

/-- A state `(FILL, S, SIL, MODE, PERR)`, as spec/95_test_vectors.md section 2.2 writes it, with window `m`. -/
def at_ (m : Memory) (fill : Byte) (det : DetState) (sil : Byte) (mode : Mode) (perr : Bool) : State :=
  { State.reset with win := m, fill := fill, det := det, sil := sil, mode := mode, perr := perr }

/-- `(FILL, S, SIL, MODE, PERR)` and `OUT` of a next state. -/
def shown (o : Host.Outcome State Fault Refusal) : Option ((ℕ × DetState × ℕ × Mode × Bool) × List Byte) :=
  match o with
  | .next t => some ((t.fill.toNat, t.det, t.sil.toNat, t.mode, t.perr), t.OUT)
  | .fault _ => none
  | .refused _ => none

/-- The element `i` of the window of a next state. -/
def winAt (o : Host.Outcome State Fault Refusal) (i : ℕ) : Option Byte :=
  match o with
  | .next t => some (t.win.read i)
  | .fault _ => none
  | .refused _ => none

/-- Eight magnitudes that are whole numbers. -/
def mags (l : List ℕ) : Lanes F64 := Lanes.ofFn fun b => Fp.f64 (l.getD b.toNat 0)

/-- A window of one byte, in canonical form. -/
def flat (c : Byte) : Memory := (List.range 228).map fun n => (n, c)

/-- The tone table T1 (spec/95_test_vectors.md section 2.8), first and second half. -/
def t1Table : List ℕ :=
  [208, 186, 134, 87, 71, 90, 120, 136, 130, 116, 117, 142, 176, 190, 168, 115, 65, 49, 77, 128, 169, 177, 157, 132, 124,
    137, 149, 140, 108, 71, 61, 92, 148, 195, 204, 172, 123, 89, 88, 109, 127, 125, 109, 99, 116, 156, 192, 197, 160, 102,
    59, 57, 92, 137, 163, 158, 138] ++
  [128, 138, 158, 163, 137, 92, 57, 59, 102, 160, 197, 192, 156, 116, 99, 109, 125, 127, 109, 88, 89, 123, 172, 204, 195,
    148, 92, 61, 71, 108, 140, 149, 137, 124, 132, 157, 177, 169, 128, 77, 49, 65, 115, 168, 190, 176, 142, 117, 116, 130,
    136, 120, 90, 71, 87, 134, 186]

/-- The window of T1 taken twice (spec/95_test_vectors.md V35). -/
def t1Window : Memory := (List.range 228).map fun n => (n, BitVec.ofNat 8 (t1Table.getD (n % 114) 0))

/-! ## WellFormed: one ill-formed term for each check, which the check refuses -/

theorem test_ps1_ok : ps1.ok = true := by decide +kernel
theorem test_config_window : { ps1 with n := 0 }.build = .error .windowEmpty := by rfl
theorem test_config_thresh : { ps1 with thresh := 0 }.errors = [.threshNotPositive] := by decide +kernel
theorem test_config_thresh_negative : { ps1 with thresh := 0xC014000000000000 }.ok = false := by decide +kernel
theorem test_config_rate : { ps1 with fs := 0 }.errors = [.rateZero] := by decide +kernel
theorem test_config_shift : { ps1 with shift := 229 }.errors = [.shiftOutOfRange] := by decide +kernel
theorem test_config_shift_zero : { ps1 with shift := 0 }.errors = [.shiftOutOfRange] := by decide +kernel
theorem test_config_silence : { ps1 with silThreshold := 255 }.errors = [.silThresholdOutOfRange] := by decide +kernel
theorem test_config_repeated : ConfigError.harmonicRepeated ∈ { ps1 with k := fun _ => 20 }.errors := by decide +kernel
theorem test_config_range :
    { ps1 with k := fun b => if b = 7 then 114 else krom b }.errors = [.harmonicOutOfRange] := by decide +kernel
theorem test_config_groups :
    { ps1 with k := fun b => krom (7 - b) }.errors = [.groupsOverlap] := by decide +kernel
theorem test_config_tie : { ps1 with tieOrder := [0, 1, 2, 3, 4, 5, 6, 6] }.errors = [.tieRuleNotAnOrder] := by
  decide +kernel
theorem test_line_bad_byte : (Line.push 256).wf = false ∧ (Line.pushN 3 256).wf = false ∧
    (Line.pushV [0, 256]).wf = false ∧ (Line.pushT [256] 0 1).wf = false := by decide
theorem test_line_empty_table : (Line.pushT [] 0 1).wf = false := by decide
theorem test_line_good : (Line.push 255).wf = true ∧ (Line.pushT [1, 2] 1 3).wf = true := by decide

/-! ## Decode: words written out from the spec's encoding (spec/30_encoding.md R71, R72 and R76; V1 to V9) -/

theorem test_decode_nop : decode (.cmd 0b00_00000000) = .ok .nop ∧ decode (.cmd 0b00_11111111) = .ok .nop := by decide
theorem test_decode_push : decode (.cmd 0b01_00000000) = .ok (.push 0) ∧ decode (.cmd 0b01_10000000) = .ok (.push 128) ∧
    decode (.cmd 0b01_11111111) = .ok (.push 255) := by decide
theorem test_decode_eos : decode (.cmd 0b10_00000000) = .ok .eos ∧ decode (.cmd 0b10_10100101) = .ok .eos := by decide
theorem test_decode_reset : decode (.cmd 0b11_00000000) = .ok .reset ∧ decode (.cmd 0b11_11111111) = .ok .reset := by
  decide
theorem test_decode_write : decode (.uop 0b001) = .ok .write := by decide
theorem test_decode_pdft : decode (.uop 0b010) = .ok .pdft := by decide
theorem test_decode_magx : decode (.uop 0b011) = .ok .magx := by decide
theorem test_decode_peak : decode (.uop 0b100) = .ok .peak := by decide
theorem test_decode_decide : decode (.uop 0b101) = .ok .decide := by decide
theorem test_decode_seg : decode (.uop 0b110) = .ok .seg := by decide
theorem test_decode_slide : decode (.uop 0b111) = .ok .slide := by decide
theorem test_decode_idle : decode (.uop 0b000) = .error .idleStage := by decide
theorem test_table_words : decodeTableWord 16 0x180 = some (.push 128) ∧ decodeTableWord 16 0x2A5 = some .eos ∧
    decodeTableWord 8 6 = some .seg ∧ decodeTableWord 8 0 = none := by decide
/-- The script notation of R91: the first words of P2 (spec/95_test_vectors.md Part 3). -/
theorem test_script : scriptWords [.reset, .pushT t1Table 0 3, .pushN 2 0x80, .pushV [1, 2], .eos] =
    [0x300, 0x1D0, 0x1BA, 0x186, 0x180, 0x180, 0x101, 0x102, 0x200] := by decide

/-! ## One step as the host places it -/

theorem test_step_push : shown (step (State.reset.withFetchWord 16 0x17F)) = some ((1, .idle, 0, .run, false), []) := by
  decide
theorem test_step_eos : shown (step (State.reset.withFetchWord 16 0x200)) = some ((0, .idle, 0, .done, false), []) := by
  decide
theorem test_step_write : winAt (step ({ State.reset with sample := 0x7F }.withFetchWord 8 1)) 0 = some 0x7F := by decide
theorem test_step_hard_reset : shown (step { at_ [] 9 .tone 5 .done true with
    pins := [⟨false, true, true⟩], cmdq := [0x101], pend := some 0x31 }) = some ((0, .idle, 0, .run, false), []) := by
  decide
theorem test_step_waits : shown (step { State.reset with cmdq := [0x101], pend := some 0x31, pins := [⟨true, true, false⟩] }) =
    some ((0, .idle, 0, .run, false), [0x31]) := by decide

/-! ## Commands: V10 to V19 -/

theorem test_push_v10 : shown (exec (.push 0x7F) (at_ [] 0 .idle 0 .run false)) = some ((1, .idle, 0, .run, false), []) ∧
    winAt (exec (.push 0x7F) (at_ [] 0 .idle 0 .run false)) 0 = some 0x7F := by decide
theorem test_push_v11 : shown (exec (.push 0x7F) (at_ [] 152 .tone 0 .run false)) = some ((153, .tone, 0, .run, false), []) ∧
    winAt (exec (.push 0x7F) (at_ [] 152 .tone 0 .run false)) 152 = some 0x7F := by decide
theorem test_nop_v15 : shown (exec .nop (at_ [] 100 .tone 5 .run false)) = some ((100, .tone, 5, .run, false), []) := by
  decide
theorem test_eos_v16 : shown (exec .eos (at_ [] 100 .tone 5 .run false)) = some ((0, .tone, 5, .done, false), []) := by
  decide
theorem test_push_v17 : shown (exec (.push 0x33) (at_ [] 0 .tone 5 .done false)) = some ((0, .tone, 5, .done, true), []) := by
  decide
theorem test_reset_v19 : shown (exec .reset (at_ [] 0 .tone 5 .done true)) = some ((0, .idle, 0, .run, false), []) := by
  decide

/-! ## Tables: V20 to V25 -/

theorem test_harmonics_v20 : [697, 770, 852, 941, 1209, 1336, 1477, 1633].map (frequencyToHarmonic ps1) =
    [20, 22, 24, 27, 34, 38, 42, 47] := by decide
theorem test_nominal_v21 : [697, 770, 852, 941, 1209, 1336, 1477, 1633].map (fun f => Fp.rne f 35) =
    [20, 22, 24, 27, 35, 38, 42, 47] := by decide
theorem test_pairs_v22 : digitForHarmonicPair ps1 20 34 = some 0x31 ∧ digitForHarmonicPair ps1 34 20 = some 0x31 := by
  decide
theorem test_pairs_v23 : ([20, 22, 24, 27].flatMap fun l => [34, 38, 42, 47].map fun h => digitForHarmonicPair ps1 h l) =
    [0x31, 0x32, 0x33, 0x41, 0x34, 0x35, 0x36, 0x42, 0x37, 0x38, 0x39, 0x43, 0x2A, 0x30, 0x23, 0x44].map some := by decide
theorem test_pairs_v24 : [(20, 22), (34, 38), (47, 42), (24, 27), (19, 34), (20, 35)].map
    (fun q : ℤ × ℤ => digitForHarmonicPair ps1 q.1 q.2) = List.replicate 6 none := by decide
/-- spec/44_segmentation_fsm.md R197: `floor(0.2 * 8000 / 76)`. -/
theorem test_sil_threshold : silThresholdOf ps1 = 21 ∧ ps1.silThreshold = 21 := by decide

/-! ## binary64: results any correct implementation gives -/

/-- 0.1 + 0.2, 0.1 * 0.1, 1 / 3, sqrt 2, and the largest finite number doubled. -/
theorem test_fp : Fp.fadd 0x3FB999999999999A 0x3FC999999999999A = 0x3FD3333333333334 ∧
    Fp.fmul 0x3FB999999999999A 0x3FB999999999999A = 0x3F847AE147AE147C ∧
    Fp.fdiv 0x3FF0000000000000 0x4008000000000000 = 0x3FD5555555555555 ∧
    Fp.fsqrt 0x4000000000000000 = 0x3FF6A09E667F3BCD ∧
    Fp.fadd Fp.maxFinite Fp.maxFinite = 0x7FF0000000000000 ∧ Fp.f64 228 = 0x406C800000000000 := by decide +kernel

/-! ## Spectral analyzer -/

/-- The first two sums of lane 4 over a window that starts 1, 2: `1*cos(0) + 2*cos(2*pi*34/228)`, with the table's entry. -/
theorem test_pdft_two_samples : laneSums ps1 [(0, 1), (1, 2)] 4 2 =
    (Fp.fadd 0x3FF0000000000000 (Fp.fmul 0x4000000000000000 (cosTable 34)), Fp.fmul 0x4000000000000000 (sinTable 34)) := by
  decide +kernel
/-- V32, bin 0: the ramp fixes the sign of the sine term and which sample is the oldest. -/
theorem test_ramp_v32 : hardwareMagnitude ps1 ((List.range 227).map fun n => (n + 1, BitVec.ofNat 8 (n + 1))) 0 =
    0x3FFD668C7C84685B := by decide +kernel
/-- The example of R150: 684 and 912 give 3, 4 and 5. -/
theorem test_magx_example : Fp.fdiv (Fp.f64 684) (Fp.f64 228) = Fp.f64 3 ∧ Fp.fdiv (Fp.f64 912) (Fp.f64 228) = Fp.f64 4 ∧
    magnitude (Fp.f64 3) (Fp.f64 4) = Fp.f64 5 := by decide +kernel
/-- V31, after MAGX: 1/228. -/
theorem test_magx_v31 : magnitude (Fp.fdiv (Fp.f64 1) (Fp.f64 228)) 0 = 0x3F71F7047DC11F70 := by decide +kernel

/-! ## Digit decoder: V40 to V48, V50 to V58 -/

theorem test_peak_ties : topTwo ps1 (mags []) = (0, 1) ∧ topTwo ps1 (mags [3, 9, 9, 1, 9, 0, 0, 0]) = (1, 2) ∧
    topTwo ps1 (mags [0, 0, 0, 0, 0, 0, 0, 7]) = (7, 0) ∧ topTwo ps1 (mags [9, 6, 0, 0, 6, 0, 0, 0]) = (0, 1) := by
  decide +kernel
theorem test_peak_order : topTwo ps1 (mags [1, 2, 3, 4, 5, 6, 7, 8]) = (7, 6) ∧
    topTwo ps1 (mags [8, 7, 6, 5, 4, 3, 2, 1]) = (0, 1) ∧ topTwo ps1 (mags [0, 0, 8, 0, 0, 8, 0, 0]) = (2, 5) := by
  decide +kernel
/-- V47 with a tie rule that prefers the higher bin. -/
theorem test_peak_other_tie_rule : topTwo { ps1 with tieOrder := bins.reverse } (mags [9, 6, 0, 0, 6, 0, 0, 0]) = (0, 4) := by
  decide +kernel
theorem test_decide_pairs : verdictFor ps1 7 3 (Fp.f64 30) (Fp.f64 6) = .digit 15 ∧
    verdictFor ps1 0 1 (Fp.f64 20) (Fp.f64 20) = .unknown ∧ verdictFor ps1 6 5 (Fp.f64 9) (Fp.f64 8) = .unknown := by
  decide +kernel
theorem test_decide_threshold : verdictFor ps1 0 4 (Fp.f64 20) (Fp.f64 5) = .none ∧
    verdictFor ps1 0 4 (Fp.f64 20) 0x4014000000000001 = .digit 0 ∧
    verdictFor ps1 0 1 (Fp.f64 20) (Fp.f64 4) = .none := by decide +kernel

/-! ## Segmentation: V60 to V74 and the single steps -/

theorem test_seg_v60_v63 : segRun ps1 [.digit 0, .digit 0, .digit 0, .none, .digit 0] .idle 0 = ⟨.tone, 0, [0x31, 0x31]⟩ ∧
    segRun ps1 [.digit 0, .unknown, .digit 0] .idle 0 = ⟨.tone, 0, [0x31, 0x3F]⟩ ∧
    segRun ps1 [.unknown, .digit 0] .idle 0 = ⟨.tone, 0, [0x3F, 0x31]⟩ ∧
    segRun ps1 [.digit 0, .digit 5] .idle 0 = ⟨.tone, 0, [0x31]⟩ := by decide
/-- The single steps below V74. -/
theorem test_seg_steps : segWindow ps1 .none .tone 20 = ⟨.idle, 21, [0x0A]⟩ ∧
    segWindow ps1 .none .idle 21 = ⟨.idle, 22, []⟩ ∧ segWindow ps1 .none .idle 255 = ⟨.idle, 255, []⟩ ∧
    segWindow ps1 (.digit 0) .idle 21 = ⟨.tone, 0, [0x31]⟩ ∧ segWindow ps1 .unknown .tone 7 = ⟨.tone, 0, [0x3F]⟩ := by
  decide

/-! ## Witnesses: the hypotheses of each statement can be met together -/

theorem witness_PseudoCommandsExpand : 255 < 256 ∧ (∀ b ∈ [0, 255], b < 256) ∧ (Line.pushT [255, 0] 1 3).wf = true ∧
    (2 : ℕ) < 3 := by decide

theorem witness_DecodeEncodeRoundTrip : decode (.uop 7) = .ok .slide ∧ decode (.cmd 0x1FF) = .ok (.push 255) ∧
    decode (.cmd 0x2A5) = .ok .eos := by decide

theorem witness_StageCodesDecode : ∃ s : State, s.stg = .idle := ⟨State.reset, rfl⟩

theorem witness_StepRunsAcceptedCommand : ∃ (s : State) (w : CmdWord) (rest : List CmdWord) (i : Instr),
    s.pinsNow.rstN = true ∧ s.pinsNow.inValid = true ∧ s.stg = .idle ∧ s.pend = none ∧ s.cmdq = w :: rest ∧
    decode (.cmd w) = .ok i :=
  ⟨{ State.reset with cmdq := [0x180, 0x200] }, 0x180, [0x200], .push 0x80, rfl, rfl, rfl, rfl, rfl, by decide⟩

theorem witness_StepRunsStage : ∃ (s t : State) (e : Fault) (u : State) (i : Instr),
    s.pinsNow.rstN = true ∧ decode (.uop s.stg.code) = .ok i ∧ exec i (portEdge s) = .next t ∧
    u.pinsNow.rstN = true ∧ decode (.uop u.stg.code) = .ok i ∧ exec i (portEdge u) = .fault e ∧
    s.stg = .write ∧ s.fill.toNat = 227 :=
  ⟨{ State.reset with stg := .write, fill := 227 }, _, .winIndex 228, { State.reset with stg := .write, fill := 228 },
    .write, rfl, rfl, rfl, rfl, rfl, rfl, rfl, rfl⟩

theorem witness_HardResetWins : ∃ s : State, s.pinsNow.rstN = false ∧ s.cmdq ≠ [] :=
  ⟨{ State.reset with pins := [⟨false, true, true⟩], cmdq := [0x180] }, rfl, by decide⟩

theorem witness_HostWaits : ∃ s t u : State,
    (s.pinsNow.rstN = true ∧ s.stg = .idle ∧ s.cmdq = [] ∧ s.pinsNow.outReady = true) ∧
    (t.pinsNow.rstN = true ∧ t.stg = .idle ∧ t.pinsNow.inValid = false ∧ t.pinsNow.outReady = false) ∧
    (u.pinsNow.rstN = true ∧ u.stg = .idle ∧ u.pend ≠ none) :=
  ⟨State.reset, { State.reset with pins := [⟨true, false, false⟩] }, { State.reset with pend := some 0x31 }, by decide⟩

theorem witness_PendingCharacterBlocks : ∃ (k : ℕ) (s : State) (c : Byte), s.stg = .idle ∧ s.pend = some c ∧
    k ≤ s.pins.length ∧ (∀ p ∈ s.pins.take k, p.rstN = true ∧ p.outReady = false) ∧ 0 < k :=
  ⟨2, { State.reset with pend := some 0x31, pins := [⟨true, true, false⟩, ⟨true, false, false⟩], cmdq := [0x101] }, 0x31,
    by decide⟩

theorem witness_PushInRun : ∃ s t : State, (s.mode = .run ∧ s.win.wf = true ∧ s.fill.toNat = 226) ∧
    (t.mode = .run ∧ t.win.wf = true ∧ t.fill.toNat = 227) :=
  ⟨at_ [(3, 9)] 226 .idle 3 .run false, at_ [(3, 9)] 227 .idle 3 .run false, by decide⟩

theorem witness_PushInDone : ∃ s : State, s.mode = .done := ⟨at_ [] 0 .tone 5 .done false, rfl⟩

theorem witness_ResetStartsAStream : ∃ s : State, s.pend = none ∧ s.pinsNow.rstN = false :=
  ⟨{ at_ [] 9 .tone 5 .done true with pins := [⟨false, true, true⟩] }, rfl, rfl⟩

theorem witness_WriteStoresSample : ∃ s t : State, (s.win.wf = true ∧ s.fill.toNat = 0) ∧
    (t.win.wf = true ∧ t.fill.toNat = 227) :=
  ⟨State.reset, at_ [(0, 1)] 227 .idle 0 .run false, by decide⟩

theorem witness_WriteOutsideWindowFaults : ∃ s t : State, (228 ≤ s.fill.toNat ∧ s.mode = .run ∧ s.fill = 228) ∧
    (228 ≤ t.fill.toNat ∧ t.fill = 255) :=
  ⟨at_ [] 228 .idle 0 .run false, at_ [] 255 .idle 0 .run false, by decide⟩

theorem witness_SlideShiftsWindow : ∃ s : State, s.win.wf = true ∧ s.win.read 76 = 9 :=
  ⟨at_ [(76, 9), (227, 7)] 228 .idle 0 .run false, by decide⟩

theorem witness_PdftSumsInOrder : ∃ s t : State, (∀ n < 228, s.win.read n = 0) ∧
    (t.win.read 0 = 1 ∧ ∀ n < 228, n ≠ 0 → t.win.read n = 0) :=
  ⟨State.reset, at_ [(0, 1)] 228 .idle 0 .run false, by decide +kernel, by decide +kernel, by decide +kernel⟩

theorem witness_MagxDividesThenRoots : ∃ s : State, s.re.get 0 = 0 ∧ s.im.get 0 = 0 ∧ s.re.get 7 = Fp.f64 684 ∧
    s.im.get 7 = Fp.f64 912 ∧ Fp.isNaN (s.re.get 7) = false ∧ Fp.isNaN (s.im.get 7) = false :=
  ⟨{ State.reset with re := mags [0, 0, 0, 0, 0, 0, 0, 684], im := mags [0, 0, 0, 0, 0, 0, 0, 912] }, by decide +kernel⟩

theorem witness_NothingOverflows : ∃ (p : Params) (m : Memory) (c : ℕ), p.n = 228 ∧ TwBounded p ∧
    ∀ n < 228, (m.read n).toNat ≤ c :=
  ⟨ps1, [], 0, rfl, Twiddles.twAcc_ps1.1, fun _ _ => Nat.le_refl 0⟩

theorem table_finite (b : Bin) (n : ℕ) (hn : n < 228) :
    Fp.isFinite (ps1.tw b n).c = true ∧ Fp.isFinite (ps1.tw b n).s = true := by
  obtain ⟨hc, hs⟩ := Twiddles.twAcc_ps1.1 b n hn
  have h1 : Fp.mag Fp.one < Fp.infMag := by decide
  exact ⟨decide_eq_true (hc.trans_lt h1), decide_eq_true (hs.trans_lt h1)⟩

theorem witness_ZeroWindowIsSilence : ∃ (p : Params) (m : Memory), 0 < p.n ∧ (∀ n < p.n, m.read n = 0) ∧
    (∀ b : Bin, ∀ n < p.n, Fp.isFinite (p.tw b n).c = true ∧ Fp.isFinite (p.tw b n).s = true) ∧
    Fp.fgt p.thresh 0 = true :=
  ⟨ps1, [], by decide, fun _ _ => rfl, table_finite, by decide +kernel⟩

theorem witness_ConstantWindowIsSilence : ∃ (p : Params) (m : Memory) (c : Byte), p = { ps1 with tw := p.tw } ∧ TwAcc p ∧
    (∀ n < 228, m.read n = c) ∧ c = 128 :=
  ⟨ps1, flat 128, 128, rfl, Twiddles.twAcc_ps1, by decide +kernel, rfl⟩

/-- On the fixed-point entries of the table the samples of T1 are the rounded tones, with room for the entries' error. -/
theorem t1_rounds : ∀ n < 228,
    |(((t1Window.read n).toNat : ℤ) - 128) * 2 ^ 60 - 40 * Twiddles.cz (krom 0 * n % 228) -
      40 * Twiddles.cz (krom 4 * n % 228)| ≤ 2 ^ 59 - 2 ^ 30 := by decide +kernel

theorem cos_entry (b : Bin) (n : ℕ) (hn : n < 228) :
    |(Twiddles.cz (krom b * n % 228) : ℝ) - 2 ^ 60 * Real.cos (phase ps1 b n)| ≤ 2 ^ 20 := by
  have h := (Twiddles.twAcc_ps1.2 b n hn).1
  have hv : Fp.value (ps1.tw b n).c = Twiddles.cz (krom b * n % 228) / 2 ^ 60 :=
    Twiddles.value_of_units (Twiddles.units_cos _ (Nat.mod_lt _ (by norm_num)))
  rw [hv] at h
  have e : (Twiddles.cz (krom b * n % 228) : ℝ) - 2 ^ 60 * Real.cos (phase ps1 b n) =
      2 ^ 60 * (Twiddles.cz (krom b * n % 228) / 2 ^ 60 - Real.cos (phase ps1 b n)) := by field_simp
  rw [e, abs_mul, abs_of_pos (by positivity : (0 : ℝ) < 2 ^ 60)]
  calc (2 : ℝ) ^ 60 * _ ≤ 2 ^ 60 * (1 / 2 ^ 40) := by gcongr
    _ = 2 ^ 20 := by norm_num

/-- From the fixed-point entries to the real cosines. -/
theorem near_tones (x : ℕ) (z z' : ℤ) (c c' : ℝ) (h : |(z : ℝ) - 2 ^ 60 * c| ≤ 2 ^ 20)
    (h' : |(z' : ℝ) - 2 ^ 60 * c'| ≤ 2 ^ 20) (hx : |((x : ℤ) - 128) * 2 ^ 60 - 40 * z - 40 * z'| ≤ 2 ^ 59 - 2 ^ 30) :
    |(x : ℝ) - (128 + 40 * c + 40 * c')| ≤ 1 / 2 := by
  have hx : |((x : ℝ) - 128) * 2 ^ 60 - 40 * z - 40 * z'| ≤ 2 ^ 59 - 2 ^ 30 := by exact_mod_cast hx
  rw [abs_le] at *
  constructor <;> nlinarith

theorem witness_TwoToneWindowDecodes : ∃ (p : Params) (m : Memory) (row col : ℕ) (c a1 a2 phi1 phi2 : ℝ),
    p = { ps1 with tw := p.tw } ∧ TwAcc p ∧ row < 4 ∧ col < 4 ∧ 12 ≤ a1 ∧ 12 ≤ a2 ∧
    ∀ n < 228, |windowReal m n - (c + a1 * Real.cos (phase p (BitVec.ofNat 3 row) n + phi1) +
        a2 * Real.cos (phase p (BitVec.ofNat 3 (col + 4)) n + phi2))| ≤ 1 / 2 := by
  refine ⟨ps1, t1Window, 0, 0, 128, 40, 40, 0, 0, rfl, Twiddles.twAcc_ps1, by norm_num, by norm_num, by norm_num,
    by norm_num, fun n hn => ?_⟩
  simp only [add_zero, windowReal]
  exact near_tones _ _ _ _ _ (cos_entry 0 n hn) (cos_entry 4 n hn) (t1_rounds n hn)

theorem sin_entry (b : Bin) (n : ℕ) (hn : n < 228) :
    |(Twiddles.sz (krom b * n % 228) : ℝ) - 2 ^ 60 * Real.sin (phase ps1 b n)| ≤ 2 ^ 20 := by
  have h := (Twiddles.twAcc_ps1.2 b n hn).2
  have hv : Fp.value (ps1.tw b n).s = Twiddles.sz (krom b * n % 228) / 2 ^ 60 :=
    Twiddles.value_of_units (Twiddles.units_sin _ (Nat.mod_lt _ (by norm_num)))
  rw [hv] at h
  have e : (Twiddles.sz (krom b * n % 228) : ℝ) - 2 ^ 60 * Real.sin (phase ps1 b n) =
      2 ^ 60 * (Twiddles.sz (krom b * n % 228) / 2 ^ 60 - Real.sin (phase ps1 b n)) := by field_simp
  rw [e, abs_mul, abs_of_pos (by positivity : (0 : ℝ) < 2 ^ 60)]
  calc (2 : ℝ) ^ 60 * _ ≤ 2 ^ 60 * (1 / 2 ^ 40) := by gcongr
    _ = 2 ^ 20 := by norm_num

/-- A sum of samples times entries against the sum of samples times real values. -/
theorem sum_entries (m : Memory) (z : ℕ → ℤ) (f : ℕ → ℝ) (h : ∀ n < 228, |(z n : ℝ) - 2 ^ 60 * f n| ≤ 2 ^ 20) :
    |((∑ n ∈ Finset.range 228, ((m.read n).toNat : ℤ) * z n : ℤ) : ℝ) -
      2 ^ 60 * ∑ n ∈ Finset.range 228, windowReal m n * f n| ≤ 2 ^ 36 := by
  have e : ((∑ n ∈ Finset.range 228, ((m.read n).toNat : ℤ) * z n : ℤ) : ℝ) -
      2 ^ 60 * ∑ n ∈ Finset.range 228, windowReal m n * f n =
      ∑ n ∈ Finset.range 228, windowReal m n * ((z n : ℝ) - 2 ^ 60 * f n) := by
    rw [Int.cast_sum, Finset.mul_sum, ← Finset.sum_sub_distrib]
    refine Finset.sum_congr rfl fun n _ => ?_
    simp only [windowReal]; push_cast; ring
  rw [e]
  calc |∑ n ∈ Finset.range 228, windowReal m n * ((z n : ℝ) - 2 ^ 60 * f n)|
      ≤ ∑ n ∈ Finset.range 228, |windowReal m n * ((z n : ℝ) - 2 ^ 60 * f n)| := Finset.abs_sum_le_sum_abs _ _
    _ ≤ ∑ _n ∈ Finset.range 228, (255 * 2 ^ 20 : ℝ) := by
        refine Finset.sum_le_sum fun n hn => ?_
        have hb : (0 : ℝ) ≤ windowReal m n ∧ windowReal m n ≤ 255 := by
          refine ⟨by simp [windowReal], ?_⟩
          have : (m.read n).toNat ≤ 255 := by have := (m.read n).isLt; omega
          simp only [windowReal]; exact_mod_cast this
        rw [abs_mul, abs_of_nonneg hb.1]
        exact mul_le_mul hb.2 (h n (Finset.mem_range.1 hn)) (abs_nonneg _) (by norm_num)
    _ ≤ 2 ^ 36 := by rw [Finset.sum_const, Finset.card_range]; norm_num

/-- The sums of T1 on the fixed-point entries: the cosine sum of bin 0 is over 4500, both sums of bin 3 are below 1. -/
theorem t1_sums :
    4500 * 2 ^ 60 ≤ ((List.range 228).map fun n => ((t1Window.read n).toNat : ℤ) * Twiddles.cz (krom 0 * n % 228)).sum ∧
    |((List.range 228).map fun n => ((t1Window.read n).toNat : ℤ) * Twiddles.cz (krom 3 * n % 228)).sum| ≤ 2 ^ 60 ∧
    |((List.range 228).map fun n => ((t1Window.read n).toNat : ℤ) * Twiddles.sz (krom 3 * n % 228)).sum| ≤ 2 ^ 60 := by
  decide +kernel

theorem sum_map_range (f : ℕ → ℤ) (k : ℕ) : ((List.range k).map f).sum = ∑ n ∈ Finset.range k, f n := by
  induction k with
  | zero => rfl
  | succ k ih => rw [List.range_succ, List.map_append, List.sum_append, ih, Finset.sum_range_succ]; simp

/-- From the fixed-point sums to the two bounds on the ideal magnitude. -/
theorem ideal_gt (a : ℤ) (x y : ℝ) (h : |(a : ℝ) - 2 ^ 60 * x| ≤ 2 ^ 36) (ha : 4500 * 2 ^ 60 ≤ a) :
    10 < Real.sqrt ((x / 228) ^ 2 + (y / 228) ^ 2) := by
  have ha : (4500 * 2 ^ 60 : ℝ) ≤ a := by exact_mod_cast ha
  rw [abs_le] at h
  have hx : 4000 ≤ x := by nlinarith
  have h10 : 10 < x / 228 := by rw [lt_div_iff₀ (by norm_num)]; linarith
  refine Real.lt_sqrt_of_sq_lt ?_
  nlinarith [sq_nonneg (y / 228)]

theorem ideal_lt (a b : ℤ) (x y : ℝ) (h : |(a : ℝ) - 2 ^ 60 * x| ≤ 2 ^ 36) (h' : |(b : ℝ) - 2 ^ 60 * y| ≤ 2 ^ 36)
    (ha : |a| ≤ 2 ^ 60) (hb : |b| ≤ 2 ^ 60) : Real.sqrt ((x / 228) ^ 2 + (y / 228) ^ 2) < 1 := by
  have ha : |(a : ℝ)| ≤ 2 ^ 60 := by exact_mod_cast ha
  have hb : |(b : ℝ)| ≤ 2 ^ 60 := by exact_mod_cast hb
  rw [abs_le] at *
  have hx : -2 ≤ x ∧ x ≤ 2 := ⟨by nlinarith, by nlinarith⟩
  have hy : -2 ≤ y ∧ y ≤ 2 := ⟨by nlinarith, by nlinarith⟩
  rw [Real.sqrt_lt' (by norm_num)]
  nlinarith

theorem sum_cos (b : Bin) : |((((List.range 228).map fun n => ((t1Window.read n).toNat : ℤ) *
      Twiddles.cz (krom b * n % 228)).sum : ℤ) : ℝ) -
    2 ^ 60 * ∑ n ∈ Finset.range ps1.n, windowReal t1Window n * Real.cos (phase ps1 b n)| ≤ 2 ^ 36 :=
  sum_map_range _ 228 ▸ sum_entries t1Window _ _ fun n hn => cos_entry b n hn

theorem sum_sin (b : Bin) : |((((List.range 228).map fun n => ((t1Window.read n).toNat : ℤ) *
      Twiddles.sz (krom b * n % 228)).sum : ℤ) : ℝ) -
    2 ^ 60 * ∑ n ∈ Finset.range ps1.n, windowReal t1Window n * Real.sin (phase ps1 b n)| ≤ 2 ^ 36 :=
  sum_map_range _ 228 ▸ sum_entries t1Window _ _ fun n hn => sin_entry b n hn

theorem n_ps1_real : (ps1.n : ℝ) = 228 := congrArg Nat.cast (show ps1.n = 228 from rfl)

theorem t1_ideal : 10 < idealMagnitude ps1 0 (windowReal t1Window) ∧ idealMagnitude ps1 3 (windowReal t1Window) < 1 := by
  unfold idealMagnitude
  rw [n_ps1_real]
  exact ⟨ideal_gt _ _ _ (sum_cos 0) t1_sums.1, ideal_lt _ _ _ _ (sum_cos 3) (sum_sin 3) t1_sums.2.1 t1_sums.2.2⟩

/-- A window for each clause: bin 0 of T1 is above the threshold and above bin 3, and bin 3 is below the threshold. -/
theorem witness_MagnitudeAccuracy : ∃ (p : Params) (m : Memory) (b b' : Bin), p.n = 228 ∧ TwAcc p ∧
    5 + 1 / 2 ^ 29 < idealMagnitude p b (windowReal m) ∧ idealMagnitude p b' (windowReal m) ≤ 5 - 1 / 2 ^ 29 ∧
    idealMagnitude p b' (windowReal m) + 1 / 2 ^ 28 < idealMagnitude p b (windowReal m) := by
  obtain ⟨h1, h2⟩ := t1_ideal
  exact ⟨ps1, t1Window, 0, 3, rfl, Twiddles.twAcc_ps1, by norm_num; linarith, by norm_num; linarith, by norm_num; linarith⟩

theorem value_one : Fp.value Fp.one = 1 := by
  have h : Fp.units Fp.one = 2 ^ 1074 := by decide +kernel
  unfold Fp.value
  rw [h, Int.cast_pow, Int.cast_ofNat]
  exact div_self (by positivity)

theorem two_le_max : (2 : ℝ) ≤ Fp.value Fp.maxFinite := by
  have h : 2 * 2 ^ 1074 ≤ Fp.units Fp.maxFinite := by decide +kernel
  unfold Fp.value
  rw [le_div_iff₀ (by positivity)]
  have h' : ((2 * 2 ^ 1074 : ℤ) : ℝ) ≤ (Fp.units Fp.maxFinite : ℝ) := Int.cast_le.2 h
  rwa [Int.cast_mul, Int.cast_pow, Int.cast_ofNat] at h'

theorem witness_FaddCorrectlyRounded : ∃ x y : F64, Fp.isFinite x = true ∧ Fp.isFinite y = true ∧
    |Fp.value x + Fp.value y| ≤ Fp.value Fp.maxFinite :=
  ⟨Fp.one, Fp.one, by decide +kernel, by decide +kernel, by rw [value_one]; norm_num; exact two_le_max⟩

theorem witness_FmulCorrectlyRounded : ∃ x y : F64, Fp.isFinite x = true ∧ Fp.isFinite y = true ∧
    |Fp.value x * Fp.value y| ≤ Fp.value Fp.maxFinite :=
  ⟨Fp.one, Fp.one, by decide +kernel, by decide +kernel, by rw [value_one]; norm_num; linarith [two_le_max]⟩

theorem witness_FdivCorrectlyRounded : ∃ x y : F64, Fp.isFinite x = true ∧ Fp.isFinite y = true ∧ Fp.isZero y = false ∧
    |Fp.value x / Fp.value y| ≤ Fp.value Fp.maxFinite :=
  ⟨Fp.one, Fp.one, by decide +kernel, by decide +kernel, by decide +kernel, by
    rw [value_one]; norm_num; linarith [two_le_max]⟩

theorem witness_FsqrtCorrectlyRounded : ∃ x : F64, Fp.isFinite x = true ∧ 0 ≤ Fp.value x ∧ x = Fp.one :=
  ⟨Fp.one, by decide +kernel, by rw [value_one]; norm_num, rfl⟩

theorem witness_ConversionAndComparisonsExact : 2 ^ 53 ≤ 2 ^ 53 ∧ Fp.isFinite Fp.maxFinite = true ∧
    Fp.isFinite 0x8000000000000000 = true := by decide +kernel

theorem witness_PeakPicksTwoStrongest : ∃ s : State, (∀ b, Fp.isNaN (s.mag.get b) = false) ∧
    topTwo ps1 s.mag = (4, 1) :=
  ⟨{ State.reset with mag := mags [0, 6, 6, 0, 9, 0, 0, 0] }, by decide +kernel, by decide +kernel⟩

theorem witness_DecideByHarmonics : ∃ s t : State,
    (Fp.fgt (s.mag.get s.top1) (Fp.f64 5) = true ∧ Fp.fgt (s.mag.get s.top2) (Fp.f64 5) = true ∧
      digitForHarmonicPair ps1 (krom s.top1) (krom s.top2) = some 0x44) ∧
    (Fp.fgt (t.mag.get t.top1) (Fp.f64 5) = true ∧ Fp.fgt (t.mag.get t.top2) (Fp.f64 5) = true ∧
      digitForHarmonicPair ps1 (krom t.top1) (krom t.top2) = none) :=
  ⟨{ State.reset with mag := mags [6, 6, 6, 6, 6, 6, 6, 6], top1 := 7, top2 := 3 },
    { State.reset with mag := mags [6, 6, 6, 6, 6, 6, 6, 6], top1 := 0, top2 := 1 }, by decide +kernel⟩

/-- DECIDE at its three outcomes, the threshold at exactly 5.0 among them. -/
theorem witness_VerdictWordFormat : ∃ s t u : State, (decideVerdict ps1 s).rk = .none ∧ (decideVerdict ps1 t).rk = .unknown ∧
    (decideVerdict ps1 u).rk = .digit :=
  ⟨{ State.reset with mag := mags [9, 0, 0, 0, 5, 0, 0, 0], top1 := 0, top2 := 4 },
    { State.reset with mag := mags [9, 6, 0, 0, 5, 0, 0, 0], top1 := 0, top2 := 1 },
    { State.reset with mag := mags [9, 0, 0, 0, 6, 0, 0, 0], top1 := 0, top2 := 4 }, by decide +kernel⟩

theorem witness_TieRuleMatters : ∃ (p q : Params) (mag mag' : Lanes F64), q = { p with tieOrder := q.tieOrder } ∧ p.ok = true ∧
    q.ok = true ∧ (∀ b, Fp.isNaN (mag.get b) = false) ∧ (∀ b, Fp.isNaN (mag'.get b) = false) ∧
    (∀ c : Bin, c ≠ 0 → c ≠ 4 → Fp.fgt (mag.get 0) (mag.get c) = true ∧ Fp.fgt (mag.get 4) (mag.get c) = true) ∧
    (∀ b : Bin, b ≠ 3 → Fp.fle (mag'.get b) p.thresh = true) :=
  ⟨ps1, { ps1 with tieOrder := bins.reverse }, mags [8, 1, 1, 0, 8, 0, 0, 1], mags [5, 0, 0, 90, 5, 0, 0, 1], rfl,
    by decide +kernel, by decide +kernel, by decide +kernel, by decide +kernel, by decide +kernel, by decide +kernel⟩

theorem witness_HarmonicTableRounded : ∃ a b : Bin, a < b := ⟨3, 4, by decide⟩

theorem witness_SymbolTable : ∃ row col : ℕ, row < 4 ∧ col < 4 ∧ row = 3 ∧ col = 3 := ⟨3, 3, by decide⟩

theorem witness_PairLookup : ∃ h1 : ℤ, ∀ b : Bin, h1 ≠ krom b := ⟨35, by decide⟩

theorem witness_ConfigChecks : ∃ p q : Params, p.ok = true ∧ q.ok = false :=
  ⟨ps1, { ps1 with fs := 0 }, by decide +kernel, by decide +kernel⟩

theorem witness_SegTransitionTable : ∃ s : State, s.pend = none ∧ s.rk = .none ∧ s.sil = 20 :=
  ⟨{ State.reset with sil := 20 }, rfl, rfl, rfl⟩

theorem witness_OneCharacterPerWindow : ∃ (p : Params) (s t : State) (x : Byte), p.ok = true ∧
    exec (.push x) s = .next t ∧ s.pend = none :=
  ⟨ps1, State.reset, _, 0x80, by decide +kernel, rfl, rfl⟩

theorem witness_SaturatingCounterIndistinguishable : ∃ (p : Params) (sil : Byte), p.ok = true ∧ p.silMax ≤ 255 ∧
    sil.toNat ≤ p.silMax ∧ sil = 255 :=
  ⟨ps1, 255, by decide +kernel, by decide, by decide, rfl⟩

theorem witness_NoTwoBoundariesInARow : ∃ (vs : List Verdict) (a b : Byte),
    (segRun ps1 vs .idle 20).emitted = [] ++ a :: b :: [] ∧ a = 0x0A :=
  ⟨[.none, .none, .digit 0], 0x0A, 0x31, by decide⟩

/-- A state of a run: 227 samples held, a command and a character waiting. -/
def busy : State := { at_ [(3, 9)] 227 .idle 3 .run false with cmdq := [0x180, 0x200], pend := some 0x3F }

theorem busy_inv : Inv busy :=
  ⟨by decide, by decide, by show 227 < 228; decide, by decide, by decide, by decide, by decide, by decide, by decide⟩

theorem witness_ResetValues : ∃ s t u v : State, exec .reset s = .next t ∧ s.mode = .done ∧ u.pinsNow.rstN = false ∧
    step u = .next v ∧ u.stg = .seg :=
  ⟨at_ [] 0 .tone 5 .done true, _, { busy with stg := .seg, pins := [⟨false, true, true⟩] }, _, rfl, rfl, rfl, rfl, rfl⟩

theorem witness_StepKeepsInvariant : ∃ s t : State, Inv s ∧ step s = .next t := ⟨busy, _, busy_inv, rfl⟩

theorem witness_NothingStopsTheBlock : ∃ s : State, Inv s ∧ s.stg = .idle := ⟨busy, busy_inv, rfl⟩

theorem witness_OnlyResetLeavesDone : ∃ (i : Instr) (s t u v : State),
    (exec i s = .next t ∧ i ≠ .reset ∧ s.mode = .done ∧ s.perr = true) ∧
    (step u = .next v ∧ u.mode = .done ∧ v.mode = .run ∧ u.perr = true ∧ v.perr = false) :=
  ⟨.eos, at_ [] 0 .idle 0 .done true, _, { at_ [] 0 .idle 0 .done true with cmdq := [0x300] }, _,
    ⟨rfl, by decide, rfl, rfl⟩, rfl, rfl, rfl, rfl, rfl⟩

theorem witness_OnlyTheNamedWritersWrite : ∃ (i : Instr) (s t : State), exec i s = .next t ∧ runsAnalysis i s = false ∧
    (∀ x, i ≠ .push x) ∧ i ≠ .write ∧ i ≠ .slide ∧ i ≠ .eos ∧ i ≠ .reset ∧ i ≠ .pdft ∧ i ≠ .magx ∧ i ≠ .peak ∧
    i ≠ .decide ∧ i ≠ .seg :=
  ⟨.nop, State.reset, _, rfl, rfl, by simp⟩

theorem witness_OutputOnlyGrows : ∃ s t : State, step s = .next t ∧ s.pinsNow.rstN = true ∧ s.pend = some 0x3F :=
  ⟨busy, _, rfl, rfl, rfl⟩

theorem witness_OnlyTheAlphabetIsEmitted : ∃ s t : State, step s = .next t ∧ (∀ c, s.pend = some c → c ∈ alphabet) ∧
    t.pend = some 0x3F :=
  ⟨{ busy with pins := [⟨true, true, false⟩] }, _, rfl, by
    intro c hc; cases hc; decide, rfl⟩

theorem witness_TransientsNeverMatter : ∃ (ws : List CmdWord) (s t s' : State), SameForHost s t ∧ s.win.wf = true ∧
    t.win.wf = true ∧ execAll (ws.map decodeCmd) s = .next s' ∧ s ≠ t :=
  ⟨[0x180, 0x200], State.reset,
    { State.reset with mag := mags [9], top1 := 3, rk := .digit, rsym := 7, win := [(5, 9)], sample := 1 }, _,
    ⟨rfl, fun i hi => absurd hi (by simp [State.reset]), rfl, rfl, rfl, rfl, rfl, rfl, rfl, rfl, rfl⟩,
    rfl, by decide, rfl, by decide⟩

theorem witness_WindowsOfStream : ∃ (is : List Instr) (s : State), s.mode = .run ∧ s.fill = 0 ∧ s.win.wf = true ∧
    (∀ i ∈ is, Feeds i) ∧ (samplesOf is).length = 76 * 1 + 227 :=
  ⟨.nop :: List.replicate 303 (.push 0x80), State.reset, rfl, rfl, rfl, by
    intro i hi
    rcases List.mem_cons.1 hi with rfl | hi
    · exact .inl rfl
    · exact .inr ⟨0x80, List.eq_of_mem_replicate hi⟩, by decide +kernel⟩

theorem witness_StreamOutputIsTheSegmentedVerdicts : ∃ (is : List Instr) (s : State), s.mode = .run ∧ s.fill = 0 ∧
    s.win.wf = true ∧ (∀ i ∈ is, Feeds i) ∧ windowCount (samplesOf is).length = 1 :=
  ⟨List.replicate 228 (.push 0x80), at_ [(9, 9)] 0 .tone 0 .run false, rfl, rfl, by decide, fun i hi =>
    .inr ⟨0x80, List.eq_of_mem_replicate hi⟩, by decide +kernel⟩

theorem witness_OutputDependsOnlyOnCommands : ∃ (k : ℕ) (s t : State), s.stg = .idle ∧ (∀ p ∈ s.pins, p.rstN = true) ∧
    edges k s = .next t ∧ t.cmdq = [] :=
  ⟨4, { State.reset with cmdq := [0x101, 0x200], pins := [⟨true, false, true⟩, ⟨true, true, false⟩] }, _, rfl, by decide,
    rfl, rfl⟩

theorem witness_ReadyHostIsServed : ∃ s : State, Inv s ∧ s.stg = .idle ∧ s.pins = [] ∧ s.cmdq.length = 2 :=
  ⟨busy, busy_inv, rfl, rfl, rfl⟩

theorem witness_MultiCycleEqualsAtomic : ∃ s t : State,
    (s.stg = .write ∧ s.mode = .run ∧ s.pend = none ∧ s.win.wf = true ∧ (∀ p ∈ s.pins, p.rstN = true) ∧ s.fill.toNat = 226) ∧
    (t.stg = .write ∧ t.mode = .run ∧ t.pend = none ∧ t.win.wf = true ∧ (∀ p ∈ t.pins, p.rstN = true) ∧
      t.fill.toNat = 227) :=
  ⟨{ State.reset with stg := .write, fill := 226, sample := 9 }, { State.reset with stg := .write, fill := 227, sample := 9 },
    by decide⟩

end Sys2Proof.Tests
end

section
/-! SUPPORT. The binary64 operations against real arithmetic: each is one rounding of an exact result
(spec/00_scope.md R13). -/

namespace Sys2Proof.Fp

/-! ### Real values of patterns -/

/-- The sign of a pattern as a factor. -/
def sign (s : Bool) : ℝ := if s then -1 else 1

theorem abs_sign (s : Bool) : |sign s| = 1 := by cases s <;> simp [sign]

theorem sign_bne (s t : Bool) : sign (s != t) = sign s * sign t := by cases s <;> cases t <;> simp [sign]

theorem sign_not (s : Bool) : sign (!s) = -sign s := by cases s <;> simp [sign]

theorem sign_mul_self (s : Bool) : sign s * sign s = 1 := by cases s <;> simp [sign]

/-- A finite number by its sign, significand and exponent. -/
theorem value_eq_man_exp (x : F64) : value x = sign (neg x) * (man x * 2 ^ exp x) / 2 ^ 1074 := by
  rw [value_eq, show unitsOf (mag x) = man x * 2 ^ exp x from rfl]
  push_cast; rfl

/-- The magnitudes of the format grow with their bits. -/
theorem unitsOf_strictMono : StrictMono unitsOf := by
  refine strictMono_nat_of_lt_succ fun m => ?_
  -- `m` and `m + 1` have significands `R` and `R + 1` at the same exponent
  obtain ⟨q, R, rfl, hfull, htop⟩ : ∃ q R, m = q * 2 ^ 52 + R ∧ (0 < q → 2 ^ 52 ≤ R) ∧ R < 2 ^ 53 :=
    ⟨m / 2 ^ 52 - 1, m - (m / 2 ^ 52 - 1) * 2 ^ 52, by omega, by omega, by omega⟩
  rw [Nat.add_assoc, unitsOf_pack hfull htop.le, unitsOf_pack (fun h => (hfull h).trans (Nat.le_succ R)) htop]
  exact Nat.mul_lt_mul_of_pos_right (Nat.lt_succ_self R) (by positivity)

@[simp] theorem unitsOf_zero : unitsOf 0 = 0 := by simp [unitsOf]

theorem mag_lt_infMag {x : F64} (h : isFinite x = true) : mag x < infMag := of_decide_eq_true h

theorem isInf_of_isFinite {x : F64} (h : isFinite x = true) : isInf x = false :=
  decide_eq_false (mag_lt_infMag h).ne

/-- A zero has the value 0, whatever its sign. -/
theorem value_of_isZero {x : F64} (h : isZero x = true) : value x = 0 := by
  rw [value_eq, show mag x = 0 from of_decide_eq_true h, unitsOf_zero]; simp

/-- A number that is no zero has a significand. -/
theorem man_pos {x : F64} (h : isZero x = false) : 0 < man x := by
  have h0 : mag x ≠ 0 := of_decide_eq_false h
  unfold man
  split <;> omega

theorem man_lt (x : F64) : man x < 2 ^ 53 := by
  unfold man
  split <;> omega

/-- The largest finite number. -/
theorem value_maxFinite : value maxFinite = unitsOf (infMag - 1) / 2 ^ 1074 := by
  rw [value_eq, show neg maxFinite = false by decide, show mag maxFinite = infMag - 1 by decide, if_neg Bool.false_ne_true,
    one_mul]

/-- No finite number is larger than the largest. -/
theorem abs_value_le_maxFinite {x : F64} (h : isFinite x = true) : |value x| ≤ value maxFinite := by
  have hle : (unitsOf (mag x) : ℝ) ≤ unitsOf (infMag - 1) :=
    Nat.cast_le.2 (unitsOf_strictMono.monotone (by have := mag_lt_infMag h; omega))
  have hsign : |(if neg x then -1 else 1 : ℝ)| = 1 := abs_sign (neg x)
  rw [value_eq, value_maxFinite, abs_div, abs_mul, hsign, one_mul, Nat.abs_cast, abs_of_pos (by positivity)]
  gcongr

/-! ### One rounding -/

/-- A finite number is the nearest to its own value. -/
theorem isNearestEven_value {z : F64} (h : isFinite z = true) : IsNearestEven (value z) z := by
  refine ⟨h, fun w _ => ⟨by simp, fun hne he => absurd ?_ hne⟩⟩
  rw [sub_self, abs_zero] at he
  exact sub_eq_zero.1 (abs_eq_zero.1 he.symm)

/-- A rounded magnitude with a sign is the binary64 nearest to a real number within the range. -/
theorem Rounds.isNearestEven_of_le_maxFinite {a r : ℝ} {q R : ℕ} {s : Bool} (h : Rounds a q R) (ha : 0 ≤ a)
    (hr : r = sign s * a / 2 ^ 1074) (hmax : |r| ≤ value maxFinite) :
    IsNearestEven r (pack s (min infMag (q * 2 ^ 52 + R))) := by
  have hle : a ≤ unitsOf (infMag - 1) := by
    rw [hr, value_maxFinite, abs_div, abs_mul, abs_sign, one_mul, abs_of_nonneg ha, abs_of_pos (by positivity)] at hmax
    exact (div_le_div_iff_of_pos_right (by positivity)).1 hmax
  have hlt := h.lt_infMag hle
  rw [Nat.min_eq_right hlt.le, hr]
  exact h.isNearestEven ha s hlt

/-- `roundMag` of an exact magnitude, with a sign, is correctly rounded. -/
theorem pack_roundMag_isNearestEven {n up down : ℕ} {r : ℝ} {s : Bool} (hn : 0 < n)
    (hr : r = sign s * (n * 2 ^ up / 2 ^ down) / 2 ^ 1074) (hmax : |r| ≤ value maxFinite) :
    IsNearestEven r (pack s (roundMag n up down)) := by
  obtain ⟨q, R, e, hR⟩ := roundMag_exact (n := n) (up := up) (down := down) hn
  rw [e]
  exact hR.isNearestEven_of_le_maxFinite (by positivity) hr hmax

/-- `roundMag` of a magnitude with a sticky bit is correctly rounded, if it has two bits to spare. -/
theorem pack_roundMag_sticky_isNearestEven {n up down : ℕ} {x r : ℝ} {s : Bool} (hbits : 2 ^ 54 ≤ n) (hx : Sticky n x)
    (hr : r = sign s * (x * 2 ^ up / 2 ^ down) / 2 ^ 1074) (hmax : |r| ≤ value maxFinite) :
    IsNearestEven r (pack s (roundMag n up down)) := by
  have hn : n ≠ 0 := by omega
  have hlog : 54 ≤ Nat.log2 n := (Nat.le_log2 hn).2 hbits
  obtain ⟨q, R, e, hR⟩ := roundMag_sticky (up := up) (down := down) (Nat.pos_of_ne_zero hn) hx
    (by unfold lastPlace; omega)
  have hx0 : 0 ≤ x := by simpa using (hx 0).1.2 (by omega)
  rw [e]
  exact hR.isNearestEven_of_le_maxFinite (by positivity) hr hmax

/-- The doubled integer part of a number, with a last bit that says whether the number is more than that, stands for the
doubled number. -/
theorem sticky_of_floor {x : ℝ} {f : ℕ} {exact : Prop} [Decidable exact] (hx : 0 ≤ x) (hf : ⌊x⌋₊ = f)
    (hexact : exact ↔ x = f) : Sticky (2 * f + if exact then 0 else 1) (2 * x) := by
  intro j
  have hge : (j : ℝ) ≤ x ↔ j ≤ f := by rw [← hf, Nat.le_floor_iff hx]
  rw [mul_le_mul_iff_right₀ two_pos, mul_le_mul_iff_right₀ two_pos, hge]
  by_cases h : exact
  · rw [if_pos h, hexact.1 h, Nat.cast_le]
    omega
  · have hne : x ≠ j := fun e => h (hexact.2 (by rw [← hf, e, Nat.floor_natCast]))
    have hle : x ≤ j ↔ f < j := by rw [hne.le_iff_lt, ← not_le, hge, Nat.not_le]
    rw [if_neg h, hle]
    omega

/-! ### The sum -/

/-- A number at an exponent below its own. -/
theorem value_eq_at {x : F64} {e : ℕ} (h : e ≤ exp x) :
    value x = sign (neg x) * (man x * 2 ^ (exp x - e) : ℕ) * 2 ^ e / 2 ^ 1074 := by
  have hpow : (man x : ℝ) * 2 ^ exp x = (man x * 2 ^ (exp x - e) : ℕ) * 2 ^ e := by
    push_cast
    rw [mul_assoc, ← pow_add, Nat.sub_add_cancel h]
  rw [value_eq_man_exp, hpow, mul_assoc]

/-- The sum of two finite nonzero numbers is correctly rounded: at the smaller exponent the significands add or subtract
exactly. -/
theorem addFinite_isNearestEven {x y : F64} (hx : isZero x = false)
    (hmax : |value x + value y| ≤ value maxFinite) : IsNearestEven (value x + value y) (addFinite x y) := by
  have hsum := congrArg₂ (· + ·) (value_eq_at (Nat.min_le_left (exp x) (exp y)))
    (value_eq_at (Nat.min_le_right (exp x) (exp y)))
  have ha : 0 < man x * 2 ^ (exp x - min (exp x) (exp y)) := Nat.mul_pos (man_pos hx) (by positivity)
  unfold addFinite
  simp only [← add_div, ← add_mul] at hsum ⊢
  generalize min (exp x) (exp y) = e at *
  generalize man x * 2 ^ (exp x - e) = a at *
  generalize man y * 2 ^ (exp y - e) = b at *
  by_cases hs : neg x = neg y
  · rw [if_pos hs]
    refine pack_roundMag_isNearestEven (by omega) ?_ hmax
    rw [hsum, hs, Nat.cast_add, pow_zero, div_one, ← mul_assoc, mul_add]
  · have hopp : sign (neg x) = -sign (neg y) := by
      rw [Bool.eq_not_of_ne hs]; exact sign_not _
    rw [if_neg hs]
    rcases Nat.lt_trichotomy b a with h | h | h
    · rw [if_pos h]
      refine pack_roundMag_isNearestEven (by omega) ?_ hmax
      rw [hsum, ← neg_neg (sign (neg y)), ← hopp, Nat.cast_sub h.le, pow_zero, div_one, ← mul_assoc, neg_mul,
        ← sub_eq_add_neg, mul_sub]
    · have hzero : value x + value y = value 0 := by
        rw [hsum, hopp, h, neg_mul, neg_add_cancel, zero_mul, zero_div, value_of_isZero (by decide)]
      rw [if_neg (by omega), if_neg (by omega), hzero]
      exact isNearestEven_value (by decide)
    · rw [if_neg (by omega), if_pos h]
      refine pack_roundMag_isNearestEven (by omega) ?_ hmax
      rw [hsum, hopp, Nat.cast_sub h.le, pow_zero, div_one, ← mul_assoc, neg_mul, neg_add_eq_sub, mul_sub]

/-- A zero of either sign is exact. -/
theorem pack_zero_isNearestEven (s : Bool) : IsNearestEven 0 (pack s 0) := by
  have hz : isZero (pack s 0) = true := by cases s <;> decide
  rw [← value_of_isZero hz]
  exact isNearestEven_value (by cases s <;> decide)

/-- Settles O26: a zero operand gives the other one, and two nonzero operands the rounding of their exact sum. -/
theorem faddCorrectlyRounded : Obligations.FaddCorrectlyRounded := by
  intro x y hx hy hmax
  unfold fadd
  simp only [isNaN_of_isFinite hx, isNaN_of_isFinite hy, isInf_of_isFinite hx, isInf_of_isFinite hy, Bool.false_eq_true,
    or_self, if_false]
  cases hzx : isZero x
  · cases hzy : isZero y
    · exact addFinite_isNearestEven hzx hmax
    · rw [value_of_isZero hzy, add_zero]
      exact isNearestEven_value hx
  · rw [value_of_isZero hzx, zero_add]
    cases hzy : isZero y
    · exact isNearestEven_value hy
    · rw [value_of_isZero hzy]
      exact pack_zero_isNearestEven _

/-! ### The product -/

/-- Settles O27: a zero operand gives a zero, and two nonzero operands the rounding of the product of their significands. -/
theorem fmulCorrectlyRounded : Obligations.FmulCorrectlyRounded := by
  intro x y hx hy hmax
  unfold fmul
  simp only [isNaN_of_isFinite hx, isNaN_of_isFinite hy, isInf_of_isFinite hx, isInf_of_isFinite hy, Bool.false_eq_true,
    or_self, if_false]
  by_cases hz : isZero x = true ∨ isZero y = true
  · have h0 : value x * value y = 0 := hz.elim (fun h => by rw [value_of_isZero h, zero_mul])
      (fun h => by rw [value_of_isZero h, mul_zero])
    rw [if_pos hz, h0]
    exact pack_zero_isNearestEven _
  · obtain ⟨hzx, hzy⟩ := not_or.1 hz
    rw [if_neg hz]
    refine pack_roundMag_isNearestEven
      (Nat.mul_pos (man_pos (Bool.eq_false_iff.2 hzx)) (man_pos (Bool.eq_false_iff.2 hzy))) ?_ hmax
    rw [value_eq_man_exp x, value_eq_man_exp y, sign_bne, pow_add, Nat.cast_mul]
    generalize (2 : ℝ) ^ 1074 = D
    ring

/-! ### The quotient -/

/-- The doubled integer quotient with its sticky bit stands for the doubled quotient. -/
theorem sticky_stickyDiv (n : ℕ) {d : ℕ} (hd : 0 < d) : Sticky (stickyDiv n d) (2 * (n / d : ℝ)) := by
  have hdR : (d : ℝ) ≠ 0 := Nat.cast_ne_zero.2 hd.ne'
  refine sticky_of_floor (by positivity) (Nat.floor_div_eq_div n d) ⟨fun h => ?_, fun h => ?_⟩
  · exact (Nat.cast_div (Nat.dvd_of_mod_eq_zero h) hdR).symm
  · have hmul : n = n / d * d := by exact_mod_cast (div_eq_iff hdR).1 h
    rw [hmul, Nat.mul_mod_left]

/-- The quotient of two significands has the bits that rounding needs. -/
theorem stickyDiv_man_ge {x : F64} (hx : isZero x = false) (y : F64) (hy : isZero y = false) :
    2 ^ 54 ≤ stickyDiv (man x * 2 ^ 108) (man y) := by
  have hq : 2 ^ 55 ≤ man x * 2 ^ 108 / man y := by
    rw [Nat.le_div_iff_mul_le (man_pos hy)]
    have := man_pos hx
    have := man_lt y
    omega
  unfold stickyDiv
  omega

/-- Settles O28: a zero dividend gives a zero, and a nonzero one the rounding of the quotient of the significands, of which
the sticky bit keeps what rounding needs. -/
theorem fdivCorrectlyRounded : Obligations.FdivCorrectlyRounded := by
  intro x y hx hy hzy hmax
  unfold fdiv
  simp only [isNaN_of_isFinite hx, isNaN_of_isFinite hy, isInf_of_isFinite hx, isInf_of_isFinite hy, hzy,
    Bool.false_eq_true, or_self, if_false]
  cases hzx : isZero x
  · have hmy : (man y : ℝ) ≠ 0 := Nat.cast_ne_zero.2 (man_pos hzy).ne'
    refine pack_roundMag_sticky_isNearestEven (stickyDiv_man_ge hzx y hzy) (sticky_stickyDiv _ (man_pos hzy)) ?_ hmax
    have hsy : sign (neg y) ^ 2 = 1 := by rw [pow_two, sign_mul_self]
    have hsy0 : sign (neg y) ≠ 0 := fun h => by simp [h] at hsy
    have hD : (2 : ℝ) ^ 1074 ≠ 0 := by positivity
    rw [value_eq_man_exp x, value_eq_man_exp y, sign_bne, pow_add 2 (exp x), pow_add 2 (exp y), Nat.cast_mul]
    push_cast
    generalize (2 : ℝ) ^ 1074 = D at hD ⊢
    field_simp
    rw [hsy]
    norm_num
  · rw [value_of_isZero hzx, zero_div]
    exact pack_zero_isNearestEven _

/-! ### The square root -/

/-- The doubled integer root with its sticky bit stands for the doubled root. -/
theorem sticky_stickySqrt {n : ℕ} (hn : n < 2 ^ 164) : Sticky (stickySqrt n) (2 * √n) := by
  unfold stickySqrt
  simp only [isqrt_eq_sqrt hn]
  refine sticky_of_floor (Real.sqrt_nonneg _) Real.nat_floor_real_sqrt_eq_nat_sqrt ?_
  rw [Real.sqrt_eq_iff_mul_self_eq (Nat.cast_nonneg _) (Nat.cast_nonneg _), eq_comm]
  norm_cast

/-- A positive number has no sign. -/
theorem neg_eq_false_of_nonneg {x : F64} (hz : isZero x = false) (h : 0 ≤ value x) : neg x = false := by
  by_contra hn
  have hpos : (0 : ℝ) < man x := Nat.cast_pos.2 (man_pos hz)
  rw [value_eq_man_exp, Bool.eq_true_of_not_eq_false hn] at h
  have : (0 : ℝ) < man x * 2 ^ exp x / 2 ^ 1074 := by positivity
  rw [show sign true = -1 from rfl, neg_one_mul, neg_div] at h
  exact absurd (neg_nonneg.1 h) (not_le.2 this)

/-- A square root is within the range. -/
theorem sqrt_value_le_maxFinite {x : F64} (h : isFinite x = true) : |√(value x)| ≤ value maxFinite := by
  have hone : 1 ≤ value maxFinite := by
    have hle : unitsOf (1023 * 2 ^ 52) ≤ unitsOf (infMag - 1) := unitsOf_strictMono.monotone (by decide)
    have heq : unitsOf (1023 * 2 ^ 52) = 2 ^ 1074 := by
      rw [show 1023 * 2 ^ 52 = 1022 * 2 ^ 52 + 2 ^ 52 by norm_num, unitsOf_pack (fun _ => le_rfl) (by norm_num), ← pow_add]
    have hcast : ((2 ^ 1074 : ℕ) : ℝ) ≤ unitsOf (infMag - 1) := Nat.cast_le.2 (heq.symm.trans_le hle)
    rw [Nat.cast_pow, Nat.cast_ofNat] at hcast
    rw [value_maxFinite]
    exact (one_le_div (by positivity)).2 hcast
  rw [abs_of_nonneg (Real.sqrt_nonneg _), Real.sqrt_le_iff]
  have := (le_abs_self _).trans (abs_value_le_maxFinite h)
  exact ⟨by linarith, by nlinarith⟩

/-- The root of a number with an even exponent taken out. -/
theorem sqrt_value_eq {x : F64} {odd half : ℕ} (hs : neg x = false) (he : exp x = odd + 2 * half) :
    √(value x) = sign false * (2 * √((man x * 2 ^ odd * 2 ^ 108 : ℕ) : ℝ) * 2 ^ (half + 537) / 2 ^ 55) / 2 ^ 1074 := by
  have hD : (2 : ℝ) ^ 1074 = 2 ^ 537 * 2 ^ 537 := by rw [← pow_add]
  have hE : (0 : ℝ) < 2 ^ 537 := by positivity
  have hsq : value x = (√((man x * 2 ^ odd * 2 ^ 108 : ℕ) : ℝ) * 2 ^ half / (2 ^ 54 * 2 ^ 537)) ^ 2 := by
    rw [value_eq_man_exp, hs, he, hD, div_pow, mul_pow, mul_pow, Real.sq_sqrt (Nat.cast_nonneg _), pow_add, pow_mul',
      show sign false = 1 from rfl, Nat.cast_mul, Nat.cast_mul]
    generalize (2 : ℝ) ^ 537 = E at hE ⊢
    push_cast
    field_simp
    norm_num
  rw [hsq, Real.sqrt_sq (by positivity), hD, pow_add, show sign false = 1 from rfl]
  generalize (2 : ℝ) ^ 537 = E at hE ⊢
  field_simp

/-- Settles O29: a zero is its own root, and a positive number gives the rounding of the root of its significand at an even
exponent, of which the sticky bit keeps what rounding needs. -/
theorem fsqrtCorrectlyRounded : Obligations.FsqrtCorrectlyRounded := by
  intro x hx h0
  unfold fsqrt
  simp only [isNaN_of_isFinite hx, isInf_of_isFinite hx, Bool.false_eq_true, if_false]
  cases hz : isZero x
  · have hs := neg_eq_false_of_nonneg hz h0
    simp only [hs, Bool.false_eq_true, if_false]
    obtain ⟨odd, half, he, hodd, hexp⟩ : ∃ odd half, exp x % 2 = odd ∧ odd ≤ 1 ∧ exp x = odd + 2 * half :=
      ⟨exp x % 2, exp x / 2, rfl, by omega, by omega⟩
    have hhalf : (exp x - odd) / 2 = half := by omega
    rw [he, hhalf]
    have hlow : 2 ^ 108 ≤ man x * 2 ^ odd * 2 ^ 108 := by
      have : 0 < man x * 2 ^ odd := Nat.mul_pos (man_pos hz) (by positivity)
      omega
    have hhigh : man x * 2 ^ odd * 2 ^ 108 < 2 ^ 164 := by
      have := man_lt x
      interval_cases odd <;> omega
    refine pack_roundMag_sticky_isNearestEven ?_ (sticky_stickySqrt hhigh) ?_ (sqrt_value_le_maxFinite hx)
    · have hroot : 2 ^ 54 ≤ Nat.sqrt (man x * 2 ^ odd * 2 ^ 108) := Nat.le_sqrt.2 hlow
      rw [stickySqrt, isqrt_eq_sqrt hhigh]
      omega
    · exact sqrt_value_eq hs hexp
  · simp only [if_true, value_of_isZero hz, Real.sqrt_zero]
    rw [← value_of_isZero hz]
    exact isNearestEven_value hx

/-! ### Conversion and comparison -/

/-- A number that is a whole number of last places is not changed by rounding. -/
theorem Rounds.eq_of_dvd {n q R : ℕ} (h : Rounds n q R) (hd : 2 ^ q ∣ n) : unitsOf (q * 2 ^ 52 + R) = n := by
  obtain ⟨k, rfl⟩ := hd
  have hcast : ((2 ^ q * k : ℕ) : ℝ) = k * 2 ^ q := by push_cast; ring
  have hle := (h.le_multiple k).1
  rw [hcast, sub_self, abs_zero] at hle
  have heq : (R : ℝ) * 2 ^ q = k * 2 ^ q := sub_eq_zero.1 (abs_nonpos_iff.1 hle)
  rw [unitsOf_pack h.full h.top, Nat.mul_comm (2 ^ q)]
  exact_mod_cast heq

/-- The numbers up to 2^53 are whole numbers of last places. -/
theorem Rounds.dvd_of_le {i e q R : ℕ} (h : Rounds ((i * 2 ^ e : ℕ) : ℝ) q R) (hi : i ≤ 2 ^ 53) :
    2 ^ q ∣ i * 2 ^ e := by
  rcases Nat.lt_or_ge e q with hq | hq
  · -- only 2^53 reaches this place
    have hlow : 2 ^ (52 + q) ≤ i * 2 ^ e := by exact_mod_cast h.low (by omega)
    have hpow : 2 ^ (53 + e) ≤ 2 ^ (52 + q) := Nat.pow_le_pow_right Nat.two_pos (by omega)
    rw [pow_add 2 53] at hpow
    have : 2 ^ 53 ≤ i := Nat.le_of_mul_le_mul_right (hpow.trans hlow) (by positivity)
    obtain rfl : i = 2 ^ 53 := by omega
    rw [← pow_add] at hlow ⊢
    have hexp : 52 + q ≤ 53 + e := (Nat.pow_le_pow_iff_right Nat.one_lt_two).1 hlow
    exact pow_dvd_pow 2 (by omega)
  · exact Dvd.dvd.mul_left (pow_dvd_pow 2 hq) i

/-- `f64` is exact up to 2^53. -/
theorem value_f64 {i : ℕ} (hi : i ≤ 2 ^ 53) : isFinite (f64 i) = true ∧ value (f64 i) = i := by
  rcases Nat.eq_zero_or_pos i with rfl | h0
  · exact ⟨by decide, by rw [value_of_isZero (by decide), Nat.cast_zero]⟩
  rw [f64, if_neg h0.ne']
  obtain ⟨q, R, e, hR⟩ := roundMag_exact (n := i) (up := 1074) (down := 0) h0
  have hcast : (i : ℝ) * 2 ^ 1074 / 2 ^ 0 = ((i * 2 ^ 1074 : ℕ) : ℝ) := by
    rw [pow_zero, div_one, Nat.cast_mul, Nat.cast_pow, Nat.cast_ofNat]
  rw [hcast] at hR
  have hmax : i * 2 ^ 1074 ≤ unitsOf (infMag - 1) := by
    calc i * 2 ^ 1074 ≤ 2 ^ 53 * 2 ^ 1074 := Nat.mul_le_mul_right _ hi
      _ = unitsOf (1074 * 2 ^ 52 + 2 ^ 53) := (unitsOf_pack (fun _ => by norm_num) le_rfl).symm
      _ ≤ unitsOf (infMag - 1) := unitsOf_strictMono.monotone (by decide)
  have hlt : q * 2 ^ 52 + R < infMag := hR.lt_infMag (Nat.cast_le.2 hmax)
  have hunits := hR.eq_of_dvd (hR.dvd_of_le hi)
  rw [e, Nat.min_eq_right hlt.le]
  have hlt' := hlt.trans infMag_lt
  refine ⟨by rw [isFinite, mag_pack _ hlt']; exact decide_eq_true hlt, ?_⟩
  rw [value_eq, neg_pack _ hlt', mag_pack _ hlt', hunits, ← hcast, pow_zero, div_one,
    if_neg Bool.false_ne_true, one_mul, mul_div_cancel_right₀ _ (by positivity)]

/-- A finite number in whole units orders as its pattern does. -/
theorem units_le_units_iff (x y : F64) : units x ≤ units y ↔ key x ≤ key y := by
  have hle : ∀ m n, unitsOf m ≤ unitsOf n ↔ m ≤ n := fun m n => unitsOf_strictMono.le_iff_le
  have hxy := hle (mag x) (mag y)
  have hyx := hle (mag y) (mag x)
  have hx0 := hle (mag x) 0
  have hy0 := hle (mag y) 0
  rw [unitsOf_zero] at hx0 hy0
  unfold units key
  rw [show man x * 2 ^ exp x = unitsOf (mag x) from rfl, show man y * 2 ^ exp y = unitsOf (mag y) from rfl]
  split <;> split <;> omega

/-- Patterns compare as their values do. -/
theorem value_le_value_iff (x y : F64) : value x ≤ value y ↔ key x ≤ key y := by
  rw [value, value, div_le_div_iff_of_pos_right (by positivity), Int.cast_le, units_le_units_iff]

/-- Settles O30: a number up to 2^53 is a whole number of last places, and patterns order as their values do. -/
theorem conversionAndComparisonsExact : Obligations.ConversionAndComparisonsExact := by
  refine ⟨fun i hi => value_f64 hi, fun x y hx hy => ⟨?_, ?_⟩⟩
  · rw [fle_iff (isNaN_of_isFinite hx) (isNaN_of_isFinite hy), value_le_value_iff]
  · rw [fgt_iff (isNaN_of_isFinite hx) (isNaN_of_isFinite hy), ← not_le, ← not_le, value_le_value_iff]

end Sys2Proof.Fp
end

section
/-! SUPPORT. Building a block: the list of checks against the constraints of spec/00_scope.md R9. -/

namespace Sys2Proof

@[simp] theorem mem_bins (b : Bin) : b ∈ bins := by revert b; decide

/-- The low group is the bins 0 to 3. -/
theorem mem_lowGroup_iff (b : Bin) : b ∈ ([0, 1, 2, 3] : List Bin) ↔ b < 4 := by revert b; decide

/-- The high group is the bins 4 to 7. -/
theorem mem_highGroup_iff (b : Bin) : b ∈ ([4, 5, 6, 7] : List Bin) ↔ 4 ≤ b := by revert b; decide

/-- A list of eight bins that lists every bin lists each once, and a list of each bin once has eight. -/
theorem isOrder_iff (l : List Bin) :
    (l.length = 8 ∧ ∀ b : Bin, b ∈ l) ↔ (l.Nodup ∧ ∀ b : Bin, b ∈ l) := by
  refine and_congr_left fun hall => ⟨fun hlen => ?_, fun hnodup => ?_⟩
  · have hsub : List.Subperm bins l := List.Nodup.subperm (by decide) fun b _ => hall b
    exact (hsub.perm_of_length_le (by rw [hlen]; decide)).nodup (by decide)
  · have hperm : List.Perm l bins := (List.perm_ext_iff_of_nodup hnodup (by decide)).2 fun b => by simp [hall b]
    rw [hperm.length_eq]; rfl

/-- A set is accepted when it passes every check. -/
theorem Params.ok_iff (p : Params) : p.ok = true ↔ ∀ c ∈ p.checks, c.1 = true := by
  simp [Params.ok, Params.errors]

/-- The check that the eight harmonics differ. -/
theorem harmonicsDistinct_iff (p : Params) :
    (bins.all fun a => bins.all fun b => decide (a = b ∨ p.k a ≠ p.k b)) = true ↔ ∀ a b : Bin, a ≠ b → p.k a ≠ p.k b := by
  simp [or_iff_not_imp_left]

/-- The check that the two groups do not overlap. -/
theorem groupsApart_iff (p : Params) :
    (([0, 1, 2, 3] : List Bin).all fun a => ([4, 5, 6, 7] : List Bin).all fun b => decide (p.k a < p.k b)) = true ↔
      ∀ a b : Bin, a < 4 → 4 ≤ b → p.k a < p.k b := by
  simp only [List.all_eq_true, decide_eq_true_eq, mem_lowGroup_iff, mem_highGroup_iff]
  exact forall_congr' fun a => ⟨fun h b ha => h ha b, fun h ha b => h b ha⟩

/-- The check of the tie rule. -/
theorem tieRule_iff (p : Params) :
    (decide (p.tieOrder.length = 8) && bins.all fun b => p.tieOrder.contains b) = true ↔
      p.tieOrder.Nodup ∧ ∀ b : Bin, b ∈ p.tieOrder := by
  rw [← isOrder_iff]; simp

/-- An accepted set is built as it is. -/
theorem Params.build_of_ok {p : Params} (h : p.ok = true) : p.build = .ok p := by
  rw [Params.ok, List.isEmpty_iff] at h
  rw [Params.build, h]

/-- A set that is not accepted is refused with one of its errors. -/
theorem Params.build_of_not_ok {p : Params} (h : p.ok = false) : ∃ e, p.build = .error e := by
  cases he : p.errors with
  | nil => simp [Params.ok, he] at h
  | cons e es => exact ⟨e, by rw [Params.build, he]⟩

/-- Settles O39: each check says its constraint, and a set is built when the list of errors is empty. -/
theorem configChecks : Obligations.ConfigChecks := by
  refine ⟨fun p => ?_, fun p => Params.build_of_ok, fun p => Params.build_of_not_ok,
    Params.build_of_ok (by decide +kernel)⟩
  have hsil : (1 ≤ p.silThreshold ∧ p.silThreshold + 1 ≤ p.silMax) ↔
      (1 ≤ p.silThreshold ∧ p.silThreshold ≤ p.silMax - 1) := by omega
  rw [Params.ok_iff]
  simp only [Params.checks, List.forall_mem_cons]
  rw [harmonicsDistinct_iff, groupsApart_iff, tieRule_iff]
  simp only [hsil, decide_eq_true_eq, List.all_eq_true, mem_bins, true_imp_iff, List.not_mem_nil, false_imp_iff,
    implies_true, and_true]

end Sys2Proof
end

section
/-! SUPPORT. The output stream and the order of the commands: what an instruction and an edge leave of the characters, and
the edges of a host that does not reset as the commands it got accepted, one after another. -/

namespace Sys2Proof.Machine

/-! ### What the sequencer adds to an instruction -/

/-- A micro-operation that completes is followed by the move of `STG`, and by nothing else. -/
theorem advanceStage_eq_next {o : Host.Outcome State Fault Refusal} {t : State} (h : advanceStage o = .next t) :
    ∃ u, o = .next u ∧ t = { u with stg := nextStage ps1 u } := by
  cases o with
  | next u => exact ⟨u, rfl, (Host.Outcome.next.inj h).symm⟩
  | fault e => cases h
  | refused r => cases h

/-- No stage code names RESET. -/
theorem decodeUop_ne_reset {c : StageCode} {i : Instr} (h : decodeUop c = .ok i) : i ≠ .reset := by
  unfold decodeUop at h
  split at h <;> cases h <;> simp

/-! ### The output under an instruction -/

/-- Emitting characters takes none back from the host. -/
theorem out_prefix_emitAll (cs : List Byte) (s : State) : s.out <+: (emitAll cs s).out := by
  induction cs generalizing s with
  | nil => exact List.prefix_refl _
  | cons c cs ih => exact (List.prefix_append _ _).trans (ih (emit c s))

/-- SEG takes no character back from the host. -/
theorem out_prefix_segmentStep (p : Params) (s : State) : s.out <+: (segmentStep p s).out :=
  out_prefix_emitAll (segWindow p (verdictOf s.rk s.rsym) s.det s.sil).emitted
    { s with
      det := (segWindow p (verdictOf s.rk s.rsym) s.det s.sil).det,
      sil := (segWindow p (verdictOf s.rk s.rsym) s.det s.sil).sil }

/-- An analysis takes no character back from the host. -/
theorem out_prefix_analyse (p : Params) (s : State) : s.out <+: (analyse p s).out :=
  out_prefix_segmentStep p (decided p s)

/-- Every instruction leaves the host the characters it has taken; and all but a RESET that meets a pending character keep
the whole output stream. -/
theorem exec_output_prefix {i : Instr} {s t : State} (h : exec i s = .next t) :
    s.out <+: t.out ∧ ((i = .reset → s.pend = none) → s.OUT <+: t.OUT) := by
  cases i with
  | push x =>
    rcases execPush_cases x s with ⟨-, e⟩ | ⟨-, -, e⟩ | ⟨-, -, e⟩ | ⟨-, -, e⟩ <;> cases e.symm.trans h
    · exact ⟨List.prefix_refl _, fun _ => List.prefix_refl _⟩
    · exact ⟨List.prefix_refl _, fun _ => List.prefix_refl _⟩
    · exact ⟨out_prefix_analyse ps1 (storeNext x (latchSample x s)), fun _ => by
        rw [analyse_OUT]; exact List.prefix_append _ _⟩
  | write =>
    rcases execWrite_cases s with ⟨-, e⟩ | ⟨-, e⟩ <;> cases e.symm.trans h
    exact ⟨List.prefix_refl _, fun _ => List.prefix_refl _⟩
  | seg =>
    cases h
    exact ⟨out_prefix_segmentStep ps1 s, fun _ => by rw [(segmentStep_spec ps1 s).2.2]; exact List.prefix_append _ _⟩
  | reset =>
    cases h
    exact ⟨List.prefix_refl _, fun hp => by simp [State.OUT, hp rfl]⟩
  | nop | eos | pdft | magx | peak | decide | slide =>
    cases h
    exact ⟨List.prefix_refl _, fun _ => List.prefix_refl _⟩

/-- An edge takes no character back, whether or not the host is ready for one. -/
theorem out_prefix_portEdge (s : State) : s.out <+: (portEdge s).out := by
  unfold portEdge
  cases s.pinsNow.outReady
  · exact List.prefix_refl _
  · exact List.prefix_append _ _

/-- Every edge leaves the host the characters it has taken, and one without a reset by the pin keeps the whole output
stream. -/
theorem step_output_prefix {s t : State} (h : step s = .next t) :
    s.out <+: t.out ∧ (s.pinsNow.rstN = true → s.OUT <+: t.OUT) := by
  rcases step_cases s with ⟨hr, e⟩ | ⟨-, i, hi, e⟩ | ⟨-, -, hp, -, w, rest, -, e⟩ | ⟨-, -, -, e⟩ <;> rw [e] at h
  · cases h
    exact ⟨List.prefix_refl _, fun hr' => by simp [hr] at hr'⟩
  · obtain ⟨u, hu, rfl⟩ := advanceStage_eq_next h
    obtain ⟨hout, hOUT⟩ := exec_output_prefix hu
    refine ⟨(out_prefix_portEdge s).trans hout, fun _ => ?_⟩
    rw [← portEdge_OUT s]
    exact hOUT fun hreset => absurd hreset (decodeUop_ne_reset hi)
  · obtain ⟨hout, hOUT⟩ := exec_output_prefix h
    exact ⟨hout, fun _ => hOUT fun _ => hp⟩
  · cases h
    exact ⟨out_prefix_portEdge s, fun _ => by rw [portEdge_OUT]⟩

/-- Settles O53, from what each instruction and the character port do to the output at one edge. -/
theorem outputOnlyGrows : Obligations.OutputOnlyGrows := by
  intro s t h
  obtain ⟨hout, hOUT⟩ := step_output_prefix h
  exact ⟨hout.imp fun _ => Eq.symm, fun hr => (hOUT hr).imp fun _ => Eq.symm⟩

/-! ### The accepted commands, one after another -/

/-- A command leaves the stage register idle, because it is done within its edge (R101). -/
theorem exec_stg_idle {i : Instr} {s t : State} (h : exec i s = .next t) (hs : s.stg = .idle) : t.stg = .idle := by
  cases i with
  | push x =>
    rcases execPush_cases x s with ⟨-, e⟩ | ⟨-, -, e⟩ | ⟨-, -, e⟩ | ⟨-, -, e⟩ <;> cases e.symm.trans h <;> simp [hs]
  | write => rcases execWrite_cases s with ⟨-, e⟩ | ⟨-, e⟩ <;> cases e.symm.trans h; simp [hs]
  | nop | eos | reset | pdft | magx | peak | decide | seg | slide => cases h; simp [hs]

/-- With nothing pending there is no character to take. -/
theorem takeChar_of_pend_none {s : State} (h : s.pend = none) : s.takeChar = s := by
  cases s; cases h; simp [State.takeChar]

/-- An edge without a reset changes the ports only: with the pending character taken it is the end of the levels of that
edge. -/
theorem takeChar_portEdge (s : State) : (portEdge s).takeChar = withHost s.cmdq s.pins.tail s.takeChar := by
  unfold portEdge
  cases s.pinsNow.outReady <;> simp [State.takeChar, withHost]

/-- One command more is served after the others. -/
theorem serve_concat {ws : List CmdWord} {w : CmdWord} {s u v : State} (hu : serve ws s = .next u)
    (hv : exec (decodeCmd w) u.takeChar = .next v) : serve (ws ++ [w]) s = .next v := by
  induction ws generalizing s with
  | nil => cases hu; simp [serve, hv]
  | cons x ws ih =>
    simp only [serve, List.cons_append] at hu ⊢
    cases hx : exec (decodeCmd x) s.takeChar with
    | next t => rw [hx] at hu; exact ih hu
    | fault e => rw [hx] at hu; cases hu
    | refused r => rw [hx] at hu; cases hu

/-- After `k` edges from `s` the block is at rest in `t`, and but for its last character `t` is where the first commands of
`s`, served one after another, lead. -/
def ServedAfter (k : ℕ) (s t : State) : Prop :=
  t.stg = .idle ∧ ∃ n u, t.cmdq = s.cmdq.drop n ∧ serve (s.cmdq.take n) s = .next u ∧
    t.takeChar = withHost t.cmdq (s.pins.drop k) u.takeChar

/-- One edge more serves one command more or none. -/
theorem ServedAfter.step {k : ℕ} {s t t' : State} (hpins : ∀ p ∈ s.pins, p.rstN = true) (h : ServedAfter k s t)
    (ht : step t = .next t') : ServedAfter (k + 1) s t' := by
  obtain ⟨hstg, n, u, hq, hu, hchar⟩ := h
  have hp : t.pins = s.pins.drop k := congrArg State.pins hchar
  have htail : t.pins.tail = s.pins.drop (k + 1) := by rw [hp, List.tail_drop]
  have hrst : t.pinsNow.rstN = true := by
    rw [State.pinsNow, hp]
    cases hd : s.pins.drop k with
    | nil => rfl
    | cons p ps => exact hpins p (List.mem_of_mem_drop (hd ▸ List.mem_cons_self ..))
  rcases step_cases t with ⟨hr, -⟩ | ⟨-, i, hi, -⟩ | ⟨-, -, hnone, -, w, rest, hw, e⟩ | ⟨-, -, -, e⟩
  · simp [hrst] at hr
  · rw [hstg] at hi; cases hi
  · -- a command is accepted: it finds the state the commands before it gave, with another host
    have hstate : { t with cmdq := rest, pins := t.pins.tail } = withHost rest t.pins.tail u.takeChar :=
      (congrArg (withHost rest t.pins.tail) ((takeChar_of_pend_none hnone).symm.trans hchar) :)
    have hstg' : t'.stg = .idle := exec_stg_idle (e.symm.trans ht) hstg
    rw [e, hstate, exec_withHost] at ht
    have hrest : w :: rest = s.cmdq.drop n := hw.symm.trans hq
    have hget : s.cmdq[n]? = some w := by rw [← List.head?_drop, ← hrest]; rfl
    cases hv : exec (decodeCmd w) u.takeChar with
    | next v =>
      rw [hv] at ht
      cases ht
      refine ⟨hstg', n + 1, v, ?_, ?_, congrArg (withHost rest · v.takeChar) htail⟩
      · rw [← List.tail_drop, ← hrest]; rfl
      · rw [List.take_add_one, hget]; exact serve_concat hu hv
    | fault r => rw [hv] at ht; cases ht
    | refused r => rw [hv] at ht; cases ht
  · -- the block waits: only the ports move
    rw [e] at ht
    cases ht
    refine ⟨by rw [portEdge_stg, hstg], n, u, by rw [portEdge_cmdq, hq], hu, ?_⟩
    rw [takeChar_portEdge, portEdge_cmdq, htail, hchar]; rfl

/-- Any number of edges without a reset by the pin serves the accepted commands. -/
theorem edges_servedAfter {k : ℕ} {s t : State} (hs : s.stg = .idle) (hpins : ∀ p ∈ s.pins, p.rstN = true)
    (h : edges k s = .next t) : ServedAfter k s t := by
  induction k generalizing t with
  | zero => cases h; exact ⟨hs, 0, s, rfl, rfl, rfl⟩
  | succ k ih =>
    rw [edges_succ_last] at h
    cases hk : edges k s with
    | next u => rw [hk] at h; exact (ih hk).step hpins h
    | fault e => rw [hk] at h; cases h
    | refused r => rw [hk] at h; cases h

/-- Settles O58, by induction on the edges: each serves one more of the host's commands, or moves the ports only. -/
theorem outputDependsOnlyOnCommands : Obligations.OutputDependsOnlyOnCommands :=
  fun _ _ _ hs hpins h => (edges_servedAfter hs hpins h).2

end Sys2Proof.Machine
end

section
/-! SUPPORT. The registers over a step: what an edge does, what a reset leaves, and the invariant of a run. -/

namespace Sys2Proof.Machine

/-! ### Edges and resets -/

/-- With `rst_n` high and a stage code in `STG` an edge runs that micro-operation and moves `STG` on. -/
theorem step_of_stage {s : State} {i : Instr} (hr : s.pinsNow.rstN = true) (hi : decodeUop s.stg.code = .ok i) :
    step s = advanceStage (exec i (portEdge s)) := by
  simp [step, fetch, hr, hi]

/-- With `rst_n` low an edge is a reset. -/
theorem step_of_reset {s : State} (hr : s.pinsNow.rstN = false) : step s = .next (hardReset s) := by
  simp [step, fetch, hr]

/-- Settles O7, from the stage case of `fetch` and the table of `nextStage`. -/
theorem stepRunsStage : Obligations.StepRunsStage := by
  refine ⟨fun s i hr hi => ?_, fun s => ?_, fun s => ?_⟩
  · have e : step s = advanceStage (exec i (portEdge s)) := step_of_stage hr hi
    exact ⟨fun t ht => by rw [e, ht]; rfl, fun r hf => by rw [e, hf]; rfl⟩
  · refine ⟨fun hs => ?_, ?_, ?_, ?_, ?_, ?_, ?_⟩
    · simp only [nextStage, hs]; rfl
    all_goals intro hs; simp only [nextStage, hs]
  · cases h : s.pinsNow.outReady <;> simp [portEdge, State.takeChar, h]

/-- A second reset finds nothing left to change. -/
theorem resetBlock_resetBlock (s : State) : resetBlock (resetBlock s) = resetBlock s := rfl

/-- Settles O15: the fields a reset clears and those it keeps. -/
theorem resetStartsAStream : Obligations.ResetStartsAStream := by
  intro s
  refine ⟨resetBlock s, rfl, rfl, rfl, rfl, rfl, rfl, rfl, rfl, rfl, fun hp => ?_, rfl, rfl, ?_, fun hr => ?_⟩
  · simp [State.OUT, hp]
  · exact congrArg Host.Outcome.next (resetBlock_resetBlock s)
  · exact step_of_reset hr

/-- Settles O47: the start, the command and the pin give the same values. -/
theorem resetValues : Obligations.ResetValues := by
  refine ⟨?_, rfl⟩
  rintro t (rfl | ⟨s, h | ⟨hr, h⟩⟩)
  · exact ⟨rfl, rfl, rfl, rfl, rfl, rfl, rfl, rfl, rfl, rfl⟩
  · cases h
    exact ⟨rfl, rfl, rfl, rfl, rfl, rfl, rfl, rfl, rfl, rfl⟩
  · cases (step_of_reset hr).symm.trans h
    exact ⟨rfl, rfl, rfl, rfl, rfl, rfl, rfl, rfl, rfl, rfl⟩

/-! ### The two strongest bins differ -/

/-- The scan answers a bin of its list. -/
theorem strongest_mem (mag : Lanes F64) {order : List Bin} (h : order ≠ []) : strongest mag order ∈ order := by
  obtain ⟨b, bs, rfl⟩ := List.exists_cons_of_ne_nil h
  unfold strongest
  rw [List.tail_cons, List.headD_cons]
  clear h
  induction bs generalizing b with
  | nil => exact List.mem_singleton_self b
  | cons c cs ih =>
    rw [List.foldl_cons]
    rcases List.mem_cons.1 (ih (if Fp.fgt (mag.get c) (mag.get b) then c else b)) with h | h
    · rw [h]; split <;> simp
    · exact List.mem_cons_of_mem b (List.mem_cons_of_mem c h)

/-- PEAK picks two bins, as long as the tie rule lists two. -/
theorem topTwo_ne {p : Params} (mag : Lanes F64) {a b : Bin} (ha : a ∈ p.tieOrder) (hb : b ∈ p.tieOrder) (hab : a ≠ b) :
    (topTwo p mag).1 ≠ (topTwo p mag).2 := by
  unfold topTwo
  dsimp only
  obtain ⟨c, hc, hne⟩ : ∃ c ∈ p.tieOrder, c ≠ strongest mag p.tieOrder := by
    by_cases h : a = strongest mag p.tieOrder
    · exact ⟨b, hb, fun h' => hab (h.trans h'.symm)⟩
    · exact ⟨a, ha, h⟩
  have hmem := strongest_mem mag (order := p.tieOrder.filter fun b => b != strongest mag p.tieOrder)
    (List.ne_nil_of_mem (List.mem_filter.2 ⟨hc, by simpa using hne⟩))
  have hsecond := (List.mem_filter.1 hmem).2
  exact fun h => by simp [← h] at hsecond

/-! ### The part of the invariant that does not speak of the command in progress -/

/-- The invariant without its clauses on `STG`. -/
structure RegistersFit (s : State) : Prop where
  winWf : s.win.wf = true
  winRange : ∀ c ∈ s.win, c.1 < ps1.n
  topDistinct : s.top1 ≠ s.top2
  symZero : s.rk ≠ .digit → s.rsym = 0
  perrDone : s.perr = true → s.mode = .done
  doneEmpty : s.mode = .done → s.fill = 0
  toneSil : s.det = .tone → s.sil = 0

/-- The invariant speaks of the command in progress in two clauses. -/
theorem inv_iff (s : State) :
    Inv s ↔ RegistersFit s ∧ StageFits s ∧ (s.stg ≠ .idle → s.stg ≠ .slide → s.pend = none) :=
  ⟨fun h => ⟨{ h with }, h.stage, h.pendFree⟩, fun ⟨h, hs, hp⟩ => { h with stage := hs, pendFree := hp }⟩

/-- A store inside the window steps `FILL` without a wrap. -/
theorem storeNext_fill_toNat {s : State} (v : Byte) (h : s.fill.toNat < ps1.n) :
    (storeNext v s).fill.toNat = s.fill.toNat + 1 := fill_succ_toNat h

theorem registersFit_storeNext {s : State} (v : Byte) (hm : s.mode = .run) (hf : s.fill.toNat < ps1.n)
    (h : RegistersFit s) : RegistersFit (storeNext v s) :=
  { h with
    winWf := Memory.wf_write h.winWf
    winRange := Memory.range_write hf h.winRange
    doneEmpty := fun hd => by simp [hm] at hd }

theorem registersFit_peak {s : State} (h : RegistersFit s) : RegistersFit (peak ps1 s) :=
  { h with topDistinct := topTwo_ne s.mag (a := 0) (b := 1) (by decide) (by decide) (by decide) }

/-- No verdict but a digit has a symbol index other than 0. -/
theorem Verdict.sym_eq_zero {v : Verdict} (h : v.kind ≠ .digit) : v.sym = 0 := by
  cases v with
  | none => rfl
  | unknown => rfl
  | digit i => exact absurd rfl h

theorem registersFit_decideVerdict {s : State} (h : RegistersFit s) : RegistersFit (decideVerdict ps1 s) :=
  { h with symZero := Verdict.sym_eq_zero }

theorem registersFit_emitAll {s : State} (cs : List Byte) (h : RegistersFit s) : RegistersFit (emitAll cs s) := by
  induction cs generalizing s with
  | nil => exact h
  | cons c cs ih => exact ih (s := emit c s) { h with }

/-- A window that ends in a tone has cleared the silence counter. -/
theorem segWindow_tone_sil {v : Verdict} {det : DetState} {sil : Byte} (h : (segWindow ps1 v det sil).det = .tone) :
    (segWindow ps1 v det sil).sil = 0 := by
  rcases segWindow_cases (p := ps1) (by simp) v det sil with ⟨i, -, e⟩ | ⟨-, e⟩ | ⟨-, e⟩ <;> rw [e] at h ⊢
  cases h

theorem registersFit_segmentStep {s : State} (h : RegistersFit s) : RegistersFit (segmentStep ps1 s) :=
  registersFit_emitAll _ { h with toneSil := segWindow_tone_sil }

theorem registersFit_slideWindow {s : State} (hm : s.mode = .run) (h : RegistersFit s) :
    RegistersFit (slideWindow ps1 s) :=
  { h with
    winWf := slideMemory_wf ps1 h.winWf
    winRange := slideMemory_range ps1 h.winRange
    doneEmpty := fun hd => by simp [hm] at hd }

/-- The chain of R104 on a full window. -/
theorem registersFit_analyse {s : State} (hm : s.mode = .run) (h : RegistersFit s) : RegistersFit (analyse ps1 s) := by
  have hmagx : RegistersFit (magx ps1 (pdft ps1 s)) := { h with }
  exact registersFit_slideWindow (by simp [hm])
    (registersFit_segmentStep (registersFit_decideVerdict (registersFit_peak hmagx)))

/-- Every instruction keeps the registers' part of the invariant; WRITE and SLIDE belong to mode `RUN`. -/
theorem exec_registersFit {i : Instr} {s t : State} (h : RegistersFit s) (hm : i = .write ∨ i = .slide → s.mode = .run)
    (ht : exec i s = .next t) : RegistersFit t := by
  cases i with
  | push x =>
    have hlatch : RegistersFit (latchSample x s) := { h with }
    rcases execPush_cases x s with ⟨hd, e⟩ | ⟨hr, hf, e⟩ | ⟨hr, hf, e⟩ | ⟨-, -, e⟩ <;> cases e.symm.trans ht
    · exact { h with perrDone := fun _ => hd }
    · exact registersFit_storeNext x hr (Nat.lt_of_succ_lt hf) hlatch
    · exact registersFit_analyse hr (registersFit_storeNext x hr (Nat.lt_of_succ_le hf.le) hlatch)
  | write =>
    rcases execWrite_cases s with ⟨hf, e⟩ | ⟨-, e⟩ <;> cases e.symm.trans ht
    exact registersFit_storeNext s.sample (hm (.inl rfl)) hf h
  | eos => cases ht; exact { h with perrDone := fun _ => rfl, doneEmpty := fun _ => rfl }
  | reset =>
    cases ht
    exact { h with
      perrDone := fun hp => (nomatch hp), doneEmpty := fun hd => (nomatch hd), toneSil := fun hd => (nomatch hd) }
  | peak => cases ht; exact registersFit_peak h
  | decide => cases ht; exact registersFit_decideVerdict h
  | seg => cases ht; exact registersFit_segmentStep h
  | slide => cases ht; exact registersFit_slideWindow (hm (.inr rfl)) h
  | nop | pdft | magx => cases ht; exact { h with }

/-! ### The stage register, the fill counter and the pending character -/

/-- The ports have no part in the invariant. -/
theorem inv_portEdge {s : State} (h : Inv s) : Inv (portEdge s) := by
  have hp : s.pend = none → (portEdge s).pend = none := fun hp => by rw [portEdge_of_pend_none hp]; exact hp
  obtain ⟨hreg, hstage, hpend⟩ := (inv_iff s).1 h
  refine (inv_iff _).2 ⟨?_, ?_, ?_⟩
  · unfold portEdge
    cases s.pinsNow.outReady <;> exact { hreg with }
  · simpa [StageFits] using hstage
  · simpa using fun h1 h2 => hp (hpend h1 h2)

/-- A command leaves fewer than 228 samples, because a window it fills is analysed and slides. -/
theorem exec_decodeCmd_fill_lt {w : CmdWord} {s t : State} (hf : s.fill.toNat < ps1.n)
    (ht : exec (decodeCmd w) s = .next t) : t.fill.toNat < ps1.n := by
  unfold decodeCmd at ht
  split at ht
  · cases ht; exact hf
  · rcases execPush_cases (dataField w) s with ⟨-, e⟩ | ⟨-, hf', e⟩ | ⟨-, -, e⟩ | ⟨-, -, e⟩ <;> cases e.symm.trans ht
    · exact hf
    · rwa [storeNext_fill_toNat]; exact hf
    · simp
  · cases ht; simp
  · cases ht; simp

/-- A command in progress is a PUSH in mode `RUN`. -/
theorem stageFits_mode_run {s : State} (h : StageFits s) (hs : s.stg ≠ .idle) : s.mode = .run := by
  unfold StageFits at h
  split at h
  · exact absurd ‹s.stg = .idle› hs
  · exact h.2
  · exact h.2

/-- After a micro-operation `FILL` fits the stage that follows. -/
theorem exec_stageFits {i : Instr} {s t : State} (h : StageFits s) (hi : decodeUop s.stg.code = .ok i)
    (ht : exec i s = .next t) : StageFits { t with stg := nextStage ps1 t } := by
  cases hs : s.stg with
  | idle => rw [hs] at hi; cases hi
  | write =>
    rw [hs] at hi; cases hi
    simp only [StageFits, hs] at h
    obtain ⟨hf, hm⟩ := h
    rcases execWrite_cases s with ⟨-, e⟩ | ⟨-, e⟩ <;> cases e.symm.trans ht
    have hnext := storeNext_fill_toNat s.sample hf
    simp only [StageFits, nextStage, storeNext_stg, storeNext_mode, hs, hm]
    by_cases hfull : (storeNext s.sample s).fill.toNat = ps1.n
    · rw [if_pos hfull]; exact ⟨hfull, trivial⟩
    · rw [if_neg hfull]
      show (storeNext s.sample s).fill.toNat < ps1.n
      omega
  | slide => rw [hs] at hi; cases hi; cases ht; simp [StageFits, nextStage, hs]
  | pdft | magx | peak | decide | seg =>
    rw [hs] at hi; cases hi; cases ht
    simpa [StageFits, nextStage, hs] using h

/-- A micro-operation leaves no character pending, unless it is SEG or the last. -/
theorem exec_pend_none {i : Instr} {s t : State} (h : s.stg ≠ .idle → s.stg ≠ .slide → s.pend = none)
    (hi : decodeUop s.stg.code = .ok i) (ht : exec i s = .next t) (h1 : nextStage ps1 t ≠ .idle)
    (h2 : nextStage ps1 t ≠ .slide) : t.pend = none := by
  cases hs : s.stg with
  | idle => rw [hs] at hi; cases hi
  | write =>
    rw [hs] at hi; cases hi
    rcases execWrite_cases s with ⟨-, e⟩ | ⟨-, e⟩ <;> cases e.symm.trans ht
    simpa [hs] using h
  | seg => rw [hs] at hi; cases hi; cases ht; simp [nextStage, hs] at h2
  | slide => rw [hs] at hi; cases hi; cases ht; simp [nextStage, hs] at h1
  | pdft | magx | peak | decide =>
    rw [hs] at hi; cases hi; cases ht
    simpa [hs] using h

/-! ### The invariant at reset and over a step -/

/-- Settles O48, clause by clause on the values of a reset. -/
theorem invariantAtReset : Obligations.InvariantAtReset :=
  (inv_iff _).2 ⟨by constructor <;> decide, show 0 < 228 by decide, fun _ _ => rfl⟩

/-- A reset keeps the invariant. -/
theorem inv_hardReset {s : State} (h : Inv s) : Inv (hardReset s) := by
  have hreg : RegistersFit (resetBlock s) := exec_registersFit ((inv_iff s).1 h).1 (by simp) (i := .reset) rfl
  exact (inv_iff _).2 ⟨{ hreg with }, by simp [StageFits], fun _ _ => rfl⟩

/-- An accepted command keeps the invariant. -/
theorem inv_exec_decodeCmd {w : CmdWord} {s t : State} (h : Inv s) (hs : s.stg = .idle)
    (ht : exec (decodeCmd w) s = .next t) : Inv t := by
  have hstg : t.stg = .idle := exec_stg_idle ht hs
  obtain ⟨hreg, hstage, -⟩ := (inv_iff s).1 h
  simp only [StageFits, hs] at hstage
  refine (inv_iff t).2 ⟨exec_registersFit hreg ?_ ht, ?_, fun h => absurd hstg h⟩
  · unfold decodeCmd; split <;> simp
  · simpa only [StageFits, hstg] using exec_decodeCmd_fill_lt hstage ht

/-- A micro-operation in its stage keeps the invariant. -/
theorem inv_exec_decodeUop {i : Instr} {s t : State} (h : Inv s) (hi : decodeUop s.stg.code = .ok i)
    (ht : exec i s = .next t) : Inv { t with stg := nextStage ps1 t } := by
  obtain ⟨hreg, hstage, hpend⟩ := (inv_iff s).1 h
  have hbusy : s.stg ≠ .idle := fun hs => by rw [hs] at hi; cases hi
  have hregT : RegistersFit t := exec_registersFit hreg (fun _ => stageFits_mode_run hstage hbusy) ht
  exact (inv_iff _).2 ⟨{ hregT with }, exec_stageFits hstage hi ht, exec_pend_none hpend hi ht⟩

/-- Settles O49: a reset, a micro-operation, a command and a wait each keep the invariant. -/
theorem stepKeepsInvariant : Obligations.StepKeepsInvariant := by
  intro s t h ht
  rcases step_cases s with ⟨-, e⟩ | ⟨-, i, hi, e⟩ | ⟨-, hs, -, -, w, rest, -, e⟩ | ⟨-, -, -, e⟩ <;> rw [e] at ht
  · cases ht
    exact inv_hardReset h
  · obtain ⟨u, hu, rfl⟩ := advanceStage_eq_next ht
    exact inv_exec_decodeUop (inv_portEdge h) (by rwa [portEdge_stg]) hu
  · have hhost : Inv { s with cmdq := rest, pins := s.pins.tail } := { h with }
    exact inv_exec_decodeCmd hhost hs ht
  · cases ht
    exact inv_portEdge h

end Sys2Proof.Machine
end

section
/-! SUPPORT. Which registers an instruction writes, and which ones reach the output: the analysis depends on the window
only, so what the transient registers hold is never seen. -/

namespace Sys2Proof.Machine

/-! ### Who writes what -/

/-- Settles O52, instruction by instruction: a PUSH is a store, an analysis or a `ProtocolError`. -/
theorem onlyTheNamedWritersWrite : Obligations.OnlyTheNamedWritersWrite := by
  intro i s t h
  cases i with
  | push x =>
    rcases execPush_cases x s with ⟨-, e⟩ | ⟨-, -, e⟩ | ⟨hm, hf, e⟩ | ⟨-, -, e⟩ <;> cases e.symm.trans h
    · simp
    · simp
    · have hruns : runsAnalysis (.push x) s = true := decide_eq_true ⟨hm, hf⟩
      simp [hruns]
  | write =>
    rcases execWrite_cases s with ⟨-, e⟩ | ⟨-, e⟩ <;> cases e.symm.trans h
    simp
  | nop | eos | reset | pdft | magx | peak | decide | seg | slide => cases h; simp

/-! ### A PUSH in each of its cases -/

theorem execPush_of_done (x : Byte) {s : State} (hm : s.mode = .done) : execPush x s = .next (raiseProtocolError s) := by
  simp [execPush, hm]

theorem execPush_of_lt (x : Byte) {s : State} (hm : s.mode = .run) (hf : s.fill.toNat + 1 < ps1.n) :
    execPush x s = .next (storeNext x (latchSample x s)) := by
  rcases execPush_cases x s with ⟨h, -⟩ | ⟨-, -, e⟩ | ⟨-, h, -⟩ | ⟨-, h, -⟩
  · simp [hm] at h
  · exact e
  · omega
  · omega

theorem execPush_of_full (x : Byte) {s : State} (hm : s.mode = .run) (hf : s.fill.toNat + 1 = ps1.n) :
    execPush x s = .next (analyse ps1 (storeNext x (latchSample x s))) := by
  rcases execPush_cases x s with ⟨h, -⟩ | ⟨-, h, -⟩ | ⟨-, -, e⟩ | ⟨-, h, -⟩
  · simp [hm] at h
  · omega
  · exact e
  · omega

/-! ### The verdict of an analysis -/

/-- PDFT and MAGX on a window: the magnitudes. -/
theorem magx_pdft_mag (p : Params) (s : State) :
    (magx p (pdft p s)).mag = Lanes.ofFn (hardwareMagnitude p s.win) :=
  Lanes.ext_get fun b => by simp [hardwareMagnitude]

/-- What SEG reads in an analysis is the verdict on the window, whatever the registers held before. -/
theorem decided_verdict (p : Params) (s : State) :
    verdictOf (decided p s).rk (decided p s).rsym = verdictOfWindow p s.win := by
  rw [decided, decideVerdict_verdict, peak_top1, peak_top2, peak_mag, magx_pdft_mag]
  rfl

/-- The verdict depends on the elements of the window only. -/
theorem verdictOfWindow_congr (p : Params) {m m' : Memory} (h : ∀ n < p.n, m.read n = m'.read n) :
    verdictOfWindow p m = verdictOfWindow p m' := by
  have hmag : hardwareMagnitude p m = hardwareMagnitude p m' :=
    funext fun b => by unfold hardwareMagnitude; rw [laneSums_congr p b h]
  unfold verdictOfWindow
  rw [hmag]

/-! ### Two runs that differ in the transient registers -/

/-- Both hold a window in canonical form, and a host cannot tell them apart. -/
structure Alike (s t : State) : Prop where
  same : SameForHost s t
  wfLeft : s.win.wf = true
  wfRight : t.win.wf = true

theorem sameForHost_emitAll {s t : State} (cs : List Byte) (h : SameForHost s t) :
    SameForHost (emitAll cs s) (emitAll cs t) := by
  induction cs generalizing s t with
  | nil => exact h
  | cons c cs ih => exact ih (s := emit c s) (t := emit c t) { h with pend := rfl, out := by simp [h.out, h.pend] }

/-- The registers an analysis writes before SEG are all transient. -/
theorem sameForHost_decided (p : Params) {s t : State} (h : SameForHost s t) :
    SameForHost (decided p s) (decided p t) :=
  ⟨h.fill, h.win, h.det, h.sil, h.mode, h.perr, h.stg, h.pend, h.out, h.cmdq, h.pins⟩

/-- SEG with the same verdict does the same. -/
theorem sameForHost_segmentStep (p : Params) {s t : State} (h : SameForHost s t)
    (hv : verdictOf s.rk s.rsym = verdictOf t.rk t.rsym) : SameForHost (segmentStep p s) (segmentStep p t) := by
  unfold segmentStep
  rw [hv, h.det, h.sil]
  exact sameForHost_emitAll _ { h with det := rfl, sil := rfl }

theorem alike_storeNext {s t : State} (v : Byte) (hf : s.fill.toNat < ps1.n) (h : Alike s t) :
    Alike (storeNext v (latchSample v s)) (storeNext v (latchSample v t)) := by
  obtain ⟨hsame, hs, ht⟩ := h
  refine ⟨{ hsame with fill := ?_, win := fun i hi => ?_ }, Memory.wf_write hs, Memory.wf_write ht⟩
  · simp [hsame.fill]
  · rw [storeNext_fill_toNat v (s := latchSample v s) hf] at hi
    simp only [storeNext_win, latchSample_win, latchSample_fill, Memory.read_write hs, Memory.read_write ht, ← hsame.fill]
    split
    · rfl
    · exact hsame.win i (by simp at hi; omega)

/-- SLIDE copies elements of a full window, on which the two agree. -/
theorem alike_slideWindow (p : Params) {s t : State} (hfull : s.fill.toNat = p.n) (h : Alike s t) :
    Alike (slideWindow p s) (slideWindow p t) := by
  obtain ⟨hsame, hs, ht⟩ := h
  refine ⟨{ hsame with fill := rfl, win := fun i hi => ?_ }, slideMemory_wf p hs, slideMemory_wf p ht⟩
  have hkeep : i < p.keep := by
    rw [slideWindow_fill, BitVec.toNat_ofNat] at hi
    exact hi.trans_le (Nat.mod_le _ _)
  rw [slideWindow_win, slideWindow_win, slideMemory_read p hs, slideMemory_read p ht, if_pos hkeep, if_pos hkeep]
  unfold Params.keep at hkeep
  exact hsame.win (i + p.shift) (by omega)

/-- The analysis of a full window reads nothing but the window. -/
theorem alike_analyse (p : Params) {s t : State} (hfull : s.fill.toNat = p.n) (h : Alike s t) :
    Alike (analyse p s) (analyse p t) := by
  have hverdict : verdictOf (decided p s).rk (decided p s).rsym = verdictOf (decided p t).rk (decided p t).rsym := by
    rw [decided_verdict, decided_verdict]
    exact verdictOfWindow_congr p fun n hn => h.same.win n (hfull ▸ hn)
  have hseg : Alike (segmentStep p (decided p s)) (segmentStep p (decided p t)) :=
    ⟨sameForHost_segmentStep p (sameForHost_decided p h.same) hverdict,
      by rw [segmentStep_win]; exact h.wfLeft, by rw [segmentStep_win]; exact h.wfRight⟩
  exact alike_slideWindow p ((congrArg BitVec.toNat (segmentStep_fill p _)).trans hfull) hseg

/-- A PUSH takes the same of its cases on both, since `MODE` and `FILL` agree. -/
theorem alike_execPush {x : Byte} {s t s' : State} (h : Alike s t) (hs : execPush x s = .next s') :
    ∃ t', execPush x t = .next t' ∧ Alike s' t' := by
  have hmode := h.same.mode
  have hfill := h.same.fill
  rcases execPush_cases x s with ⟨hm, e⟩ | ⟨hm, hf, e⟩ | ⟨hm, hf, e⟩ | ⟨-, -, e⟩ <;> cases e.symm.trans hs
  · exact ⟨_, execPush_of_done x (hmode ▸ hm), { h.same with perr := rfl }, h.wfLeft, h.wfRight⟩
  · exact ⟨_, execPush_of_lt x (hmode ▸ hm) (hfill ▸ hf), alike_storeNext x (Nat.lt_of_succ_lt hf) h⟩
  · have hlt : s.fill.toNat < ps1.n := Nat.lt_of_succ_le hf.le
    have hfull : (storeNext x (latchSample x s)).fill.toNat = ps1.n := (storeNext_fill_toNat x hlt).trans hf
    exact ⟨_, execPush_of_full x (hmode ▸ hm) (hfill ▸ hf), alike_analyse ps1 hfull (alike_storeNext x hlt h)⟩

/-- A command does the same to both. -/
theorem alike_exec_decodeCmd {w : CmdWord} {s t s' : State} (h : Alike s t) (hs : exec (decodeCmd w) s = .next s') :
    ∃ t', exec (decodeCmd w) t = .next t' ∧ Alike s' t' := by
  have hempty : ∀ i < (0 : Byte).toNat, s.win.read i = t.win.read i := fun i hi => absurd hi (by simp)
  unfold decodeCmd at hs ⊢
  split at hs
  · cases hs
    exact ⟨t, rfl, h⟩
  · exact alike_execPush h hs
  · cases hs
    exact ⟨_, rfl, { h.same with fill := rfl, mode := rfl, win := hempty }, h.wfLeft, h.wfRight⟩
  · cases hs
    exact ⟨_, rfl, { h.same with
      fill := rfl, win := hempty, det := rfl, sil := rfl, mode := rfl, perr := rfl, stg := rfl, pend := rfl },
      h.wfLeft, h.wfRight⟩

/-- Settles O55, by induction on the command words. -/
theorem transientsNeverMatter : Obligations.TransientsNeverMatter := by
  intro ws s t s' h hs ht hrun
  have halike : Alike s t := ⟨h, hs, ht⟩
  clear h hs ht
  induction ws generalizing s t with
  | nil =>
    cases hrun
    exact ⟨t, rfl, halike.same, by simp [State.OUT, halike.same.out, halike.same.pend]⟩
  | cons w ws ih =>
    simp only [List.map_cons, execAll] at hrun ⊢
    cases hw : exec (decodeCmd w) s with
    | next u =>
      obtain ⟨v, hv, hnext⟩ := alike_exec_decodeCmd halike hw
      rw [hw] at hrun
      rw [hv]
      exact ih u v hrun hnext
    | fault e => rw [hw] at hrun; cases hrun
    | refused r => rw [hw] at hrun; cases hrun

end Sys2Proof.Machine
end

section
/-! SUPPORT. A PUSH that takes one edge for each micro-operation against the atomic one. -/

namespace Sys2Proof.Machine

/-! ### The stage register and the coming levels: no micro-operation reads or writes them -/

/-- The state with another stage in progress and other levels to come. -/
def inStage (g : Stage) (ps : List Pins) (s : State) : State := { s with stg := g, pins := ps }

@[simp] theorem inStage_stg (g : Stage) (ps : List Pins) (s : State) : (inStage g ps s).stg = g := rfl

theorem pdft_inStage (p : Params) (g : Stage) (ps : List Pins) (s : State) :
    pdft p (inStage g ps s) = inStage g ps (pdft p s) := rfl

theorem magx_inStage (p : Params) (g : Stage) (ps : List Pins) (s : State) :
    magx p (inStage g ps s) = inStage g ps (magx p s) := rfl

theorem peak_inStage (p : Params) (g : Stage) (ps : List Pins) (s : State) :
    peak p (inStage g ps s) = inStage g ps (peak p s) := rfl

theorem decideVerdict_inStage (p : Params) (g : Stage) (ps : List Pins) (s : State) :
    decideVerdict p (inStage g ps s) = inStage g ps (decideVerdict p s) := rfl

theorem emitAll_inStage (cs : List Byte) (g : Stage) (ps : List Pins) (s : State) :
    emitAll cs (inStage g ps s) = inStage g ps (emitAll cs s) := by
  induction cs generalizing s with
  | nil => rfl
  | cons c cs ih => exact ih (emit c s)

theorem segmentStep_inStage (p : Params) (g : Stage) (ps : List Pins) (s : State) :
    segmentStep p (inStage g ps s) = inStage g ps (segmentStep p s) :=
  emitAll_inStage (segWindow p (verdictOf s.rk s.rsym) s.det s.sil).emitted g ps
    { s with
      det := (segWindow p (verdictOf s.rk s.rsym) s.det s.sil).det,
      sil := (segWindow p (verdictOf s.rk s.rsym) s.det s.sil).sil }

theorem analyse_inStage (p : Params) (g : Stage) (ps : List Pins) (s : State) :
    analyse p (inStage g ps s) = inStage g ps (analyse p s) :=
  congrArg (slideWindow p) (segmentStep_inStage p g ps (decided p s))

theorem execWrite_inStage {s : State} (hf : s.fill.toNat < ps1.n) (g : Stage) (ps : List Pins) :
    execWrite (inStage g ps s) = .next (inStage g ps (storeNext s.sample s)) := by
  rcases execWrite_cases (inStage g ps s) with ⟨-, e⟩ | ⟨h, -⟩
  · exact e
  · exact absurd hf (Nat.not_lt.2 h)

/-- The store of a PUSH whose sample is latched already. -/
theorem storeNext_latched (s : State) :
    storeNext s.sample (latchSample s.sample { s with stg := .idle }) = inStage .idle s.pins (storeNext s.sample s) := rfl

/-! ### The edges of a multi-cycle PUSH -/

/-- A host that never resets does not reset now. -/
theorem rstN_inStage {ps : List Pins} (hps : ∀ p ∈ ps, p.rstN = true) (k : ℕ) (g : Stage) (s : State) :
    (inStage g (ps.drop k) s).pinsNow.rstN = true := by
  show ((ps.drop k).headD Pins.ready).rstN = true
  cases hd : ps.drop k with
  | nil => rfl
  | cons p l => exact hps p (List.mem_of_mem_drop (hd ▸ List.mem_cons_self ..))

/-- One edge more with a stage in progress is that micro-operation after the port's transfer. -/
theorem edges_inStage {s₀ s : State} {k : ℕ} {g : Stage} {i : Instr} (hpins : ∀ p ∈ s₀.pins, p.rstN = true)
    (hk : edges k s₀ = .next (inStage g (s₀.pins.drop k) s)) (hi : decodeUop g.code = .ok i) :
    edges (k + 1) s₀ = advanceStage (exec i (portEdge (inStage g (s₀.pins.drop k) s))) := by
  rw [edges_succ_last, hk]
  exact step_of_stage (rstN_inStage hpins k g s) hi

/-- With no character pending the micro-operation takes the registers from `s` to `u`, and the levels of one edge are used
up. -/
theorem edges_inStage_succ {s₀ s u : State} {k : ℕ} {g : Stage} {i : Instr} (hpins : ∀ p ∈ s₀.pins, p.rstN = true)
    (hk : edges k s₀ = .next (inStage g (s₀.pins.drop k) s)) (hpend : s.pend = none) (hi : decodeUop g.code = .ok i)
    (hexec : exec i (inStage g (s₀.pins.drop (k + 1)) s) = .next (inStage g (s₀.pins.drop (k + 1)) u)) :
    edges (k + 1) s₀ =
      .next (inStage (nextStage ps1 (inStage g (s₀.pins.drop (k + 1)) u)) (s₀.pins.drop (k + 1)) u) := by
  have hport : portEdge (inStage g (s₀.pins.drop k) s) = inStage g (s₀.pins.drop (k + 1)) s := by
    rw [← List.tail_drop]; exact portEdge_of_pend_none hpend
  rw [edges_inStage hpins hk hi, hport, hexec]
  rfl

/-- SLIDE is the last stage. -/
theorem advanceStage_slide {s : State} (hs : s.stg = .slide) :
    advanceStage (exec .slide s) = .next { slideWindow ps1 s with stg := .idle } := by
  simp [exec, execSlide, advanceStage, nextStage, hs]

/-- The edge of SLIDE, at which the host may take the character of SEG. -/
theorem edges_slide {s₀ s : State} {k : ℕ} (hpins : ∀ p ∈ s₀.pins, p.rstN = true)
    (hk : edges k s₀ = .next (inStage .slide (s₀.pins.drop k) s)) :
    ∃ t, edges (k + 1) s₀ = .next t ∧ t.takeChar = inStage .idle (s₀.pins.drop (k + 1)) (slideWindow ps1 s).takeChar := by
  have hport := takeChar_portEdge (inStage .slide (s₀.pins.drop k) s)
  have hrun := edges_inStage hpins hk (i := .slide) rfl
  rw [advanceStage_slide (by simp)] at hrun
  refine ⟨_, hrun, ?_⟩
  calc State.takeChar { slideWindow ps1 (portEdge (inStage .slide (s₀.pins.drop k) s)) with stg := .idle }
      = { slideWindow ps1 (portEdge (inStage .slide (s₀.pins.drop k) s)).takeChar with stg := .idle } := rfl
    _ = inStage .idle (s₀.pins.drop (k + 1)) (slideWindow ps1 s).takeChar := by rw [hport, ← List.tail_drop]; rfl

/-- The first edge stores the sample; a window it fills goes on to PDFT. -/
theorem edges_write {s : State} (hs : s.stg = .write) (hpend : s.pend = none) (hpins : ∀ p ∈ s.pins, p.rstN = true)
    (hf : s.fill.toNat < ps1.n) :
    edges 1 s = .next (inStage (if s.fill.toNat + 1 = ps1.n then .pdft else .idle) (s.pins.drop 1)
      (storeNext s.sample s)) := by
  have h0 : edges 0 s = .next (inStage .write (s.pins.drop 0) s) := by rw [← hs]; rfl
  rw [edges_inStage_succ hpins h0 hpend rfl (execWrite_inStage hf .write _), ← storeNext_fill_toNat s.sample hf]
  rfl

/-- The six edges after the store: the chain of R104, with the character of SEG taken or not. -/
theorem edges_analysis {s₀ s : State} {k : ℕ} (hpins : ∀ p ∈ s₀.pins, p.rstN = true) (hpend : s.pend = none)
    (hk : edges k s₀ = .next (inStage .pdft (s₀.pins.drop k) s)) :
    ∃ t, edges (k + 6) s₀ = .next t ∧ t.takeChar = inStage .idle (s₀.pins.drop (k + 6)) (analyse ps1 s).takeChar := by
  have hpdft := edges_inStage_succ hpins hk hpend (i := .pdft) rfl (congrArg _ (pdft_inStage ps1 ..))
  have hmagx := edges_inStage_succ hpins hpdft hpend (i := .magx) rfl (congrArg _ (magx_inStage ps1 ..))
  have hpeak := edges_inStage_succ hpins hmagx hpend (i := .peak) rfl (congrArg _ (peak_inStage ps1 ..))
  have hdecide := edges_inStage_succ hpins hpeak hpend (i := .decide) rfl (congrArg _ (decideVerdict_inStage ps1 ..))
  have hseg := edges_inStage_succ hpins hdecide hpend (i := .seg) rfl (congrArg _ (segmentStep_inStage ps1 ..))
  exact edges_slide hpins hseg

/-- Settles O60: the first edge is the store, and the six that follow a full window are its analysis. -/
theorem multiCycleEqualsAtomic : Obligations.MultiCycleEqualsAtomic := by
  intro s hs hm hpend _ hpins
  refine ⟨fun hf => ?_, fun hf => ?_⟩
  · have hpush := execPush_of_lt s.sample (s := { s with stg := .idle }) hm (Nat.succ_lt_succ hf)
    have hedge := edges_write hs hpend hpins (hf.trans (by simp))
    rw [if_neg (by rw [ps1_n]; omega)] at hedge
    exact ⟨_, _, hedge, hpush, rfl⟩
  · have hpush := execPush_of_full s.sample (s := { s with stg := .idle }) hm (congrArg Nat.succ hf)
    have hedge := edges_write hs hpend hpins (by rw [ps1_n]; omega)
    rw [if_pos (by rw [ps1_n]; omega)] at hedge
    obtain ⟨t, ht, hchar⟩ := edges_analysis hpins (s := storeNext s.sample s) hpend hedge
    rw [storeNext_latched, analyse_inStage] at hpush
    exact ⟨t, _, ht, hpush, hchar⟩

end Sys2Proof.Machine
end

section
/-! SUPPORT. A store at an index outside `WIN` (spec/20_memory.md R50). -/

namespace Sys2Proof.Machine

theorem execWrite_of_outside {s : State} (hf : ps1.n ≤ s.fill.toNat) :
    execWrite s = .fault (.winIndex s.fill.toNat) := by
  rcases execWrite_cases s with ⟨h, -⟩ | ⟨-, e⟩
  · exact absurd hf (Nat.not_le.2 h)
  · exact e

theorem execPush_of_outside (x : Byte) {s : State} (hm : s.mode = .run) (hf : ps1.n ≤ s.fill.toNat) :
    execPush x s = .fault (.winIndex s.fill.toNat) := by
  rcases execPush_cases x s with ⟨h, -⟩ | ⟨-, h, -⟩ | ⟨-, h, -⟩ | ⟨-, -, e⟩
  · simp [hm] at h
  · omega
  · omega
  · exact e

/-- Settles O17: of the cases of a store, only the fault has `FILL` at 228 or more. -/
theorem writeOutsideWindowFaults : Obligations.WriteOutsideWindowFaults := fun _ x hf =>
  ⟨execWrite_of_outside hf, fun hm => execPush_of_outside x hm hf⟩

end Sys2Proof.Machine
end

section
/-! SUPPORT. The words of the block: the decoder and the encoder on the two fields of a command word, stage codes, stimulus
scripts and the verdict word (spec/30_encoding.md R71 to R77, R90 to R92). -/

namespace Sys2Proof

/-! ### The decoder and the encoder -/

/-- A concatenation as a number. -/
theorem toNat_append_eq_add {m n : ℕ} (x : BitVec m) (y : BitVec n) : (x ++ y).toNat = x.toNat * 2 ^ n + y.toNat := by
  rw [BitVec.toNat_append, ← Nat.shiftLeft_add_eq_or_of_lt y.isLt, Nat.shiftLeft_eq]

@[simp] theorem decodeCmd_cmdWord_nop (data : Byte) : decodeCmd (cmdWord 0#2 data) = .nop := by simp [decodeCmd]
@[simp] theorem decodeCmd_cmdWord_push (data : Byte) : decodeCmd (cmdWord 1#2 data) = .push data := by simp [decodeCmd]
@[simp] theorem decodeCmd_cmdWord_eos (data : Byte) : decodeCmd (cmdWord 2#2 data) = .eos := by simp [decodeCmd]
@[simp] theorem decodeCmd_cmdWord_reset (data : Byte) : decodeCmd (cmdWord 3#2 data) = .reset := by simp [decodeCmd]

/-- Every instruction is what its own word decodes to. -/
theorem decode_encode (i : Instr) : decode (encode i) = .ok i := by
  cases i with
  | nop | push | eos | reset => simp [encode, decode]
  | write | pdft | magx | peak | decide | seg | slide => rfl

/-- A stage code has no bits to spare. -/
theorem encode_of_decodeUop {c : StageCode} {i : Instr} (h : decodeUop c = .ok i) : encode i = .uop c := by
  rcases Bin.cases c with rfl | rfl | rfl | rfl | rfl | rfl | rfl | rfl <;> cases h <;> rfl

/-- Encoding a decoded command keeps `op`; it keeps `data` of a PUSH and clears it otherwise. -/
theorem encode_decodeCmd (w : CmdWord) : ∃ data, encode (decodeCmd w) = .cmd (cmdWord (opField w) data) ∧
    ((∃ x, decodeCmd w = .push x) → data = dataField w) ∧ ((∀ x, decodeCmd w ≠ .push x) → data = 0) := by
  rw [← cmdWord_fields w]
  generalize dataField w = data
  rcases Op.cases (opField w) with h | h | h | h <;> rw [h]
  case inr.inl => exact ⟨data, by simp [encode]⟩
  all_goals exact ⟨0, by simp [encode]⟩

/-- Settles O4: the decoder undoes the encoder, and the encoder keeps all of a word but an ignored `data` field. -/
theorem decodeEncodeRoundTrip : Obligations.DecodeEncodeRoundTrip := by
  refine ⟨decode_encode, fun c i h => encode_of_decodeUop h, fun w i h => ?_⟩
  cases h
  obtain ⟨data, he, hpush, hother⟩ := encode_decodeCmd w
  refine ⟨cmdWord (opField w) data, he, opField_cmdWord .., fun hp => ?_, fun ho => ?_⟩
  · rw [hpush hp, cmdWord_fields]
  · rw [dataField_cmdWord, hother ho]

/-- Settles O1, by evaluating the decoder and the encoder on the words of R92. -/
theorem workedWordsDecode : Obligations.WorkedWordsDecode := by
  unfold Obligations.WorkedWordsDecode; decide

/-- The mask of the opcode table leaves the operation code. -/
theorem cmdWord_and_mask (op : BitVec 2) (data : Byte) : cmdWord op data &&& 0x300 = cmdWord op 0 := by
  have hmask : (0x300 : CmdWord) = 3#2 ++ 0#8 := rfl
  have hop : op &&& 3#2 = op := BitVec.and_allOnes
  rw [cmdWord, hmask, BitVec.and_append, hop, BitVec.and_zero]; rfl

theorem cmdWord_setWidth (op : BitVec 2) (data : Byte) : (cmdWord op data).setWidth 8 = data :=
  (BitVec.setWidth_eq_extractLsb' (by decide)).trans (dataField_cmdWord op data)

/-- Settles O2: a word is its two fields, and its operation code is one of four. -/
theorem everyCommandWordIsOneCommand : Obligations.EveryCommandWordIsOneCommand := by
  refine ⟨fun w => ?_, fun data => by simp [decode], rfl, rfl, rfl⟩
  rw [← cmdWord_fields w, cmdWord_and_mask, cmdWord_setWidth]
  rcases Op.cases (opField w) with h | h | h | h <;> rw [h]
  · exact .inl ⟨rfl, by simp [decode]⟩
  · exact .inr (.inl ⟨rfl, by simp [decode]⟩)
  · exact .inr (.inr (.inl ⟨rfl, by simp [decode]⟩))
  · exact .inr (.inr (.inr ⟨rfl, by simp [decode]⟩))

/-! ### Stimulus scripts -/

theorem scriptWords_append (ls ms : List Line) : scriptWords (ls ++ ms) = scriptWords ls ++ scriptWords ms := by
  simp [scriptWords]

/-- The word of a PUSH as the sum `0x100 + byte`. -/
theorem cmdWord_push_ofNat {b : ℕ} (hb : b < 256) : cmdWord 1 (BitVec.ofNat 8 b) = BitVec.ofNat 10 (0x100 + b) := by
  apply BitVec.eq_of_toNat_eq
  rw [cmdWord, toNat_append_eq_add]
  simp only [BitVec.ofNat_eq_ofNat, BitVec.toNat_ofNat]
  omega

/-- A line that expands to PUSH commands puts their words on the port. -/
theorem scriptWords_of_pushes {l : Line} {bs : List ℕ} (hl : l.expand = bs.map fun b => .push (BitVec.ofNat 8 b))
    (hb : ∀ b ∈ bs, b < 256) : scriptWords [l] = bs.map fun b => BitVec.ofNat 10 (0x100 + b) := by
  have hword : ∀ b, commandWord? (.push (BitVec.ofNat 8 b)) = some (cmdWord 1 (BitVec.ofNat 8 b)) := fun _ => rfl
  simp only [scriptWords, List.flatMap_singleton, hl, List.filterMap_map, Function.comp_def, hword,
    List.filterMap_eq_map']
  exact List.map_congr_left fun b h => cmdWord_push_ofNat (hb b h)

/-- The table entry that PUSHT takes in place `i`. -/
theorem getElem?_cyclic {t : List ℕ} (ht : t ≠ []) (i : ℕ) : t[i % t.length]? = some (t.getD (i % t.length) 0) := by
  have h : i % t.length < t.length := Nat.mod_lt _ (List.length_pos_of_ne_nil ht)
  simp [h]

theorem Line.wf_pushT {t : List ℕ} {start count : ℕ} :
    (Line.pushT t start count).wf = true ↔ t ≠ [] ∧ ∀ b ∈ t, b < 256 := by
  simp [Line.wf]

/-- The words of a PUSHT. -/
theorem scriptWords_pushT {t : List ℕ} (ht : t ≠ []) (hb : ∀ b ∈ t, b < 256) (start count : ℕ) :
    scriptWords [.pushT t start count] =
      (List.range count).map fun i => BitVec.ofNat 10 (0x100 + t.getD ((start + i) % t.length) 0) := by
  have hmem : ∀ b ∈ (List.range count).map (fun i => t.getD ((start + i) % t.length) 0), b < 256 := by
    intro b h
    obtain ⟨i, -, rfl⟩ := List.mem_map.1 h
    exact hb _ (List.mem_of_getElem? (getElem?_cyclic ht _))
  rw [scriptWords_of_pushes (by simp [Line.expand]) hmem, List.map_map]; rfl

/-- Settles O5: every line but the three fixed ones is a list of PUSH commands. -/
theorem pseudoCommandsExpand : Obligations.PseudoCommandsExpand := by
  refine ⟨fun count b hb => ?_, fun bs hb => scriptWords_of_pushes rfl hb, fun t start count hwf => ?_,
    rfl, rfl, rfl, fun b hb => ?_, scriptWords_append⟩
  · rw [scriptWords_of_pushes (bs := List.replicate count b) (by simp [Line.expand])
      fun x hx => List.eq_of_mem_replicate hx ▸ hb, List.map_replicate]
  · obtain ⟨ht, hb⟩ := Line.wf_pushT.1 hwf
    rw [scriptWords_pushT ht hb]
    exact ⟨by simp, fun i hi => by rw [getElem?_cyclic ht]; simp [hi]⟩
  · exact scriptWords_of_pushes (bs := [b]) rfl (by simpa using hb)

namespace Machine

/-! ### The verdict word -/

/-- A pair of bins that names a symbol has one bin in each group; the index is `{row, col}`. -/
theorem pairIndex_eq_some {b1 b2 : Bin} {i : SymIndex} (h : pairIndex b1 b2 = some i) :
    ∃ row col : BitVec 2, i = row ++ col ∧
      ((b1.toNat = row.toNat ∧ b2.toNat = 4 + col.toNat) ∨ (b2.toNat = row.toNat ∧ b1.toNat = 4 + col.toNat)) := by
  have h1 := b1.isLt
  have h2 := b2.isLt
  simp only [pairIndex, Option.ite_none_right_eq_some, Option.some.injEq] at h
  obtain ⟨⟨hlo, hhi⟩, rfl⟩ := h
  refine ⟨BitVec.ofNat 2 (min b1.toNat b2.toNat), BitVec.ofNat 2 (max b1.toNat b2.toNat - 4), ?_, ?_⟩
  · apply BitVec.eq_of_toNat_eq
    rw [toNat_append_eq_add]
    simp only [BitVec.toNat_ofNat]
    omega
  · simp only [BitVec.toNat_ofNat]
    omega

/-- A digit verdict is the result of the pair lookup. -/
theorem pairIndex_of_verdictFor {p : Params} {b1 b2 : Bin} {m1 m2 : F64} {i : SymIndex}
    (h : verdictFor p b1 b2 m1 m2 = .digit i) : pairIndex b1 b2 = some i := by
  unfold verdictFor at h
  split at h
  · cases h
  · cases hp : pairIndex b1 b2 with
    | none => rw [hp] at h; cases h
    | some j => rw [hp] at h; cases h; rfl

theorem decideVerdict_rk (p : Params) (s : State) :
    (decideVerdict p s).rk = (verdictFor p s.top1 s.top2 (s.mag.get s.top1) (s.mag.get s.top2)).kind := rfl
theorem decideVerdict_rsym (p : Params) (s : State) :
    (decideVerdict p s).rsym = (verdictFor p s.top1 s.top2 (s.mag.get s.top1) (s.mag.get s.top2)).sym := rfl

/-- The kind 3 has no constructor. -/
theorem verdictWord_kind_ne_three (s : State) : (verdictWord s).extractLsb' 4 2 ≠ 0b11 := by
  rw [verdictWord, BitVec.extractLsb'_append_eq_left]
  cases s.rk <;> decide

/-- Settles O33, by the verdict that DECIDE has found. -/
theorem verdictWordFormat : Obligations.VerdictWordFormat := by
  intro s
  have hkind := verdictWord_kind_ne_three (decideVerdict ps1 s)
  refine ⟨decideVerdict ps1 s, rfl, ?_⟩
  simp only [verdictWord, decideVerdict_rk, decideVerdict_rsym] at hkind ⊢
  cases hv : verdictFor ps1 s.top1 s.top2 (s.mag.get s.top1) (s.mag.get s.top2) <;> rw [hv] at hkind
  case none => exact ⟨fun _ => rfl, nofun, nofun, hkind⟩
  case unknown => exact ⟨nofun, fun _ => rfl, nofun, hkind⟩
  case digit =>
    obtain ⟨row, col, rfl, hbins⟩ := pairIndex_eq_some (pairIndex_of_verdictFor hv)
    exact ⟨nofun, nofun, fun _ => ⟨row, col, BitVec.append_assoc', hbins⟩, hkind⟩

/-! ### Stage codes -/

/-- With the stage register idle no micro-operation runs. -/
theorem fetch_ne_stage {s : State} (hs : s.stg = .idle) (i : Instr) : fetch s ≠ .stage i := by
  have hd : decodeUop s.stg.code = .error .idleStage := by rw [hs]; rfl
  simp only [fetch, hd]
  split
  · simp
  · split
    · simp
    · split <;> simp

/-- Settles O3: each code by evaluation, and at an idle stage the edge goes to the host's side. -/
theorem stageCodesDecode : Obligations.StageCodesDecode :=
  ⟨rfl, rfl, rfl, rfl, rfl, rfl, rfl, rfl, rfl, rfl, rfl, rfl, rfl, rfl, rfl, rfl, fun _ hs => fetch_ne_stage hs⟩

end Machine
end Sys2Proof
end

section
/-! SUPPORT. The two ports at one edge: the command that is accepted, the waits, and the characters that appear
(spec/30_encoding.md R70 and R80, spec/40_commands.md R101). -/

namespace Sys2Proof.Machine

/-! ### The pins and the command port -/

theorem inReady_iff (s : State) :
    s.inReady = true ↔ s.pinsNow.rstN = true ∧ s.stg = .idle ∧ s.pend = none := by
  simp [State.inReady, and_assoc]

/-- An edge moves nothing but the ports. -/
theorem portEdge_frame (s : State) :
    portEdge s = { s with out := (portEdge s).out, pend := (portEdge s).pend, pins := s.pins.tail } := by
  unfold portEdge
  cases s.pinsNow.outReady <;> rfl

/-- A command offered to a ready block is executed within the edge. -/
theorem step_of_command {s : State} {w : CmdWord} {rest : List CmdWord} (hready : s.inReady = true)
    (hv : s.pinsNow.inValid = true) (hq : s.cmdq = w :: rest) :
    step s = exec (decodeCmd w) { s with cmdq := rest, pins := s.pins.tail } := by
  obtain ⟨hr, hs, hp⟩ := (inReady_iff s).1 hready
  rcases step_cases s with ⟨h, -⟩ | ⟨-, i, hi, -⟩ | ⟨-, -, -, -, w', rest', hq', e⟩ | ⟨-, -, h, -⟩
  · simp [hr] at h
  · rw [hs] at hi; cases hi
  · cases hq.symm.trans hq'; exact e
  · simp [hq, hp, hv] at h

/-- With no command to accept the edge of an idle block only moves the ports. -/
theorem step_of_wait {s : State} (hr : s.pinsNow.rstN = true) (hs : s.stg = .idle)
    (hw : s.cmdq = [] ∨ s.pinsNow.inValid = false ∨ s.pend ≠ none) : step s = .next (portEdge s) := by
  rcases step_cases s with ⟨h, -⟩ | ⟨-, i, hi, -⟩ | ⟨-, -, hp, hv, w, rest, hq, -⟩ | ⟨-, -, -, e⟩
  · simp [hr] at h
  · rw [hs] at hi; cases hi
  · simp [hp, hv, hq] at hw
  · exact e

/-- Settles O6: the block is ready, so the edge is that of an accepted command. -/
theorem stepRunsAcceptedCommand : Obligations.StepRunsAcceptedCommand := by
  intro s w rest i hr hv hs hp hq hi
  cases hi
  have hready := (inReady_iff s).2 ⟨hr, hs, hp⟩
  exact ⟨hready, step_of_command hready hv hq⟩

/-- Settles O9: the pins read the state, and a waiting edge is an edge of the character port alone. -/
theorem hostWaits : Obligations.HostWaits := by
  refine ⟨fun s => ⟨?_, ?_, Option.isSome_iff_exists, inReady_iff s⟩, fun s hr hs hw => ?_⟩
  · unfold State.donePin; cases s.mode <;> decide
  · unfold State.perrPin; cases s.perr <;> decide
  · have hport := portEdge_output s
    refine ⟨portEdge s, step_of_wait hr hs hw, portEdge_frame s, fun ho => ?_, fun ho => ?_⟩ <;>
      simpa [ho] using hport

/-! ### The characters on the port -/

/-- The pending character, if any, is one of the 18. -/
def PendInAlphabet (s : State) : Prop := ∀ c, s.pend = some c → c ∈ alphabet

theorem symrom_mem_alphabet (i : SymIndex) : symrom i ∈ alphabet := by revert i; decide

/-- SEG emits digits, `?` and newlines only. -/
theorem segWindow_emitted_mem (v : Verdict) (det : DetState) (sil : Byte) :
    ∀ c ∈ (segWindow ps1 v det sil).emitted, c ∈ alphabet := by
  intro c hc
  rcases segWindow_cases (p := ps1) (by decide) v det sil with ⟨i, -, e⟩ | ⟨-, e⟩ | ⟨-, e⟩ <;> rw [e] at hc <;>
    dsimp only at hc
  · split at hc <;> simp only [List.mem_singleton, List.not_mem_nil] at hc
    exact hc ▸ symrom_mem_alphabet i
  · rw [List.mem_singleton.1 hc]; decide
  · split at hc <;> simp only [List.mem_singleton, List.not_mem_nil] at hc
    rw [hc]; decide

theorem pendInAlphabet_emitAll {cs : List Byte} {s : State} (hcs : ∀ c ∈ cs, c ∈ alphabet) (h : PendInAlphabet s) :
    PendInAlphabet (emitAll cs s) := by
  induction cs generalizing s with
  | nil => exact h
  | cons c cs ih =>
    obtain ⟨hc, hcs⟩ := List.forall_mem_cons.1 hcs
    exact ih hcs (s := emit c s) fun _ he => Option.some.inj he ▸ hc

theorem pendInAlphabet_segmentStep {s : State} (h : PendInAlphabet s) : PendInAlphabet (segmentStep ps1 s) :=
  pendInAlphabet_emitAll (segWindow_emitted_mem _ _ _) h

/-- No instruction leaves another character pending: SEG alone emits. -/
theorem exec_pendInAlphabet {i : Instr} {s t : State} (h : PendInAlphabet s) (ht : exec i s = .next t) :
    PendInAlphabet t := by
  cases i with
  | push x =>
    rcases execPush_cases x s with ⟨-, e⟩ | ⟨-, -, e⟩ | ⟨-, -, e⟩ | ⟨-, -, e⟩ <;> cases e.symm.trans ht
    · exact h
    · exact h
    · exact pendInAlphabet_segmentStep (s := decided ps1 (storeNext x (latchSample x s))) h
  | write =>
    rcases execWrite_cases s with ⟨-, e⟩ | ⟨-, e⟩ <;> cases e.symm.trans ht
    exact h
  | seg => cases ht; exact pendInAlphabet_segmentStep h
  | reset => cases ht; exact fun _ hc => nomatch hc
  | nop | eos | pdft | magx | peak | decide | slide => cases ht; exact h

theorem pendInAlphabet_portEdge {s : State} (h : PendInAlphabet s) : PendInAlphabet (portEdge s) := by
  unfold portEdge
  cases s.pinsNow.outReady
  · exact h
  · exact fun _ hc => nomatch hc

/-- No edge puts another character on the port. -/
theorem step_pendInAlphabet {s t : State} (h : PendInAlphabet s) (ht : step s = .next t) : PendInAlphabet t := by
  rcases step_cases s with ⟨-, e⟩ | ⟨-, i, -, e⟩ | ⟨-, -, -, -, w, rest, -, e⟩ | ⟨-, -, -, e⟩ <;> rw [e] at ht
  · cases ht; exact fun _ hc => nomatch hc
  · obtain ⟨u, hu, rfl⟩ := advanceStage_eq_next ht
    have hpend : PendInAlphabet u := exec_pendInAlphabet (pendInAlphabet_portEdge h) hu
    exact hpend
  · exact exec_pendInAlphabet (s := { s with cmdq := rest, pins := s.pins.tail }) h ht
  · cases ht; exact pendInAlphabet_portEdge h

/-- Settles O54, by what one edge leaves pending. -/
theorem onlyTheAlphabetIsEmitted : Obligations.OnlyTheAlphabetIsEmitted :=
  ⟨by decide, by decide, fun _ _ ht h => step_pendInAlphabet h ht, rfl⟩

end Sys2Proof.Machine
end

section
/-! SUPPORT. The four commands (spec/40_commands.md): what each completes with, that nothing stops a run that meets the
invariant, and that a host which is always ready is served. -/

namespace Sys2Proof.Machine

/-! ### NOP, EOS, a PUSH in mode `DONE`, and the pin -/

theorem execAll_replicate_nop (k : ℕ) (s : State) : execAll (List.replicate k .nop) s = .next s := by
  induction k with
  | zero => rfl
  | succ k ih => exact ih

/-- Settles O11, by induction on the number of NOPs. -/
theorem nopKeepsEverything : Obligations.NopKeepsEverything :=
  fun s => ⟨rfl, fun k => execAll_replicate_nop k s⟩

/-- Settles O13: of the cases of a PUSH only the `ProtocolError` is in mode `DONE`. -/
theorem pushInDone : Obligations.PushInDone := fun _ x hm => execPush_of_done x hm

/-- Settles O14: the two registers EOS writes, which a second one finds written. -/
theorem eosEndsTheStream : Obligations.EosEndsTheStream := fun _ => ⟨rfl, rfl⟩

/-- Settles O8: with `rst_n` low the edge is a reset, which the command performs in the same way. -/
theorem hardResetWins : Obligations.HardResetWins := by
  intro s hr
  refine ⟨by simp [State.inReady, hr], hardReset s, resetBlock s, step_of_reset hr, rfl, ?_⟩
  exact ⟨rfl, rfl, rfl, rfl, rfl, rfl, rfl, rfl, rfl⟩

/-! ### A PUSH in mode `RUN` -/

/-- SEG emits at most one character on a window. -/
theorem segWindow_emitted_length {p : Params} (hp : 1 ≤ p.silThreshold) (v : Verdict) (det : DetState) (sil : Byte) :
    (segWindow p v det sil).emitted.length ≤ 1 := by
  rcases segWindow_cases hp v det sil with ⟨i, -, e⟩ | ⟨-, e⟩ | ⟨-, e⟩ <;> rw [e] <;> dsimp only
  · split <;> simp
  · simp
  · split <;> simp

/-- The store of WRITE on its own, with the sample latched. -/
theorem execWrite_latched (x : Byte) {s : State} (hf : s.fill.toNat < ps1.n) :
    execWrite { s with sample := x } = .next (storeNext x (latchSample x s)) := by
  rcases execWrite_cases { s with sample := x } with ⟨-, e⟩ | ⟨h, -⟩
  · exact e
  · exact absurd hf (Nat.not_lt.2 h)

/-- The seven micro-operations, run one after another, are the store and the analysis (R104). -/
theorem execAll_microOps (x : Byte) {s : State} (hf : s.fill.toNat < ps1.n) :
    execAll [.write, .pdft, .magx, .peak, .decide, .seg, .slide] { s with sample := x } =
      .next (analyse ps1 (storeNext x (latchSample x s))) := by
  simp only [execAll, exec, execWrite_latched x hf, execPdft, execMagx, execPeak, execDecide, execSeg, execSlide, analyse]

/-- Settles O12: the two cases of a PUSH in mode `RUN`, each against its micro-operations. -/
theorem pushInRun : Obligations.PushInRun := by
  intro s x hm hwf
  refine ⟨fun hf => ⟨storeNext x (latchSample x s), ?_, ?_, rfl, fun i => Memory.read_write hwf⟩, fun hf => ?_⟩
  · exact execPush_of_lt x hm (Nat.succ_lt_succ hf)
  · simp only [execAll, exec, execWrite_latched x (s := s) (by rw [ps1_n]; omega)]
  · refine ⟨analyse ps1 (storeNext x (latchSample x s)), execPush_of_full x hm (congrArg Nat.succ hf),
      execAll_microOps x (by rw [ps1_n]; omega), rfl, fun i hi => ?_, by simp, by simp [hm], by simp, by simp, by simp,
      by simp, _, segWindow_emitted_length (by decide) _ _ _, analyse_OUT ps1 _⟩
    rw [analyse_win, storeNext_win, latchSample_win, latchSample_fill, hf, slideMemory_read ps1 (Memory.wf_write hwf),
      if_pos (by simpa using hi), Memory.read_write hwf, ps1_shift]
    exact if_congr (by omega) rfl rfl

/-! ### Progress -/

/-- Every command completes while `FILL` is an index of the window. -/
theorem exec_decodeCmd_completes (w : CmdWord) {s : State} (hf : s.fill.toNat < ps1.n) :
    ∃ t, exec (decodeCmd w) s = .next t := by
  unfold decodeCmd
  split
  · exact ⟨_, rfl⟩
  · rcases execPush_cases (dataField w) s with ⟨-, e⟩ | ⟨-, -, e⟩ | ⟨-, -, e⟩ | ⟨-, hf', -⟩
    · exact ⟨_, e⟩
    · exact ⟨_, e⟩
    · exact ⟨_, e⟩
    · exact absurd hf (Nat.not_lt.2 hf')
  · exact ⟨_, rfl⟩
  · exact ⟨_, rfl⟩

/-- Every micro-operation completes in its stage: WRITE alone could fault, and its stage has `FILL` below 228. -/
theorem exec_decodeUop_completes {i : Instr} {s : State} (h : StageFits s) (hi : decodeUop s.stg.code = .ok i) :
    ∃ t, exec i s = .next t := by
  cases hs : s.stg with
  | idle => rw [hs] at hi; cases hi
  | write =>
    rw [hs] at hi; cases hi
    simp only [StageFits, hs] at h
    rcases execWrite_cases s with ⟨-, e⟩ | ⟨hf, -⟩
    · exact ⟨_, e⟩
    · exact absurd h.1 (Nat.not_lt.2 hf)
  | pdft | magx | peak | decide | seg | slide => rw [hs] at hi; cases hi; exact ⟨_, rfl⟩

/-- An idle block holds fewer than 228 samples. -/
theorem Inv.fill_lt {s : State} (h : Inv s) (hs : s.stg = .idle) : s.fill.toNat < ps1.n := by
  simpa only [StageFits, hs] using h.stage

/-- From a state of a run every edge leads to a state of a run. -/
theorem step_next_inv {s : State} (h : Inv s) : ∃ t, step s = .next t ∧ Inv t := by
  suffices hnext : ∃ t, step s = .next t from hnext.imp fun t ht => ⟨ht, stepKeepsInvariant s t h ht⟩
  rcases step_cases s with ⟨-, e⟩ | ⟨-, i, hi, e⟩ | ⟨-, hs, -, -, w, rest, -, e⟩ | ⟨-, -, -, e⟩ <;> rw [e]
  · exact ⟨_, rfl⟩
  · obtain ⟨t, ht⟩ := exec_decodeUop_completes (inv_portEdge h).stage (by rwa [portEdge_stg])
    exact ⟨_, congrArg advanceStage ht⟩
  · exact exec_decodeCmd_completes w (h.fill_lt hs)
  · exact ⟨_, rfl⟩

theorem edges_next_inv (k : ℕ) {s : State} (h : Inv s) : ∃ t, edges k s = .next t ∧ Inv t := by
  induction k generalizing s with
  | zero => exact ⟨s, rfl, h⟩
  | succ k ih =>
    obtain ⟨t, ht, hinv⟩ := step_next_inv h
    rw [edges_succ, ht]
    exact ih hinv

/-- Settles O50: by induction on the edges, and command by command. -/
theorem nothingStopsTheBlock : Obligations.NothingStopsTheBlock :=
  ⟨fun k _ h => edges_next_inv k h, fun w _ h hs => exec_decodeCmd_completes w (h.fill_lt hs)⟩

/-! ### A host that is always ready -/

/-- A block at rest in a run, before a host that is ready at every edge to come. -/
structure ReadyAtRest (s : State) : Prop where
  inv : Inv s
  idle : s.stg = .idle
  ready : s.pins = []

/-- The edges a ready host needs at most: one for each command, and one for each character pending or to come. -/
def workLeft (s : State) : ℕ := 2 * s.cmdq.length + s.pend.toList.length

theorem workLeft_le (s : State) : workLeft s ≤ 2 * s.cmdq.length + 1 := by
  unfold workLeft
  cases s.pend <;> simp

theorem workLeft_eq_zero {s : State} : workLeft s = 0 ↔ s.cmdq = [] ∧ s.pend = none := by
  simp [workLeft]

/-- A ready host takes what is pending. -/
theorem portEdge_pend_of_ready {s : State} (h : s.pins = []) : (portEdge s).pend = none := by
  simp [portEdge, State.pinsNow, h, Pins.ready]

/-- Before a ready host every edge accepts a command or takes the pending character, as long as there is one. -/
theorem step_workLeft {s : State} (h : ReadyAtRest s) :
    ∃ t, step s = .next t ∧ ReadyAtRest t ∧ workLeft t ≤ workLeft s - 1 := by
  obtain ⟨hinv, hidle, hready⟩ := h
  have hnow : s.pinsNow = Pins.ready := by rw [State.pinsNow, hready]; rfl
  obtain ⟨t, ht, htinv⟩ := step_next_inv hinv
  refine ⟨t, ht, ?_⟩
  rcases step_cases s with ⟨hr, -⟩ | ⟨-, i, hi, -⟩ | ⟨-, -, -, -, w, rest, hq, e⟩ | ⟨-, -, hwait, e⟩
  · simp [hnow, Pins.ready] at hr
  · rw [hidle] at hi; cases hi
  · rw [e] at ht
    obtain ⟨-, -, -, -, -, -, hcmdq, hpins⟩ := onlyTheNamedWritersWrite _ _ _ ht
    have hle := workLeft_le t
    rw [hcmdq] at hle
    refine ⟨⟨htinv, exec_stg_idle ht hidle, by simp [hpins, hready]⟩, hle.trans ?_⟩
    simp only [workLeft, hq, List.length_cons]
    omega
  · cases e.symm.trans ht
    refine ⟨⟨htinv, by simp [hidle], by simp [hready]⟩, ?_⟩
    simp only [workLeft, portEdge_cmdq, portEdge_pend_of_ready hready]
    cases hp : s.pend with
    | none => simp [hp, hnow, Pins.ready] at hwait; simp [hwait]
    | some c => simp

theorem edges_workLeft (k : ℕ) {s : State} (h : ReadyAtRest s) :
    ∃ t, edges k s = .next t ∧ ReadyAtRest t ∧ workLeft t ≤ workLeft s - k := by
  induction k generalizing s with
  | zero => exact ⟨s, rfl, h, le_rfl⟩
  | succ k ih =>
    obtain ⟨t, ht, hrest, hle⟩ := step_workLeft h
    obtain ⟨u, hu, hrest', hle'⟩ := ih hrest
    refine ⟨u, ?_, hrest', by omega⟩
    rw [edges_succ, ht]
    exact hu

/-- Settles O59: the work left falls at every edge, and is at most `2*L + 1` at the start. -/
theorem readyHostIsServed : Obligations.ReadyHostIsServed := by
  intro s hinv hidle hready
  obtain ⟨t, ht, hrest, hle⟩ := edges_workLeft (2 * s.cmdq.length + 1) ⟨hinv, hidle, hready⟩
  have hstart := workLeft_le s
  obtain ⟨hcmdq, hpend⟩ := workLeft_eq_zero.1 (by omega : workLeft t = 0)
  exact ⟨t, ht, hcmdq, hpend, hrest.idle⟩

end Sys2Proof.Machine
end

section
/-! SUPPORT. A stream of samples (spec/45_window_buffer.md R215): what the window holds after each command, and the output as
the segmentation of the verdicts on its windows. -/

namespace Sys2Proof.Machine

/-! ### The windows of a stream, sample by sample -/

/-- The number of windows without its case split: the first window needs the 152 samples that the later ones share. -/
theorem windowCount_eq (len : ℕ) : windowCount len = (len - 152) / 76 := by
  unfold windowCount
  rw [ps1_shift]
  split <;> rw [ps1_n] at * <;> omega

/-- One sample more completes a window exactly when it is the last of the next one. -/
theorem windowCount_concat (xs : List Byte) (x : Byte) :
    windowCount (xs ++ [x]).length =
      windowCount xs.length + if xs.length = 76 * windowCount xs.length + 227 then 1 else 0 := by
  rw [List.length_append, List.length_singleton, windowCount_eq, windowCount_eq]
  split <;> omega

/-- A window lies within its stream. -/
theorem window_within {len j : ℕ} (hj : j < windowCount len) : 76 * j + 228 ≤ len := by
  rw [windowCount_eq] at hj
  omega

/-- The elements of window `j`. -/
theorem windowAt_read (xs : List Byte) (j : ℕ) {n : ℕ} (hn : n < ps1.n) :
    (windowAt xs j).read n = xs.getD (ps1.shift * j + n) 0 := by
  unfold windowAt
  rw [(Memory.fold_write_spec (fun n => xs.getD (ps1.shift * j + n) 0) [] rfl ps1.n).2 n, if_pos hn]

/-- The verdict on a complete window does not depend on the samples after it. -/
theorem verdictOfWindow_windowAt_append (xs ys : List Byte) {j : ℕ} (hj : j < windowCount xs.length) :
    verdictOfWindow ps1 (windowAt (xs ++ ys) j) = verdictOfWindow ps1 (windowAt xs j) := by
  refine verdictOfWindow_congr ps1 fun n hn => ?_
  have hwithin := window_within hj
  rw [windowAt_read _ _ hn, windowAt_read _ _ hn, List.getD_append]
  rw [ps1_n] at hn
  rw [ps1_shift]
  omega

/-- One sample more adds the verdict on the window it completes, if any. -/
theorem streamVerdicts_concat (xs : List Byte) (x : Byte) :
    streamVerdicts (xs ++ [x]) = streamVerdicts xs ++
      if xs.length = 76 * windowCount xs.length + 227 then
        [verdictOfWindow ps1 (windowAt (xs ++ [x]) (windowCount xs.length))]
      else [] := by
  have hold : (List.range (windowCount xs.length)).map (fun j => verdictOfWindow ps1 (windowAt (xs ++ [x]) j)) =
      streamVerdicts xs :=
    List.map_congr_left fun j hj => verdictOfWindow_windowAt_append xs [x] (List.mem_range.1 hj)
  rw [streamVerdicts, windowCount_concat]
  split
  · rw [List.range_succ, List.map_append, hold, List.map_singleton]
  · rw [Nat.add_zero, hold, List.append_nil]

/-! ### The segmentation machine on one verdict more -/

theorem segRun_concat (p : Params) (vs : List Verdict) (v : Verdict) (det : DetState) (sil : Byte) :
    segRun p (vs ++ [v]) det sil =
      { segWindow p v (segRun p vs det sil).det (segRun p vs det sil).sil with
        emitted := (segRun p vs det sil).emitted ++
          (segWindow p v (segRun p vs det sil).det (segRun p vs det sil).sil).emitted } := by
  induction vs generalizing det sil with
  | nil => simp [segRun]
  | cons w vs ih => simp [segRun, ih, List.append_assoc]

/-! ### The block after each command of a stream -/

/-- The `fill` elements of the window are the last samples of a stream, in order from the start of window `j`. -/
structure HoldsFrom (xs : List Byte) (j : ℕ) (m : Memory) (fill : ℕ) : Prop where
  length : fill + 76 * j = xs.length
  read : ∀ i < fill, m.read i = xs.getD (76 * j + i) 0

/-- A store puts the sample after those held before. -/
theorem holdsFrom_write {xs : List Byte} {j : ℕ} {m : Memory} {fill : ℕ} (h : HoldsFrom xs j m fill) (hwf : m.wf = true)
    (x : Byte) : HoldsFrom (xs ++ [x]) j (m.write fill x) (fill + 1) := by
  obtain ⟨hlen, hread⟩ := h
  refine ⟨by rw [List.length_append, List.length_singleton]; omega, fun i hi => ?_⟩
  rw [Memory.read_write hwf]
  split
  · simp [show 76 * j + i = xs.length by omega]
  · rw [hread i (by omega), List.getD_append _ _ _ _ (by omega)]

/-- SLIDE moves a full window on to the next. -/
theorem holdsFrom_slideMemory {xs : List Byte} {j : ℕ} {m : Memory} (h : HoldsFrom xs j m ps1.n) (hwf : m.wf = true) :
    HoldsFrom xs (j + 1) (slideMemory ps1 m) ps1.keep := by
  obtain ⟨hlen, hread⟩ := h
  rw [ps1_n] at hlen hread
  refine ⟨by rw [ps1_keep]; omega, fun i hi => ?_⟩
  rw [slideMemory_read ps1 hwf, if_pos hi, ps1_shift]
  rw [ps1_keep] at hi
  rw [hread _ (by omega), show 76 * j + (i + 76) = 76 * (j + 1) + i by omega]

/-- The verdict on a full window. -/
theorem holdsFrom_verdict {xs : List Byte} {j : ℕ} {m : Memory} (h : HoldsFrom xs j m ps1.n) :
    verdictOfWindow ps1 m = verdictOfWindow ps1 (windowAt xs j) :=
  verdictOfWindow_congr ps1 fun n hn => (h.read n hn).trans (windowAt_read xs j hn).symm

/-- The detection state and the output are those of the segmentation machine fed the verdicts `vs` from `s₀`. -/
structure Segmented (s₀ : State) (vs : List Verdict) (s : State) : Prop where
  out : s.OUT = s₀.OUT ++ (segRun ps1 vs s₀.det s₀.sil).emitted
  det : s.det = (segRun ps1 vs s₀.det s₀.sil).det
  sil : s.sil = (segRun ps1 vs s₀.det s₀.sil).sil

/-- An analysis feeds the segmentation machine the verdict on the window. -/
theorem segmented_analyse {s₀ s : State} {vs : List Verdict} (h : Segmented s₀ vs s) :
    Segmented s₀ (vs ++ [verdictOfWindow ps1 s.win]) (analyse ps1 s) := by
  obtain ⟨hout, hdet, hsil⟩ := h
  constructor <;> simp [decided_verdict, segRun_concat, hout, hdet, hsil]

/-- The block in mode `RUN` after a stream `xs` that found it in `s₀` with an empty window. -/
structure AfterStream (s₀ : State) (xs : List Byte) (s : State) : Prop where
  run : s.mode = .run
  wf : s.win.wf = true
  fill_lt : s.fill.toNat < ps1.n
  holds : HoldsFrom xs (windowCount xs.length) s.win s.fill.toNat
  segmented : Segmented s₀ (streamVerdicts xs) s

/-- The stream of no sample. -/
theorem afterStream_nil {s : State} (hm : s.mode = .run) (hf : s.fill = 0) (hwf : s.win.wf = true) :
    AfterStream s [] s :=
  ⟨hm, hwf, by simp [hf], ⟨by simp [hf, windowCount], by simp [hf]⟩,
    ⟨(List.append_nil _).symm, rfl, rfl⟩⟩

/-- A sample that does not fill the window is stored. -/
theorem afterStream_storeNext {s₀ s : State} {xs : List Byte} (h : AfterStream s₀ xs s) (x : Byte)
    (hf : s.fill.toNat + 1 < ps1.n) : AfterStream s₀ (xs ++ [x]) (storeNext x (latchSample x s)) := by
  have hlast : ¬ xs.length = 76 * windowCount xs.length + 227 := by
    have hlen := h.holds.length
    rw [ps1_n] at hf
    omega
  have hfill := storeNext_fill_toNat (s := latchSample x s) x h.fill_lt
  refine ⟨h.run, Memory.wf_write h.wf, hfill.trans_lt hf, ?_, ?_⟩
  · rw [hfill, windowCount_concat, if_neg hlast]
    exact holdsFrom_write h.holds h.wf x
  · rw [streamVerdicts_concat, if_neg hlast, List.append_nil]
    exact { h.segmented with }

/-- A sample that fills the window is stored, and the window analysed and moved on. -/
theorem afterStream_analyse {s₀ s : State} {xs : List Byte} (h : AfterStream s₀ xs s) (x : Byte)
    (hf : s.fill.toNat + 1 = ps1.n) :
    AfterStream s₀ (xs ++ [x]) (analyse ps1 (storeNext x (latchSample x s))) := by
  have hlast : xs.length = 76 * windowCount xs.length + 227 := by
    have hlen := h.holds.length
    rw [ps1_n] at hf
    omega
  have hwf : (storeNext x (latchSample x s)).win.wf = true := Memory.wf_write h.wf
  have hfull : HoldsFrom (xs ++ [x]) (windowCount xs.length) (storeNext x (latchSample x s)).win ps1.n :=
    hf ▸ holdsFrom_write h.holds h.wf x
  refine ⟨by simpa using h.run, by rw [analyse_win]; exact slideMemory_wf ps1 hwf, by simp, ?_, ?_⟩
  · rw [windowCount_concat, if_pos hlast, analyse_win]
    exact holdsFrom_slideMemory hfull hwf
  · rw [streamVerdicts_concat, if_pos hlast, ← holdsFrom_verdict hfull]
    exact segmented_analyse { h.segmented with }

/-- A PUSH is one sample more of the stream. -/
theorem afterStream_execPush {s₀ s : State} {xs : List Byte} (h : AfterStream s₀ xs s) (x : Byte) :
    ∃ t, execPush x s = .next t ∧ AfterStream s₀ (xs ++ [x]) t := by
  rcases (Nat.succ_le_of_lt h.fill_lt).lt_or_eq with hf | hf
  · exact ⟨_, execPush_of_lt x h.run hf, afterStream_storeNext h x hf⟩
  · exact ⟨_, execPush_of_full x h.run hf, afterStream_analyse h x hf⟩

/-- Any commands of a stream, from a point within it. -/
theorem afterStream_execAll {s₀ s : State} {xs : List Byte} {is : List Instr} (h : AfterStream s₀ xs s)
    (his : ∀ i ∈ is, Feeds i) : ∃ t, execAll is s = .next t ∧ AfterStream s₀ (xs ++ samplesOf is) t := by
  induction is generalizing xs s with
  | nil => exact ⟨s, rfl, by simpa [samplesOf] using h⟩
  | cons i is ih =>
    obtain ⟨hi, hrest⟩ := List.forall_mem_cons.1 his
    rcases hi with rfl | ⟨x, rfl⟩
    · exact ih h hrest
    · obtain ⟨t, ht, hafter⟩ := afterStream_execPush h x
      obtain ⟨u, hu, hend⟩ := ih hafter hrest
      refine ⟨u, ?_, by simpa [samplesOf] using hend⟩
      simp only [execAll, exec, ht, hu]

/-- Settles O57, by induction on the commands: each keeps what the block holds of the stream. -/
theorem streamOutputIsTheSegmentedVerdicts : Obligations.StreamOutputIsTheSegmentedVerdicts := by
  intro is s hm hf hwf his
  obtain ⟨t, ht, hend⟩ := afterStream_execAll (afterStream_nil hm hf hwf) his
  obtain ⟨hout, hdet, hsil⟩ := hend.segmented
  exact ⟨t, ht, hout, hdet, hsil⟩

end Sys2Proof.Machine
end

section
/-! SUPPORT. The harmonic table and the pair lookup (spec/41_harmonic_table.md): the indices grow with their bins, the centre
of a bin, and what the lookup finds, on integers and on bins. -/

namespace Sys2Proof.Machine

/-! ### The harmonic table -/

/-- The harmonic indices grow with the bin, so the order of two of them is the order of their bins. -/
theorem krom_le_krom_iff {a b : Bin} : krom a ≤ krom b ↔ a.toNat ≤ b.toNat := by
  revert a b; decide

theorem krom_inj_iff {a b : Bin} : krom a = krom b ↔ a.toNat = b.toNat := by
  simp only [le_antisymm_iff, krom_le_krom_iff]

theorem min_krom_eq_iff {a b c : Bin} : min (krom a) (krom b) = krom c ↔ min a.toNat b.toNat = c.toNat := by
  rcases le_total a.toNat b.toNat with h | h
  · rw [min_eq_left h, min_eq_left (krom_le_krom_iff.2 h), krom_inj_iff]
  · rw [min_eq_right h, min_eq_right (krom_le_krom_iff.2 h), krom_inj_iff]

theorem max_krom_eq_iff {a b c : Bin} : max (krom a) (krom b) = krom c ↔ max a.toNat b.toNat = c.toNat := by
  rcases le_total a.toNat b.toNat with h | h
  · rw [max_eq_right h, max_eq_right (krom_le_krom_iff.2 h), krom_inj_iff]
  · rw [max_eq_left h, max_eq_left (krom_le_krom_iff.2 h), krom_inj_iff]

/-- The frequency of a harmonic in thousandths of a Hz, by integer division. -/
theorem floor_harmonicFrequency_mul_thousand (p : Params) (k : ℕ) :
    ⌊harmonicFrequency p k * 1000⌋ = (k * p.fs * 1000 : ℤ) / p.n := by
  rw [harmonicFrequency, div_mul_eq_mul_div]
  simpa using Rat.floor_intCast_div_natCast (k * p.fs * 1000) p.n

theorem map_freq_bins : bins.map ps1.freq = [697, 770, 852, 941, 1209, 1336, 1477, 1633] := rfl

/-- Settles O36: the tables by evaluation, the quotients and the bin centres as rational numbers. -/
theorem harmonicTableRounded : Obligations.HarmonicTableRounded := by
  refine ⟨by decide, by decide, ?quotients, by decide, ?centres⟩
  case quotients =>
    have hmap : (bins.map fun b => (ps1.freq b : ℚ) * 57 / 2000) =
        (bins.map ps1.freq).map fun f : ℕ => (f : ℚ) * 57 / 2000 := by rw [List.map_map]; rfl
    rw [hmap, map_freq_bins]
    norm_num
  case centres =>
    simp only [floor_harmonicFrequency_mul_thousand]
    decide

/-! ### The bins of a row and a column -/

theorem toNat_ofNat_row {row : ℕ} (h : row < 4) : (BitVec.ofNat 3 row).toNat = row := by
  rw [BitVec.toNat_ofNat, Nat.mod_eq_of_lt (by omega)]

theorem toNat_ofNat_col {col : ℕ} (h : col < 4) : (BitVec.ofNat 3 (col + 4)).toNat = col + 4 := by
  rw [BitVec.toNat_ofNat, Nat.mod_eq_of_lt (by omega)]

/-- The lookup on bins finds a symbol exactly where the lower bin is a row and the higher one a column. -/
theorem pairIndex_eq_some_iff {b1 b2 : Bin} {i : SymIndex} : pairIndex b1 b2 = some i ↔
    ∃ row col : ℕ, row < 4 ∧ col < 4 ∧ min b1.toNat b2.toNat = row ∧ max b1.toNat b2.toNat = col + 4 ∧
      i = BitVec.ofNat 4 (4 * row + col) := by
  have h1 := b1.isLt
  have h2 := b2.isLt
  simp only [pairIndex, Option.ite_none_right_eq_some, Option.some.injEq]
  constructor
  · rintro ⟨⟨hlo, hhi⟩, rfl⟩
    exact ⟨_, max b1.toNat b2.toNat - 4, by omega, by omega, rfl, by omega, rfl⟩
  · rintro ⟨row, col, hrow, hcol, hmin, hmax, rfl⟩
    rw [hmin, hmax, Nat.add_sub_cancel]
    exact ⟨by omega, rfl⟩

/-- Settles O37: the codes by evaluation, the index by the row and the column of the two bins. -/
theorem symbolTable : Obligations.SymbolTable := by
  refine ⟨by decide, fun row col hrow hcol => pairIndex_eq_some_iff.2 ⟨row, col, hrow, hcol, ?_⟩⟩
  rw [toNat_ofNat_row hrow, toNat_ofNat_col hcol]
  exact ⟨by omega, by omega, rfl⟩

/-! ### The lookup on integers -/

/-- The search among four bins from `o` on finds the one of a harmonic. -/
theorem find?_krom_eq_some_iff {o i : ℕ} {x : ℤ} (_ : o ≤ 4) :
    [0, 1, 2, 3].find? (fun r => ((krom (BitVec.ofNat 3 (r + o)) : ℕ) : ℤ) == x) = some i ↔
      i < 4 ∧ x = krom (BitVec.ofNat 3 (i + o)) := by
  rw [show [0, 1, 2, 3] = List.range 4 from rfl, List.find?_range_eq_some]
  simp only [beq_iff_eq, List.mem_range, Bool.not_eq_true', beq_eq_false_iff_ne]
  constructor
  · rintro ⟨rfl, hi, -⟩
    exact ⟨hi, rfl⟩
  · rintro ⟨hi, rfl⟩
    refine ⟨rfl, hi, fun j hj hk => ?_⟩
    rw [Nat.cast_inj, krom_inj_iff, BitVec.toNat_ofNat, BitVec.toNat_ofNat] at hk
    omega

/-- The lookup on integers finds a symbol exactly where the smaller one is the harmonic of a row and the larger one of a
column. -/
theorem digitForHarmonicPair_eq_some_iff {h1 h2 : ℤ} {x : Byte} : digitForHarmonicPair ps1 h1 h2 = some x ↔
    ∃ row col : ℕ, row < 4 ∧ col < 4 ∧ min h1 h2 = krom (BitVec.ofNat 3 row) ∧
      max h1 h2 = krom (BitVec.ofNat 3 (col + 4)) ∧ x = symrom (BitVec.ofNat 4 (4 * row + col)) := by
  have hrow (i : ℕ) := find?_krom_eq_some_iff (i := i) (x := min h1 h2) (Nat.zero_le 4)
  have hcol (i : ℕ) := find?_krom_eq_some_iff (i := i) (x := max h1 h2) le_rfl
  simp only [digitForHarmonicPair, ps1_k, ps1_sym]
  constructor
  · intro h
    split at h
    next row col hr hc =>
      obtain ⟨hr4, hmin⟩ := (hrow row).1 hr
      obtain ⟨hc4, hmax⟩ := (hcol col).1 hc
      exact ⟨row, col, hr4, hc4, hmin, hmax, (Option.some.inj h).symm⟩
    next => cases h
  · rintro ⟨row, col, hr4, hc4, hmin, hmax, rfl⟩
    have hr := (hrow row).2 ⟨hr4, hmin⟩
    have hc := (hcol col).2 ⟨hc4, hmax⟩
    simp only [Nat.add_zero] at hr
    rw [hr, hc]

theorem digitForHarmonicPair_comm (p : Params) (h1 h2 : ℤ) :
    digitForHarmonicPair p h1 h2 = digitForHarmonicPair p h2 h1 := by
  rw [digitForHarmonicPair, digitForHarmonicPair, min_comm, max_comm]

/-- The two forms agree, because the indices grow with the bins (R126). -/
theorem digitForHarmonicPair_krom (b1 b2 : Bin) :
    digitForHarmonicPair ps1 (krom b1) (krom b2) = (pairIndex b1 b2).map symrom := by
  ext x
  simp only [digitForHarmonicPair_eq_some_iff, Option.map_eq_some_iff, pairIndex_eq_some_iff, ← Nat.cast_min, ← Nat.cast_max,
    Nat.cast_inj, min_krom_eq_iff, max_krom_eq_iff]
  constructor
  · rintro ⟨row, col, hrow, hcol, hmin, hmax, rfl⟩
    rw [toNat_ofNat_row hrow] at hmin
    rw [toNat_ofNat_col hcol] at hmax
    exact ⟨_, ⟨row, col, hrow, hcol, hmin, hmax, rfl⟩, rfl⟩
  · rintro ⟨_, ⟨row, col, hrow, hcol, hmin, hmax, rfl⟩, rfl⟩
    exact ⟨row, col, hrow, hcol, by rw [hmin, toNat_ofNat_row hrow], by rw [hmax, toNat_ofNat_col hcol], rfl⟩

/-- A harmonic of a row is not one of a column. -/
theorem digitForHarmonicPair_self (h : ℤ) : digitForHarmonicPair ps1 h h = none := by
  refine Option.eq_none_iff_forall_ne_some.2 fun x hx => ?_
  obtain ⟨row, col, hrow, hcol, hmin, hmax, -⟩ := digitForHarmonicPair_eq_some_iff.1 hx
  have hk : krom (BitVec.ofNat 3 row) = krom (BitVec.ofNat 3 (col + 4)) := by
    rw [min_self] at hmin
    rw [max_self, hmin] at hmax
    exact mod_cast hmax
  rw [krom_inj_iff, toNat_ofNat_row hrow, toNat_ofNat_col hcol] at hk
  omega

/-- Each integer of a pair that names a symbol is the smaller or the larger one, and so in the table. -/
theorem digitForHarmonicPair_eq_none {h1 : ℤ} (h2 : ℤ) (hout : ∀ b : Bin, h1 ≠ krom b) :
    digitForHarmonicPair ps1 h1 h2 = none := by
  refine Option.eq_none_iff_forall_ne_some.2 fun x hx => ?_
  obtain ⟨row, col, -, -, hmin, hmax, -⟩ := digitForHarmonicPair_eq_some_iff.1 hx
  rcases le_total h1 h2 with h | h
  · exact hout _ ((min_eq_left h).symm.trans hmin)
  · exact hout _ ((max_eq_left h).symm.trans hmax)

/-- The harmonics of the rows, and those of the columns, as the rule lists them. -/
theorem krom_row {row : ℕ} (h : row < 4) : ((krom (BitVec.ofNat 3 row) : ℕ) : ℤ) = [20, 22, 24, 27].getD row 0 := by
  interval_cases row <;> rfl

theorem krom_col {col : ℕ} (h : col < 4) :
    ((krom (BitVec.ofNat 3 (col + 4)) : ℕ) : ℤ) = [34, 38, 42, 47].getD col 0 := by
  interval_cases col <;> rfl

/-- Settles O38, by what the lookup finds on integers; the pairs of the table are counted on bins. -/
theorem pairLookup : Obligations.PairLookup := by
  refine ⟨fun h1 h2 x => digitForHarmonicPair_eq_some_iff.trans ?found, fun _ _ => rfl, digitForHarmonicPair_krom,
    digitForHarmonicPair_comm ps1, digitForHarmonicPair_self, fun _ => digitForHarmonicPair_eq_none, rfl, ?count⟩
  case found =>
    refine exists₂_congr fun row col => and_congr_right fun hrow => and_congr_right fun hcol => ?_
    rw [krom_row hrow, krom_col hcol]
  case count =>
    simp only [digitForHarmonicPair_krom]
    decide

end Sys2Proof.Machine
end

section
/-! SUPPORT. What one rounding can do to a number (spec/00_scope.md R13): it keeps the order with every binary64 number,
so integer bounds survive it, and it moves the number by at most one part in 2^53, or by half of the smallest number. -/

namespace Sys2Proof.Fp

/-! ### Numbers without a sign -/

/-- The pattern is a number, perhaps an infinity, and its sign bit is clear: neither NaN, nor negative, nor `-0.0`. -/
structure Unsigned (x : F64) : Prop where
  number : isNaN x = false
  positive : neg x = false

theorem isNaN_pack (s : Bool) {m : ℕ} (h : m ≤ infMag) : isNaN (pack s m) = false := by
  rw [isNaN, mag_pack s (h.trans_lt infMag_lt)]
  exact decide_eq_false (Nat.not_lt.2 h)

theorem unsigned_pack {m : ℕ} (h : m ≤ infMag) : Unsigned (pack false m) :=
  ⟨isNaN_pack false h, neg_pack false (h.trans_lt infMag_lt)⟩

theorem unsigned_f64 (n : ℕ) : Unsigned (f64 n) := by
  unfold f64
  split
  · exact ⟨by decide, by decide⟩
  · exact unsigned_pack (roundMag_le ..)

/-- An infinity is no zero. -/
theorem isZero_of_isInf {x : F64} (h : isInf x = true) : isZero x = false := by
  have hm : mag x = infMag := of_decide_eq_true h
  rw [isZero, hm]
  decide

/-- A square has no sign. -/
theorem unsigned_fmul_self {x : F64} (h : isNaN x = false) : Unsigned (fmul x x) := by
  unfold fmul
  simp only [h, bne_self_eq_false, Bool.false_eq_true, or_self, if_false]
  split
  next hinf =>
    simp only [isZero_of_isInf hinf, Bool.false_eq_true, if_false]
    exact unsigned_pack le_rfl
  next =>
    split
    · exact unsigned_pack (Nat.zero_le _)
    · exact unsigned_pack (roundMag_le ..)

/-- A sum of two numbers without a sign has none. -/
theorem Unsigned.fadd {x y : F64} (hx : Unsigned x) (hy : Unsigned y) : Unsigned (fadd x y) := by
  unfold Fp.fadd addFinite
  simp only [hx.number, hy.number, hx.positive, hy.positive, Bool.false_eq_true, or_self, ne_eq, not_true_eq_false, and_false,
    if_false, if_true, Bool.and_self]
  split
  · exact hx
  split
  · exact hy
  split
  · split
    · exact unsigned_pack (Nat.zero_le _)
    · exact hy
  split
  · exact hx
  · exact unsigned_pack (roundMag_le ..)

/-- The root of a number without a sign has none. -/
theorem Unsigned.fsqrt {x : F64} (hx : Unsigned x) : Unsigned (fsqrt x) := by
  unfold Fp.fsqrt
  simp only [hx.number, hx.positive, Bool.false_eq_true, if_false]
  split
  · exact hx
  split
  · exact hx
  · exact unsigned_pack (roundMag_le ..)

/-- A quotient by a finite number other than 0 is a number. -/
theorem isNaN_fdiv {x y : F64} (hx : isNaN x = false) (hy : isFinite y = true) (hz : isZero y = false) :
    isNaN (fdiv x y) = false := by
  unfold fdiv
  simp only [hx, isNaN_of_isFinite hy, isInf_of_isFinite hy, hz, Bool.false_eq_true, or_self, if_false]
  split
  · exact isNaN_pack _ le_rfl
  split
  · exact isNaN_pack _ (Nat.zero_le _)
  · exact isNaN_pack _ (roundMag_le ..)

theorem Unsigned.value_nonneg {x : F64} (h : Unsigned x) : 0 ≤ value x := by
  rw [value_eq, h.positive, if_neg Bool.false_ne_true, one_mul]
  positivity

/-! ### Zeros -/

@[simp] theorem value_zero : value 0 = 0 := value_of_isZero (by decide)

/-- The product of a zero and a finite number is a zero. -/
theorem isZero_fmul_zero {y : F64} (hy : isFinite y = true) : isZero (fmul 0 y) = true := by
  unfold fmul
  simp only [isNaN_of_isFinite hy, isInf_of_isFinite hy, show isNaN (0 : F64) = false by decide,
    show isInf (0 : F64) = false by decide, show isZero (0 : F64) = true by decide, Bool.false_eq_true, or_self, true_or,
    if_false, if_true]
  rw [isZero, mag_pack _ (by norm_num)]
  decide

/-- A zero of either sign adds nothing to a number without a sign, `+0.0` included. -/
theorem Unsigned.fadd_of_isZero {x y : F64} (hx : Unsigned x) (hy : isZero y = true) : Fp.fadd x y = x := by
  have hm : mag y = 0 := of_decide_eq_true hy
  have hn : isNaN y = false := by rw [isNaN, hm]; decide
  have hi : isInf y = false := by rw [isInf, hm]; decide
  unfold Fp.fadd
  simp only [hx.number, hx.positive, hn, hi, hy, Bool.false_eq_true, or_self, false_and, if_false, if_true, Bool.false_and]
  cases hz : isZero x
  · simp
  · have hpack := pack_neg_mag x
    rw [hx.positive, show mag x = 0 from of_decide_eq_true hz] at hpack
    simp [hpack]

/-- A positive integer does not convert to a zero. -/
theorem isZero_f64 {n : ℕ} (hn : 0 < n) : isZero (f64 n) = false := by
  have hpos : 0 < roundMag n 1074 0 := by
    unfold roundMag
    rw [log2_eq]
    refine lt_min (by decide) (Nat.add_pos_left (Nat.mul_pos ?_ (by norm_num)) _)
    omega
  rw [f64, if_neg hn.ne', isZero, mag_pack _ ((roundMag_le ..).trans_lt infMag_lt)]
  exact decide_eq_false hpos.ne'

/-- `+0.0` divided by a positive integer is `+0.0`, even where the integer converts to an infinity. -/
theorem fdiv_zero_f64 {n : ℕ} (hn : 0 < n) : fdiv 0 (f64 n) = 0 := by
  unfold fdiv
  simp only [(unsigned_f64 n).number, (unsigned_f64 n).positive, isZero_f64 hn, show isNaN (0 : F64) = false by decide,
    show isInf (0 : F64) = false by decide, show isZero (0 : F64) = true by decide, show neg (0 : F64) = false by decide,
    bne_self_eq_false, Bool.false_eq_true, or_self, if_false, if_true, ite_self]
  decide

/-! ### Order -/

/-- A number that another one exceeds is at most that one. -/
theorem fle_of_fgt {x y : F64} (h : fgt x y = true) : fle y x = true := by
  simp only [fgt, fle, Bool.or_comm (isNaN y), Bool.and_eq_true, decide_eq_true_eq] at h ⊢
  exact h.imp_right le_of_lt

theorem value_pack (s : Bool) {m : ℕ} (h : m < 2 ^ 63) : value (pack s m) = sign s * unitsOf m / 2 ^ 1074 := by
  rw [value_eq, neg_pack s h, mag_pack s h]
  rfl

/-- The numbers of the format come with their negatives. -/
theorem exists_value_eq_neg {w : F64} (hw : isFinite w = true) : ∃ v, isFinite v = true ∧ value v = -value w := by
  refine ⟨pack (!neg w) (mag w), ?_, ?_⟩
  · rw [isFinite, mag_pack _ (mag_lt w)]
    exact hw
  · rw [value_pack _ (mag_lt w), value_eq, sign_not, neg_mul, neg_div]
    rfl

/-- Rounding does not pass over a number of the format. -/
theorem IsNearestEven.value_le {r : ℝ} {z w : F64} (h : IsNearestEven r z) (hw : isFinite w = true) (hr : r ≤ value w) :
    value z ≤ value w := by
  by_contra hlt
  have hle := (h.2 w hw).1
  rw [abs_of_nonneg (by linarith), abs_of_nonneg (by linarith)] at hle
  linarith

theorem IsNearestEven.le_value {r : ℝ} {z w : F64} (h : IsNearestEven r z) (hw : isFinite w = true) (hr : value w ≤ r) :
    value w ≤ value z := by
  by_contra hlt
  have hle := (h.2 w hw).1
  rw [abs_of_nonpos (by linarith), abs_of_nonpos (by linarith)] at hle
  linarith

/-- A finite number whose absolute value is at most an integer. -/
structure Within (x : F64) (i : ℕ) : Prop where
  finite : isFinite x = true
  abs_le : |value x| ≤ i

theorem Within.mono {x : F64} {i j : ℕ} (h : Within x i) (hij : i ≤ j) : Within x j :=
  ⟨h.finite, h.abs_le.trans (Nat.cast_le.2 hij)⟩

theorem within_zero (i : ℕ) : Within 0 i := ⟨by decide, by rw [value_zero, abs_zero]; positivity⟩

theorem within_f64 {i : ℕ} (hi : i ≤ 2 ^ 53) : Within (f64 i) i := by
  obtain ⟨hfin, hval⟩ := value_f64 hi
  exact ⟨hfin, by rw [hval, Nat.abs_cast]⟩

/-- A number at most 1 in absolute value, by its pattern. -/
theorem within_one {x : F64} (h : mag x ≤ mag one) : Within x 1 := by
  have hfin : isFinite x = true := decide_eq_true (h.trans_lt (by decide))
  have hsign : |(if neg x then -1 else 1 : ℝ)| = 1 := abs_sign (neg x)
  have hone : unitsOf (mag one) = 2 ^ 1074 := by
    rw [show mag one = 1022 * 2 ^ 52 + 2 ^ 52 by decide, unitsOf_pack (fun _ => le_rfl) (by norm_num), ← pow_add]
  have hle : (unitsOf (mag x) : ℝ) ≤ ((2 ^ 1074 : ℕ) : ℝ) := Nat.cast_le.2 (hone ▸ unitsOf_strictMono.monotone h)
  rw [Nat.cast_pow, Nat.cast_ofNat] at hle
  refine ⟨hfin, ?_⟩
  rw [value_eq, abs_div, abs_mul, hsign, one_mul, Nat.abs_cast, abs_of_pos (by positivity), Nat.cast_one]
  exact (div_le_one (by positivity)).2 hle

/-- Integers up to 2^53 are within the range. -/
theorem natCast_le_maxFinite {i : ℕ} (hi : i ≤ 2 ^ 53) : (i : ℝ) ≤ value maxFinite := by
  obtain ⟨hfin, hval⟩ := value_f64 hi
  have hle := (le_abs_self _).trans (abs_value_le_maxFinite hfin)
  rwa [hval] at hle

/-- Rounding keeps an integer bound. -/
theorem IsNearestEven.within {r : ℝ} {z : F64} {i : ℕ} (h : IsNearestEven r z) (hi : i ≤ 2 ^ 53) (hr : |r| ≤ i) :
    Within z i := by
  obtain ⟨hfin, hval⟩ := value_f64 hi
  obtain ⟨v, hv, hneg⟩ := exists_value_eq_neg hfin
  obtain ⟨hlo, hhi⟩ := abs_le.1 hr
  rw [hval] at hneg
  refine ⟨h.1, abs_le.2 ⟨?_, ?_⟩⟩
  · exact hneg ▸ h.le_value hv (hneg.trans_le hlo)
  · exact hval ▸ h.value_le hfin (hhi.trans_eq hval.symm)

/-! ### The operations on bounded numbers -/

/-- `z` is the rounding of a real number `r`, which is at most `i` in absolute value. -/
structure RoundingOf (r : ℝ) (i : ℕ) (z : F64) : Prop where
  nearest : IsNearestEven r z
  exact_le : |r| ≤ i
  small : i ≤ 2 ^ 53

theorem RoundingOf.within {r : ℝ} {i : ℕ} {z : F64} (h : RoundingOf r i z) : Within z i :=
  h.nearest.within h.small h.exact_le

theorem Within.fadd {x y : F64} {i j : ℕ} (hx : Within x i) (hy : Within y j) (hij : i + j ≤ 2 ^ 53) :
    RoundingOf (value x + value y) (i + j) (fadd x y) := by
  have hle : |value x + value y| ≤ (i + j : ℕ) := by
    rw [Nat.cast_add]
    exact (abs_add_le _ _).trans (add_le_add hx.abs_le hy.abs_le)
  exact ⟨faddCorrectlyRounded x y hx.finite hy.finite (hle.trans (natCast_le_maxFinite hij)), hle, hij⟩

theorem Within.fmul {x y : F64} {i j : ℕ} (hx : Within x i) (hy : Within y j) (hij : i * j ≤ 2 ^ 53) :
    RoundingOf (value x * value y) (i * j) (fmul x y) := by
  have hle : |value x * value y| ≤ (i * j : ℕ) := by
    rw [Nat.cast_mul, abs_mul]
    exact mul_le_mul hx.abs_le hy.abs_le (abs_nonneg _) (Nat.cast_nonneg _)
  exact ⟨fmulCorrectlyRounded x y hx.finite hy.finite (hle.trans (natCast_le_maxFinite hij)), hle, hij⟩

theorem Within.fdiv_f64 {x : F64} {i d : ℕ} (hx : Within x (i * d)) (hd : 0 < d) (hd' : d ≤ 2 ^ 53) (hi : i ≤ 2 ^ 53) :
    RoundingOf (value x / d) i (fdiv x (f64 d)) := by
  obtain ⟨hfin, hval⟩ := value_f64 hd'
  have hle : |value x / d| ≤ i := by
    rw [abs_div, Nat.abs_cast, div_le_iff₀ (Nat.cast_pos.2 hd), ← Nat.cast_mul]
    exact hx.abs_le
  rw [← hval] at hle ⊢
  exact ⟨fdivCorrectlyRounded x (f64 d) hx.finite hfin (isZero_f64 hd) (hle.trans (natCast_le_maxFinite hi)), hle, hi⟩

theorem Within.fsqrt {x : F64} {i : ℕ} (hx : Within x (i * i)) (h0 : 0 ≤ value x) (hi : i ≤ 2 ^ 53) :
    RoundingOf √(value x) i (fsqrt x) := by
  have hle : |√(value x)| ≤ i := by
    rw [abs_of_nonneg (Real.sqrt_nonneg _), Real.sqrt_le_iff, pow_two, ← Nat.cast_mul]
    exact ⟨Nat.cast_nonneg _, (le_abs_self _).trans hx.abs_le⟩
  exact ⟨fsqrtCorrectlyRounded x hx.finite h0, hle, hi⟩

/-! ### The error of one rounding -/

/-- Every positive number has a rounding. -/
theorem exists_rounds {a : ℝ} (ha : 0 < a) : ∃ q R, Rounds a q R := by
  -- the doubled integer part of `2*a` and its sticky bit, with two bits to drop
  obtain ⟨n, hn⟩ : ∃ n, Sticky n (2 * (2 * a)) := by
    classical exact ⟨_, sticky_of_floor (exact := 2 * a = ⌊2 * a⌋₊) (by positivity) rfl Iff.rfl⟩
  have hpos : 0 < n := by
    by_contra h0
    have hle := (hn 0).2.2 (by omega)
    simp only [Nat.cast_zero, mul_zero] at hle
    linarith
  obtain ⟨q, R, -, hR⟩ := roundMag_sticky (up := 0) (down := 2) hpos hn (by omega)
  refine ⟨q, R, ?_⟩
  rwa [show 2 * (2 * a) * 2 ^ 0 / 2 ^ 2 = a by ring] at hR

/-- A rounding moves a number by at most one part in 2^53, or by half a unit. -/
theorem Rounds.abs_sub_le {a : ℝ} {q R : ℕ} (h : Rounds a q R) (ha : 0 ≤ a) :
    |(R : ℝ) * 2 ^ q - a| ≤ a / 2 ^ 53 + 1 / 2 := by
  have hnear := h.near
  rcases Nat.eq_zero_or_pos q with rfl | hq
  · have : 0 ≤ a / 2 ^ 53 := by positivity
    rw [pow_zero] at hnear
    rw [pow_zero]
    linarith
  · have hlow := h.low hq
    rw [pow_add] at hlow
    norm_num at hlow ⊢
    linarith

/-- The standard model of a correctly rounded operation, with the half of the smallest number that underflow may cost. -/
theorem IsNearestEven.abs_sub_le {r : ℝ} {z : F64} (h : IsNearestEven r z) (hmax : |r| ≤ value maxFinite) :
    |value z - r| ≤ |r| / 2 ^ 53 + 1 / 2 / 2 ^ 1074 := by
  have hD : (0 : ℝ) < 2 ^ 1074 := by positivity
  rcases eq_or_ne r 0 with rfl | hr
  · -- zero is a number of the format
    have hle := (h.2 0 (by decide)).1
    rw [value_zero, sub_self, abs_zero] at hle
    rw [abs_zero, zero_div, zero_add]
    exact hle.trans (by positivity)
  obtain ⟨s, hs⟩ : ∃ s, r = sign s * |r| := by
    rcases abs_choice r with e | e
    · exact ⟨false, by rw [e, sign, if_neg Bool.false_ne_true, one_mul]⟩
    · exact ⟨true, by rw [e, sign, if_pos rfl, neg_one_mul, neg_neg]⟩
  have ha : 0 < |r| * 2 ^ 1074 := mul_pos (abs_pos.2 hr) hD
  obtain ⟨q, R, hR⟩ := exists_rounds ha
  have hlt : q * 2 ^ 52 + R < infMag := hR.lt_infMag (by rwa [value_maxFinite, le_div_iff₀ hD] at hmax)
  have hlt' := hlt.trans infMag_lt
  -- `z` is at least as near as the rounding
  refine (h.2 (pack s (q * 2 ^ 52 + R)) (by rw [isFinite, mag_pack s hlt']; exact decide_eq_true hlt)).1.trans ?_
  have hdist : value (pack s (q * 2 ^ 52 + R)) - r = sign s * (R * 2 ^ q - |r| * 2 ^ 1074) / 2 ^ 1074 := by
    rw [value_pack s hlt', unitsOf_pack hR.full hR.top, mul_sub, sub_div, ← mul_assoc (sign s) |r|, ← hs,
      mul_div_cancel_right₀ _ hD.ne', Nat.cast_mul, Nat.cast_pow, Nat.cast_ofNat]
  rw [hdist, abs_div, abs_mul, abs_sign, one_mul, abs_of_pos hD, div_le_iff₀ hD, add_mul, div_mul_cancel₀ _ hD.ne',
    div_mul_eq_mul_div]
  exact hR.abs_sub_le ha.le

/-- The relative error of a rounding up to 2^53, with a coarser bound where underflow matters. -/
theorem RoundingOf.relative_error {r : ℝ} {i : ℕ} {z : F64} (h : RoundingOf r i z) :
    |value z - r| ≤ |r| / 2 ^ 53 + 1 / 2 ^ 100 := by
  refine (h.nearest.abs_sub_le (h.exact_le.trans (natCast_le_maxFinite h.small))).trans (add_le_add_right ?_ _)
  rw [div_div, ← pow_succ']
  exact one_div_le_one_div_of_le (by positivity) (pow_le_pow_right₀ one_le_two (by norm_num))

/-- The error by the integer bound alone. -/
theorem RoundingOf.error {r : ℝ} {i : ℕ} {z : F64} (h : RoundingOf r i z) :
    |value z - r| ≤ i / 2 ^ 53 + 1 / 2 ^ 100 := by
  have := h.exact_le
  exact h.relative_error.trans (by gcongr)

end Sys2Proof.Fp
end

section
/-! SUPPORT. PDFT and MAGX (spec/42_spectral_analyzer.md R140, R145, R150 and R153): an accumulator of a lane by its
recurrence, what zero samples leave in it, and the range of every intermediate result. -/

namespace Sys2Proof.Machine

/-! ### One accumulator -/

/-- The sum of the first `n` products of samples and table entries, in order, one rounding each (R140). -/
def accumulate (x t : ℕ → F64) : ℕ → F64
  | 0 => 0
  | n + 1 => Fp.fadd (accumulate x t n) (Fp.fmul (x n) (t n))

/-- The two sums of a lane are two accumulators over the same samples. -/
theorem laneSums_eq_accumulate (p : Params) (m : Memory) (b : Bin) (n : ℕ) :
    laneSums p m b n = (accumulate (windowValue m) (fun i => (p.tw b i).c) n,
      accumulate (windowValue m) (fun i => (p.tw b i).s) n) := by
  induction n with
  | zero => exact laneSums_zero p m b
  | succ n ih => rw [laneSums_succ, ih]; rfl

/-- Zero samples leave an accumulator that has no sign as it is. -/
theorem accumulate_eq_of_zeros {x t : ℕ → F64} {a n : ℕ} (han : a ≤ n) (hstart : Fp.Unsigned (accumulate x t a))
    (hx : ∀ i < n, a ≤ i → x i = 0) (ht : ∀ i < n, Fp.isFinite (t i) = true) :
    accumulate x t n = accumulate x t a := by
  induction n, han using Nat.le_induction with
  | base => rfl
  | succ n han ih =>
    have hprod : Fp.isZero (Fp.fmul (x n) (t n)) = true := by
      rw [hx n (Nat.lt_succ_self n) han]
      exact Fp.isZero_fmul_zero (ht n (Nat.lt_succ_self n))
    rw [accumulate, ih (fun i hi => hx i (hi.trans n.lt_succ_self)) fun i hi => ht i (hi.trans n.lt_succ_self)]
    exact hstart.fadd_of_isZero hprod

theorem unsigned_zero : Fp.Unsigned 0 := ⟨by decide, by decide⟩

/-- A window of zeros sums to `+0.0` (R153 (a)). -/
theorem accumulate_zeros {x t : ℕ → F64} {n : ℕ} (hx : ∀ i < n, x i = 0) (ht : ∀ i < n, Fp.isFinite (t i) = true) :
    accumulate x t n = 0 :=
  accumulate_eq_of_zeros (Nat.zero_le n) unsigned_zero (fun i hi _ => hx i hi) ht

/-- The samples are integers from 0 to 255. -/
theorem windowValue_within (m : Memory) (n : ℕ) : Fp.Within (windowValue m n) 255 := by
  have hlt := (m.read n).isLt
  exact (Fp.within_f64 (by omega)).mono (by omega)

theorem value_windowValue (m : Memory) (n : ℕ) : Fp.value (windowValue m n) = windowReal m n := by
  have hlt := (m.read n).isLt
  exact (Fp.value_f64 (by omega)).2

theorem windowReal_nonneg (m : Memory) (n : ℕ) : 0 ≤ windowReal m n := Nat.cast_nonneg _

theorem windowReal_le (m : Memory) (n : ℕ) : windowReal m n ≤ 255 := by
  have hlt := (m.read n).isLt
  exact Nat.cast_le_ofNat.2 (by omega)

theorem windowValue_eq_zero {m : Memory} {n : ℕ} (h : m.read n = 0) : windowValue m n = 0 := by
  rw [windowValue, h]
  decide

/-! ### PDFT -/

/-- The entries of the table for the oldest sample: the cosine and the sine of 0. -/
theorem twDefault_zero (b : Bin) : twDefault b 0 = ⟨Fp.one, 0⟩ := by
  unfold twDefault
  rw [Nat.mul_zero]
  decide

/-- Settles O19: the sums of a lane are two accumulators, in which zero samples change nothing. -/
theorem pdftSumsInOrder : Obligations.PdftSumsInOrder := by
  intro s
  refine ⟨pdft ps1 s, rfl, rfl, fun b => ?_⟩
  have hc (i : ℕ) (hi : i < 228) := (Fp.within_one (Twiddles.twAcc_ps1.1 b i hi).1).finite
  have hs (i : ℕ) (hi : i < 228) := (Fp.within_one (Twiddles.twAcc_ps1.1 b i hi).2).finite
  rw [pdft_re_get, pdft_im_get, laneSums_eq_accumulate, ps1_n]
  dsimp only
  refine ⟨accumulate (windowValue s.win) fun i => (ps1.tw b i).c, accumulate (windowValue s.win) fun i => (ps1.tw b i).s,
    rfl, rfl, fun n _ => ⟨rfl, rfl⟩, rfl, rfl, fun hzero => ?_, fun hone hzero => ?_⟩
  · have hx (i : ℕ) (hi : i < 228) := windowValue_eq_zero (hzero i hi)
    exact ⟨accumulate_zeros hx hc, accumulate_zeros hx hs⟩
  · have hx (i : ℕ) (hi : i < 228) (h0 : 1 ≤ i) := windowValue_eq_zero (hzero i hi (by omega))
    have hre : accumulate (windowValue s.win) (fun i => (ps1.tw b i).c) 1 = Fp.f64 1 := by
      change Fp.fadd 0 (Fp.fmul (Fp.f64 (s.win.read 0).toNat) (twDefault b 0).c) = _
      rw [hone, twDefault_zero]
      decide +kernel
    have him : accumulate (windowValue s.win) (fun i => (ps1.tw b i).s) 1 = 0 := by
      change Fp.fadd 0 (Fp.fmul (Fp.f64 (s.win.read 0).toNat) (twDefault b 0).s) = _
      rw [hone, twDefault_zero]
      decide +kernel
    exact ⟨(accumulate_eq_of_zeros (by norm_num) (hre ▸ Fp.unsigned_f64 1) hx hc).trans hre,
      (accumulate_eq_of_zeros (by norm_num) (him ▸ unsigned_zero) hx hs).trans him⟩

/-! ### MAGX -/

/-- A magnitude of two numbers has no sign. -/
theorem unsigned_magnitude {re im : F64} (hre : Fp.isNaN re = false) (him : Fp.isNaN im = false) :
    Fp.Unsigned (magnitude re im) :=
  ((Fp.unsigned_fmul_self hre).fadd (Fp.unsigned_fmul_self him)).fsqrt

theorem magnitude_zero : magnitude 0 0 = 0 := by decide +kernel

/-- The example of R150, 684 and 912 for the sums. -/
theorem magx_example : Fp.fdiv (Fp.f64 684) (Fp.f64 228) = Fp.f64 3 ∧ Fp.fdiv (Fp.f64 912) (Fp.f64 228) = Fp.f64 4 ∧
    magnitude (Fp.f64 3) (Fp.f64 4) = Fp.f64 5 := by decide +kernel

/-- Settles O20: the quotients and the root as MAGX computes them, the two examples by evaluation, and the sign by the
operations that have none. -/
theorem magxDividesThenRoots : Obligations.MagxDividesThenRoots := by
  intro s
  refine ⟨magx ps1 s, rfl, rfl, fun b => ?_⟩
  rw [magx_mag_get, magx_re_get, magx_im_get, ps1_n]
  have h228 : Fp.isFinite (Fp.f64 228) = true := (Fp.value_f64 (by norm_num)).1
  have hnumber {x : F64} (hx : Fp.isNaN x = false) : Fp.isNaN (Fp.fdiv x (Fp.f64 228)) = false :=
    Fp.isNaN_fdiv hx h228 (Fp.isZero_f64 (by norm_num))
  refine ⟨rfl, rfl, rfl, fun hre him => ?zero, fun hre him => ?numbers, fun hre him => ?sign⟩
  case zero =>
    rw [hre, him, Fp.fdiv_zero_f64 (by norm_num), magnitude_zero]
  case numbers =>
    obtain ⟨hthree, hfour, hfive⟩ := magx_example
    rw [hre, him, hthree, hfour]
    exact ⟨rfl, rfl, hfive⟩
  case sign =>
    exact (unsigned_magnitude (hnumber hre) (hnumber him)).positive

/-! ### An all-zero window -/

/-- A window of zeros has the magnitude `+0.0`, for every table of finite entries. -/
theorem hardwareMagnitude_zeros {p : Params} {m : Memory} {b : Bin} (hn : 0 < p.n) (hm : ∀ n < p.n, m.read n = 0)
    (ht : ∀ n < p.n, Fp.isFinite (p.tw b n).c = true ∧ Fp.isFinite (p.tw b n).s = true) :
    hardwareMagnitude p m b = 0 := by
  have hx (i : ℕ) (hi : i < p.n) := windowValue_eq_zero (hm i hi)
  rw [hardwareMagnitude, laneSums_eq_accumulate, accumulate_zeros hx fun i hi => (ht i hi).1,
    accumulate_zeros hx fun i hi => (ht i hi).2, Fp.fdiv_zero_f64 hn, magnitude_zero]

/-- If no magnitude is above the threshold, the verdict is `NONE`. -/
theorem verdictOfWindow_eq_none {p : Params} {m : Memory}
    (h : ∀ b, Fp.fle (hardwareMagnitude p m b) p.thresh = true) : verdictOfWindow p m = .none := by
  simp only [verdictOfWindow, verdictFor, Lanes.get_ofFn, h, true_or, if_true]

/-- Settles O23: each sum of a lane is `+0.0`, and `+0.0` is below every positive threshold. -/
theorem zeroWindowIsSilence : Obligations.ZeroWindowIsSilence := by
  intro p m hn hm ht
  have hzero (b : Bin) : hardwareMagnitude p m b = 0 := hardwareMagnitude_zeros hn hm (ht b)
  refine ⟨hzero, fun hpos => verdictOfWindow_eq_none fun b => ?_⟩
  rw [hzero]
  exact Fp.fle_of_fgt hpos

/-! ### Ranges -/

/-- An accumulator of samples up to 255 and entries up to 1 grows by at most 255 a sample. -/
theorem accumulate_within {x t : ℕ → F64} (hx : ∀ n, Fp.Within (x n) 255) (ht : ∀ n < 228, Fp.Within (t n) 1) {n : ℕ}
    (hle : n ≤ 228) : Fp.Within (accumulate x t n) (255 * n) := by
  induction n with
  | zero => exact Fp.within_zero 0
  | succ n ih =>
    have hprod := ((hx n).fmul (ht n hle) (by norm_num)).within
    exact ((ih (by omega)).fadd hprod (by omega)).within

section Ranges

variable {p : Params} (hn : p.n = 228) (htw : TwBounded p) (m : Memory) (b : Bin)

include hn htw in
theorem tw_within {n : ℕ} (h : n < 228) : Fp.Within (p.tw b n).c 1 ∧ Fp.Within (p.tw b n).s 1 := by
  obtain ⟨hc, hs⟩ := htw b n (hn ▸ h)
  exact ⟨Fp.within_one hc, Fp.within_one hs⟩

include hn htw in
theorem laneSums_within {n : ℕ} (h : n ≤ 228) :
    Fp.Within (laneSums p m b n).1 (255 * n) ∧ Fp.Within (laneSums p m b n).2 (255 * n) := by
  rw [laneSums_eq_accumulate]
  exact ⟨accumulate_within (windowValue_within m) (fun i hi => (tw_within hn htw b hi).1) h,
    accumulate_within (windowValue_within m) (fun i hi => (tw_within hn htw b hi).2) h⟩

/-- The two quotients of a lane that MAGX squares. -/
def quotients (p : Params) (m : Memory) (b : Bin) : F64 × F64 :=
  (Fp.fdiv (laneSums p m b 228).1 (Fp.f64 228), Fp.fdiv (laneSums p m b 228).2 (Fp.f64 228))

include hn in
theorem hardwareMagnitude_eq :
    hardwareMagnitude p m b = magnitude (quotients p m b).1 (quotients p m b).2 := by
  rw [hardwareMagnitude, hn]
  rfl

include hn htw in
theorem quotients_within : Fp.Within (quotients p m b).1 255 ∧ Fp.Within (quotients p m b).2 255 := by
  obtain ⟨hre, him⟩ := laneSums_within hn htw m b le_rfl
  exact ⟨(hre.fdiv_f64 (by norm_num) (by norm_num) (by norm_num)).within,
    (him.fdiv_f64 (by norm_num) (by norm_num) (by norm_num)).within⟩

end Ranges

/-- The squares of two quotients and their sum. -/
theorem squares_rounding {re im : F64} (hre : Fp.Within re 255) (him : Fp.Within im 255) :
    Fp.RoundingOf (Fp.value (Fp.fmul re re) + Fp.value (Fp.fmul im im)) (255 * 255 + 255 * 255)
      (Fp.fadd (Fp.fmul re re) (Fp.fmul im im)) :=
  (hre.fmul hre (by norm_num)).within.fadd (him.fmul him (by norm_num)).within (by norm_num)

theorem squares_nonneg {re im : F64} (hre : Fp.Within re 255) (him : Fp.Within im 255) :
    0 ≤ Fp.value (Fp.fadd (Fp.fmul re re) (Fp.fmul im im)) :=
  ((Fp.unsigned_fmul_self (Fp.isNaN_of_isFinite hre.finite)).fadd
    (Fp.unsigned_fmul_self (Fp.isNaN_of_isFinite him.finite))).value_nonneg

/-- The root of the sum of the squares. -/
theorem magnitude_rounding {re im : F64} (hre : Fp.Within re 255) (him : Fp.Within im 255) :
    Fp.RoundingOf √(Fp.value (Fp.fadd (Fp.fmul re re) (Fp.fmul im im))) 361 (magnitude re im) :=
  ((squares_rounding hre him).within.mono (by norm_num)).fsqrt (squares_nonneg hre him) (by norm_num)

end Sys2Proof.Machine
end

section
/-! SUPPORT. The ideal transform (spec/42_spectral_analyzer.md R141 and R151): the two sums of a bin as one complex number,
which is linear in the window, and what it is for constants and for tones on a bin. -/

namespace Sys2Proof.Machine

open Complex (I)

/-! ### The transform as a complex number -/

/-- The two ideal sums of bin `b` over `N`, the cosines' as the real part and the sines' as the imaginary part (R141), for
windows of complex numbers; a linear function of the window. -/
noncomputable def spectrum (p : Params) (b : Bin) : (ℕ → ℂ) →ₗ[ℂ] ℂ :=
  (p.n : ℂ)⁻¹ • ∑ n ∈ Finset.range p.n, Complex.exp (phase p b n * I) • LinearMap.proj n

theorem spectrum_apply (p : Params) (b : Bin) (w : ℕ → ℂ) :
    spectrum p b w = (p.n : ℂ)⁻¹ * ∑ n ∈ Finset.range p.n, Complex.exp (phase p b n * I) * w n := by
  simp [spectrum]

/-- A window of real numbers as one of complex numbers. -/
def toComplex (w : ℕ → ℝ) (n : ℕ) : ℂ := w n

theorem spectrum_re (p : Params) (b : Bin) (w : ℕ → ℝ) : (spectrum p b (toComplex w)).re =
    (∑ n ∈ Finset.range p.n, w n * Real.cos (phase p b n)) / p.n := by
  rw [spectrum_apply, ← Complex.ofReal_natCast, ← Complex.ofReal_inv, Complex.re_ofReal_mul, Complex.re_sum, div_eq_inv_mul]
  simp only [toComplex, Complex.re_mul_ofReal, Complex.exp_ofReal_mul_I_re, mul_comm (w _)]

theorem spectrum_im (p : Params) (b : Bin) (w : ℕ → ℝ) : (spectrum p b (toComplex w)).im =
    (∑ n ∈ Finset.range p.n, w n * Real.sin (phase p b n)) / p.n := by
  rw [spectrum_apply, ← Complex.ofReal_natCast, ← Complex.ofReal_inv, Complex.im_ofReal_mul, Complex.im_sum, div_eq_inv_mul]
  simp only [toComplex, Complex.im_mul_ofReal, Complex.exp_ofReal_mul_I_im, mul_comm (w _)]

/-- The ideal magnitude is the absolute value of the transform. -/
theorem idealMagnitude_eq_norm (p : Params) (b : Bin) (w : ℕ → ℝ) :
    idealMagnitude p b w = ‖spectrum p b (toComplex w)‖ := by
  rw [Complex.norm_eq_sqrt_sq_add_sq, spectrum_re, spectrum_im, idealMagnitude]

/-- No window has a transform above its largest sample (R151 (d) and (e)). -/
theorem norm_spectrum_le {p : Params} (hn : 0 < p.n) (b : Bin) {w : ℕ → ℂ} {c : ℝ} (h : ∀ n < p.n, ‖w n‖ ≤ c) :
    ‖spectrum p b w‖ ≤ c := by
  have hterm : ∀ n ∈ Finset.range p.n, ‖Complex.exp (phase p b n * I) * w n‖ ≤ c := fun n hmem => by
    rw [norm_mul, Complex.norm_exp_ofReal_mul_I, one_mul]
    exact h n (Finset.mem_range.1 hmem)
  have hsum := norm_sum_le_of_le _ hterm
  rw [Finset.sum_const, Finset.card_range, nsmul_eq_mul] at hsum
  rw [spectrum_apply, norm_mul, norm_inv, Complex.norm_natCast, inv_mul_le_iff₀ (Nat.cast_pos.2 hn)]
  exact hsum

/-! ### Tones on a bin -/

/-- The first root of unity of order `N`. -/
noncomputable def turn (p : Params) : ℂ := Complex.exp (2 * Real.pi * I / p.n)

theorem turn_isPrimitiveRoot {p : Params} (hn : 0 < p.n) : IsPrimitiveRoot (turn p) p.n :=
  Complex.isPrimitiveRoot_exp p.n hn.ne'

/-- The phases of a bin are the powers of the root at its harmonic. -/
theorem exp_phase (p : Params) (b : Bin) (n : ℕ) : Complex.exp (phase p b n * I) = (turn p ^ (p.k b : ℤ)) ^ n := by
  rw [turn, ← Complex.exp_int_mul, ← Complex.exp_nat_mul, phase]
  congr 1
  push_cast
  ring

/-- The powers of a root of unity that is not 1 cancel. -/
theorem sum_zpow_eq_zero {z : ℂ} {N : ℕ} (hz : IsPrimitiveRoot z N) {j : ℤ} (hj : ¬ (N : ℤ) ∣ j) :
    ∑ n ∈ Finset.range N, (z ^ j) ^ n = 0 := by
  have hone : z ^ j ≠ 1 := fun h => hj ((hz.zpow_eq_one_iff_dvd j).1 h)
  have hpow : (z ^ j) ^ N = 1 := by
    rw [← zpow_natCast, ← zpow_mul, mul_comm, zpow_mul, zpow_natCast, hz.pow_eq_one, one_zpow]
  rw [geom_sum_eq hone, hpow, sub_self, zero_div]

/-- A rotation by `j` harmonics a sample. -/
noncomputable def rotation (p : Params) (j : ℤ) (n : ℕ) : ℂ := (turn p ^ j) ^ n

/-- Rotations on other harmonics than the bin's, against its sense, leave nothing. -/
theorem spectrum_rotation {p : Params} (hn : 0 < p.n) (b : Bin) (j : ℤ) :
    spectrum p b (rotation p j) = if (p.n : ℤ) ∣ p.k b + j then 1 else 0 := by
  have hz := turn_isPrimitiveRoot hn
  have hterm (n : ℕ) : Complex.exp (phase p b n * I) * rotation p j n = (turn p ^ (p.k b + j : ℤ)) ^ n := by
    rw [exp_phase, rotation, ← mul_pow, ← zpow_add₀ (hz.ne_zero hn.ne')]
  rw [spectrum_apply]
  simp only [hterm]
  split
  next h =>
    have hone := (hz.zpow_eq_one_iff_dvd _).2 h
    have hne : (p.n : ℂ) ≠ 0 := Nat.cast_ne_zero.2 hn.ne'
    simp [hone, hne]
  next h => rw [sum_zpow_eq_zero hz h, mul_zero]

/-- A tone on the harmonic of bin `b₀`. -/
noncomputable def tone (p : Params) (b₀ : Bin) (phi : ℝ) (n : ℕ) : ℂ := Real.cos (phase p b₀ n + phi)

/-- A tone is half a rotation one way and half a rotation the other way. -/
theorem tone_eq (p : Params) (b₀ : Bin) (phi : ℝ) : tone p b₀ phi =
    (Complex.exp (phi * I) / 2) • rotation p (p.k b₀) + (Complex.exp (-(phi * I)) / 2) • rotation p (-(p.k b₀ : ℤ)) := by
  funext n
  have hphase := exp_phase p b₀ n
  have hneg : Complex.exp (-(phase p b₀ n * I)) = (turn p ^ (-(p.k b₀ : ℤ))) ^ n := by
    rw [Complex.exp_neg, hphase, zpow_neg, inv_pow]
  simp only [tone, rotation, Complex.ofReal_cos, Complex.cos, Complex.ofReal_add, Pi.add_apply, Pi.smul_apply, smul_eq_mul,
    ← hphase, ← hneg]
  rw [add_mul, neg_mul, add_mul, neg_add, Complex.exp_add, Complex.exp_add]
  ring

/-- The harmonics of the table are those a window can tell apart (R9). -/
def HarmonicsInRange (p : Params) : Prop := ∀ b : Bin, 1 ≤ p.k b ∧ 2 * p.k b < p.n

theorem HarmonicsInRange.pos {p : Params} (hk : HarmonicsInRange p) : 0 < p.n := by
  have := hk 0
  omega

/-- The resting level of a signal contributes nothing (R151 (b)). -/
theorem spectrum_const {p : Params} (hk : HarmonicsInRange p) (b : Bin) (c : ℂ) : spectrum p b (fun _ => c) = 0 := by
  have hconst : (fun _ => c) = c • rotation p 0 := by
    funext n
    simp [rotation]
  have hdvd : ¬ (p.n : ℤ) ∣ p.k b + 0 := fun h => by
    have hb := hk b
    have := Int.le_of_dvd (by omega) h
    omega
  rw [hconst, map_smul, spectrum_rotation hk.pos, if_neg hdvd, smul_zero]

/-- A tone on a bin is seen in that bin, at half its amplitude, and in no bin with another harmonic (R151 (c)). -/
theorem spectrum_tone {p : Params} (hk : HarmonicsInRange p) (b b₀ : Bin) (phi : ℝ) :
    spectrum p b (tone p b₀ phi) = if p.k b = p.k b₀ then Complex.exp (-(phi * I)) / 2 else 0 := by
  have hb := hk b
  have hb₀ := hk b₀
  have hsum : ¬ (p.n : ℤ) ∣ p.k b + p.k b₀ := fun h => by
    have := Int.le_of_dvd (by omega) h
    omega
  have hdiff : (p.n : ℤ) ∣ p.k b + -p.k b₀ ↔ p.k b = p.k b₀ := by
    constructor
    · intro h
      have := Int.eq_zero_of_abs_lt_dvd h (by rw [abs_lt]; omega)
      omega
    · intro h
      rw [h, add_neg_cancel]
      exact dvd_zero _
  rw [tone_eq, map_add, map_smul, map_smul, spectrum_rotation hk.pos, spectrum_rotation hk.pos, if_neg hsum, smul_zero,
    zero_add, smul_eq_mul, mul_ite, mul_one, mul_zero]
  exact if_congr hdiff rfl rfl

theorem norm_spectrum_tone {p : Params} (hk : HarmonicsInRange p) (b b₀ : Bin) (phi : ℝ) :
    ‖spectrum p b (tone p b₀ phi)‖ = if p.k b = p.k b₀ then 1 / 2 else 0 := by
  rw [spectrum_tone hk]
  split
  · rw [norm_div, ← neg_mul, ← Complex.ofReal_neg, Complex.norm_exp_ofReal_mul_I]
    norm_num
  · exact norm_zero

end Sys2Proof.Machine
end

section
/-! SUPPORT. The accuracy of the hardware (spec/42_spectral_analyzer.md R145 and R152): how far the sums, their quotients and
the root of the squares move from the ideal ones. -/

namespace Sys2Proof.Machine

/-! ### Ranges -/

/-- No ideal magnitude is above the largest sample (R151 (e)). -/
theorem idealMagnitude_le {p : Params} (hn : p.n = 228) (m : Memory) (b : Bin) {c : ℝ} (h : ∀ n < 228, windowReal m n ≤ c) :
    idealMagnitude p b (windowReal m) ≤ c := by
  rw [idealMagnitude_eq_norm]
  refine norm_spectrum_le (by omega) b fun n hlt => ?_
  rw [toComplex, Complex.norm_real, Real.norm_of_nonneg (windowReal_nonneg m n)]
  exact h n (hn ▸ hlt)

theorem hardwareMagnitude_within {p : Params} (hn : p.n = 228) (htw : TwBounded p) (m : Memory) (b : Bin) :
    Fp.Within (hardwareMagnitude p m b) 361 ∧ Fp.Unsigned (hardwareMagnitude p m b) := by
  obtain ⟨hre, him⟩ := quotients_within hn htw m b
  rw [hardwareMagnitude_eq hn]
  exact ⟨(magnitude_rounding hre him).within,
    unsigned_magnitude (Fp.isNaN_of_isFinite hre.finite) (Fp.isNaN_of_isFinite him.finite)⟩

/-- A square of a quotient is a number without a sign up to 255 * 255. -/
theorem square_range {x : F64} (hx : Fp.Within x 255) :
    Fp.isFinite (Fp.fmul x x) = true ∧ Fp.neg (Fp.fmul x x) = false ∧ Fp.value (Fp.fmul x x) < 2 ^ 17 := by
  have h := (hx.fmul hx (by norm_num)).within
  exact ⟨h.finite, (Fp.unsigned_fmul_self (Fp.isNaN_of_isFinite hx.finite)).positive,
    ((le_abs_self _).trans h.abs_le).trans_lt (by norm_num)⟩

/-- Settles O21: each operation keeps an integer bound, from the samples and the entries on. -/
theorem nothingOverflows : Obligations.NothingOverflows := by
  intro p hn htw m b
  refine ⟨fun n hlt => ?products, fun n hle => ?sums, fun c hc => ?ideal, ?ideal255, ?magx⟩
  case products =>
    obtain ⟨hc, hs⟩ := tw_within hn htw b hlt
    have hx := windowValue_within m n
    have hprod {t : F64} (ht : Fp.Within t 1) := (hx.fmul ht (by norm_num)).within
    rw [List.forall_mem_cons, List.forall_mem_singleton]
    exact ⟨⟨(hprod hc).finite, mod_cast (hprod hc).abs_le⟩, ⟨(hprod hs).finite, mod_cast (hprod hs).abs_le⟩⟩
  case sums =>
    obtain ⟨hre, him⟩ := laneSums_within hn htw m b hle
    have hlt : ((255 * n : ℕ) : ℝ) < 58141 := Nat.cast_lt_ofNat.2 (by omega)
    rw [List.forall_mem_cons, List.forall_mem_singleton]
    exact ⟨⟨hre.finite, hre.abs_le.trans_lt hlt⟩, ⟨him.finite, him.abs_le.trans_lt hlt⟩⟩
  case ideal => exact idealMagnitude_le hn m b fun n hlt => Nat.cast_le.2 (hc n hlt)
  case ideal255 => exact idealMagnitude_le hn m b fun n _ => windowReal_le m n
  case magx =>
    rintro re im rfl rfl
    obtain ⟨hre, him⟩ := quotients_within hn htw m b
    obtain ⟨hmag, hsign⟩ := hardwareMagnitude_within hn htw m b
    have hsum := (squares_rounding hre him).within
    refine ⟨hre.finite, hre.abs_le.trans (by norm_num), him.finite, him.abs_le.trans (by norm_num), ?squares, hsum.finite,
      ((le_abs_self _).trans hsum.abs_le).trans_lt (by norm_num), hmag.finite, hsign.positive,
      ((le_abs_self _).trans hmag.abs_le).trans_lt (by norm_num)⟩
    rw [List.forall_mem_cons, List.forall_mem_singleton]
    exact ⟨square_range hre, square_range him⟩

/-! ### The error of the quotients -/

/-- Each sample adds at most 263 units of 2^-40 to the error of a sum: 255 from the table entry, the rest from the two
roundings. -/
theorem accumulate_error {x t : ℕ → F64} {f : ℕ → ℝ} (hx : ∀ n, Fp.Within (x n) 255) (ht : ∀ n < 228, Fp.Within (t n) 1)
    (hf : ∀ n < 228, |Fp.value (t n) - f n| ≤ 1 / 2 ^ 40) {n : ℕ} (hle : n ≤ 228) :
    |Fp.value (accumulate x t n) - ∑ i ∈ Finset.range n, Fp.value (x i) * f i| ≤ n * (263 / 2 ^ 40) := by
  induction n with
  | zero => rw [accumulate, Fp.value_zero, Finset.sum_range_zero, sub_zero, abs_zero, Nat.cast_zero, zero_mul]
  | succ n ih =>
    have ih := ih (by omega)
    have hacc := accumulate_within hx ht (n := n) (by omega)
    have hmul := (hx n).fmul (ht n hle) (by norm_num)
    have hadd := (hacc.fadd hmul.within (by omega)).error
    have hmul := hmul.error
    have hlast : ((255 * n + 255 * 1 : ℕ) : ℝ) ≤ 58140 := Nat.cast_le_ofNat.2 (by omega)
    have hone : ((255 * 1 : ℕ) : ℝ) = 255 := by norm_num
    rw [hone] at hmul
    have hentry : |Fp.value (x n) * Fp.value (t n) - Fp.value (x n) * f n| ≤ (255 : ℕ) * (1 / 2 ^ 40) := by
      rw [← mul_sub, abs_mul]
      exact mul_le_mul (hx n).abs_le (hf n hle) (abs_nonneg _) (Nat.cast_nonneg _)
    rw [accumulate, Finset.sum_range_succ, Nat.cast_succ]
    rw [abs_le] at hadd hmul hentry ih ⊢
    constructor <;> linarith

/-- The division carries the error of the sum on, and adds less than one unit. -/
theorem quotient_error {acc : F64} {sum : ℝ} (hacc : Fp.Within acc (255 * 228))
    (h : |Fp.value acc - sum| ≤ (228 : ℕ) * (263 / 2 ^ 40)) :
    |Fp.value (Fp.fdiv acc (Fp.f64 228)) - sum / (228 : ℕ)| ≤ 264 / 2 ^ 40 := by
  have hround := (hacc.fdiv_f64 (by norm_num) (by norm_num) (by norm_num)).error
  have hsum : |Fp.value acc / (228 : ℕ) - sum / (228 : ℕ)| ≤ 263 / 2 ^ 40 := by
    rw [← sub_div, abs_div, Nat.abs_cast, div_le_iff₀ (by norm_num), mul_comm]
    exact h
  refine (abs_sub_le _ _ _).trans ((add_le_add hround hsum).trans ?_)
  norm_num

/-- The quotients of the hardware are close to the two parts of the ideal transform. -/
theorem quotients_error {p : Params} (hn : p.n = 228) (htw : TwAcc p) (m : Memory) (b : Bin) :
    |Fp.value (quotients p m b).1 - (spectrum p b (toComplex (windowReal m))).re| ≤ 264 / 2 ^ 40 ∧
    |Fp.value (quotients p m b).2 - (spectrum p b (toComplex (windowReal m))).im| ≤ 264 / 2 ^ 40 := by
  obtain ⟨hbound, hacc⟩ := htw
  have hx := windowValue_within m
  have hc (i : ℕ) (hi : i < 228) := (tw_within hn hbound b hi).1
  have hs (i : ℕ) (hi : i < 228) := (tw_within hn hbound b hi).2
  rw [spectrum_re, spectrum_im, hn, quotients, laneSums_eq_accumulate]
  simp only [← value_windowValue]
  exact ⟨quotient_error (accumulate_within hx hc le_rfl)
      (accumulate_error hx hc (fun i hi => (hacc b i (hn ▸ hi)).1) le_rfl),
    quotient_error (accumulate_within hx hs le_rfl)
      (accumulate_error hx hs (fun i hi => (hacc b i (hn ▸ hi)).2) le_rfl)⟩

/-- The two quotients as one complex number. -/
noncomputable def quotientsValue (p : Params) (m : Memory) (b : Bin) : ℂ :=
  ⟨Fp.value (quotients p m b).1, Fp.value (quotients p m b).2⟩

/-- The distance of the two vectors is at most the sum of their distances in each part. -/
theorem quotientsValue_error {p : Params} (hn : p.n = 228) (htw : TwAcc p) (m : Memory) (b : Bin) :
    ‖quotientsValue p m b - spectrum p b (toComplex (windowReal m))‖ ≤ 528 / 2 ^ 40 := by
  obtain ⟨hre, him⟩ := quotients_error hn htw m b
  refine (Complex.norm_le_abs_re_add_abs_im _).trans ((add_le_add hre him).trans ?_)
  norm_num

/-! ### The error of the root of the squares -/

/-- A relative change of a number changes its root by no more, and an absolute change by no more than its own root. -/
theorem abs_sqrt_sub_sqrt_le {s t d e : ℝ} (hs : 0 ≤ s) (ht : 0 ≤ t) (hd : 0 ≤ d) (hd1 : d ≤ 1) (he : 0 ≤ e)
    (h : |s - t| ≤ d * t + e) : |√s - √t| ≤ d * √t + √e := by
  obtain ⟨hlo, hhi⟩ := abs_le.1 h
  have hs2 := Real.sq_sqrt hs
  have ht2 := Real.sq_sqrt ht
  have he2 := Real.sq_sqrt he
  have hse := mul_nonneg (Real.sqrt_nonneg s) (Real.sqrt_nonneg e)
  have hte := mul_nonneg (Real.sqrt_nonneg t) (Real.sqrt_nonneg e)
  have hupper : √s ≤ (1 + d) * √t + √e := by
    refine Real.sqrt_le_iff.2 ⟨by positivity, ?_⟩
    calc s ≤ (1 + d) * t + e := by linarith
      _ ≤ (1 + d) * ((1 + d) * t) + e := by nlinarith [mul_nonneg hd ht]
      _ ≤ ((1 + d) * √t + √e) ^ 2 := by
        rw [add_sq, mul_pow, ht2, he2]
        linarith [mul_nonneg hd hte]
  have hlower : (1 - d) * √t ≤ √s + √e := by
    refine le_of_sq_le_sq ?_ (by positivity)
    calc ((1 - d) * √t) ^ 2 = (1 - d) * ((1 - d) * t) := by rw [mul_pow, ht2]; ring
      _ ≤ (1 - d) * t := by nlinarith [mul_nonneg hd ht]
      _ ≤ s + e := by linarith
      _ ≤ (√s + √e) ^ 2 := by nlinarith
  rw [abs_le]
  constructor <;> linarith

/-- The two squares and their sum, three roundings: a relative error, and what underflow may cost. -/
theorem squares_error {re im : F64} (hre : Fp.Within re 255) (him : Fp.Within im 255) :
    |Fp.value (Fp.fadd (Fp.fmul re re) (Fp.fmul im im)) - (Fp.value re ^ 2 + Fp.value im ^ 2)| ≤
      1 / 2 ^ 51 * (Fp.value re ^ 2 + Fp.value im ^ 2) + 1 / 2 ^ 98 := by
  have hmul := (hre.fmul hre (by norm_num)).relative_error
  have hmul' := (him.fmul him (by norm_num)).relative_error
  have hadd := (squares_rounding hre him).relative_error
  have hsq := (Fp.unsigned_fmul_self (Fp.isNaN_of_isFinite hre.finite)).value_nonneg
  have hsq' := (Fp.unsigned_fmul_self (Fp.isNaN_of_isFinite him.finite)).value_nonneg
  have hre2 := sq_nonneg (Fp.value re)
  have him2 := sq_nonneg (Fp.value im)
  rw [← pow_two, abs_of_nonneg hre2] at hmul
  rw [← pow_two, abs_of_nonneg him2] at hmul'
  rw [abs_of_nonneg (add_nonneg hsq hsq')] at hadd
  rw [abs_le] at hmul hmul' hadd ⊢
  constructor <;> linarith

/-- The root of the squares, with its own rounding. -/
theorem magnitude_error {re im : F64} (hre : Fp.Within re 255) (him : Fp.Within im 255) :
    |Fp.value (magnitude re im) - √(Fp.value re ^ 2 + Fp.value im ^ 2)| ≤ 1 / 2 ^ 40 := by
  have hround := (magnitude_rounding hre him).error
  have hsum := squares_error hre him
  have hmove := abs_sqrt_sub_sqrt_le (squares_nonneg hre him) (by positivity) (by norm_num) (by norm_num) (by norm_num) hsum
  have hlength : √(Fp.value re ^ 2 + Fp.value im ^ 2) ≤ 361 := by
    refine Real.sqrt_le_iff.2 ⟨by norm_num, ?_⟩
    have hre2 := pow_le_pow_left₀ (abs_nonneg _) hre.abs_le 2
    have him2 := pow_le_pow_left₀ (abs_nonneg _) him.abs_le 2
    rw [sq_abs] at hre2 him2
    norm_num at hre2 him2 ⊢
    linarith
  have hunder : √(1 / 2 ^ 98) = (1 / 2 ^ 49 : ℝ) := by
    rw [show (1 / 2 ^ 98 : ℝ) = (1 / 2 ^ 49) ^ 2 by norm_num, Real.sqrt_sq (by positivity)]
  rw [hunder] at hmove
  refine (abs_sub_le _ _ _).trans ((add_le_add hround hmove).trans ?_)
  norm_num at hlength ⊢
  linarith

/-- The magnitude of the hardware against the ideal one: the root first, then the quotients under it (R152). -/
theorem hardwareMagnitude_error {p : Params} (hn : p.n = 228) (htw : TwAcc p) (m : Memory) (b : Bin) :
    |Fp.value (hardwareMagnitude p m b) - idealMagnitude p b (windowReal m)| < 1 / 2 ^ 29 := by
  obtain ⟨hre, him⟩ := quotients_within hn htw.1 m b
  have hroot := magnitude_error hre him
  have hnorm : √(Fp.value (quotients p m b).1 ^ 2 + Fp.value (quotients p m b).2 ^ 2) = ‖quotientsValue p m b‖ :=
    (Complex.norm_eq_sqrt_sq_add_sq (quotientsValue p m b)).symm
  have hquot := (abs_norm_sub_norm_le _ _).trans (quotientsValue_error hn htw m b)
  rw [hnorm, ← hardwareMagnitude_eq hn] at hroot
  rw [← idealMagnitude_eq_norm] at hquot
  refine (abs_sub_le _ _ _).trans_lt ((add_le_add hroot hquot).trans_lt ?_)
  norm_num

/-- Settles O22: the comparisons are those of the values, each within 2^-29 of the ideal magnitude. -/
theorem magnitudeAccuracy : Obligations.MagnitudeAccuracy := by
  intro p hn htw m b
  obtain ⟨-, hcompare⟩ := Fp.conversionAndComparisonsExact
  have herr (b : Bin) := abs_lt.1 (hardwareMagnitude_error hn htw m b)
  have hfin (b : Bin) := (hardwareMagnitude_within hn htw.1 m b).1.finite
  obtain ⟨hfive, hfive'⟩ := Fp.value_f64 (i := 5) (by norm_num)
  obtain ⟨hlo, hhi⟩ := herr b
  refine ⟨hardwareMagnitude_error hn htw m b, fun h => ?_, fun h => ?_, fun b' h => ?_⟩
  · rw [(hcompare _ _ (hfin b) hfive).2, hfive', Nat.cast_ofNat]
    linarith
  · rw [(hcompare _ _ (hfin b) hfive).1, hfive', Nat.cast_ofNat]
    linarith
  · rw [(hcompare _ _ (hfin b) (hfin b')).2]
    obtain ⟨hlo', hhi'⟩ := herr b'
    linarith

end Sys2Proof.Machine
end

section
/-! SUPPORT. The verdict on constant windows and on two tones (spec/43_digit_decoder.md R177): the two strongest bins are
those whose magnitudes are above all others, and the ideal magnitudes say which these are. -/

namespace Sys2Proof.Machine

/-! ### The two strongest bins -/

/-- The scan goes on from the stronger of the first two bins, the first one at a tie. -/
theorem strongest_cons_cons (mag : Lanes F64) (a c : Bin) (cs : List Bin) :
    strongest mag (a :: c :: cs) = strongest mag ((if Fp.fgt (mag.get c) (mag.get a) then c else a) :: cs) := rfl

/-- No bin of the list is above the one the scan answers. -/
theorem key_le_strongest {mag : Lanes F64} (hmag : ∀ b, Fp.isNaN (mag.get b) = false) {a b : Bin} {rest : List Bin}
    (hb : b ∈ a :: rest) : Fp.key (mag.get b) ≤ Fp.key (mag.get (strongest mag (a :: rest))) := by
  induction rest generalizing a b with
  | nil => rw [List.mem_singleton.1 hb]; rfl
  | cons c cs ih =>
    have hwinner : Fp.key (mag.get a) ≤ Fp.key (mag.get (if Fp.fgt (mag.get c) (mag.get a) then c else a)) ∧
        Fp.key (mag.get c) ≤ Fp.key (mag.get (if Fp.fgt (mag.get c) (mag.get a) then c else a)) := by
      have hgt := Fp.fgt_iff (hmag c) (hmag a)
      split
      next h => exact ⟨(hgt.1 h).le, le_rfl⟩
      next h => exact ⟨le_rfl, not_lt.1 (mt hgt.2 h)⟩
    rw [strongest_cons_cons]
    rcases List.mem_cons.1 hb with rfl | hb
    · exact hwinner.1.trans (ih List.mem_cons_self)
    rcases List.mem_cons.1 hb with rfl | hb
    · exact hwinner.2.trans (ih List.mem_cons_self)
    · exact ih (List.mem_cons_of_mem _ hb)

theorem not_fgt_strongest {mag : Lanes F64} (hmag : ∀ b, Fp.isNaN (mag.get b) = false) {order : List Bin} {b : Bin}
    (hb : b ∈ order) : ¬ Fp.fgt (mag.get b) (mag.get (strongest mag order)) = true := by
  obtain ⟨a, rest, rfl⟩ := List.exists_cons_of_ne_nil (List.ne_nil_of_mem hb)
  rw [Fp.fgt_iff (hmag _) (hmag _), not_lt]
  exact key_le_strongest hmag hb

/-- With the strongest bin known, a bin above all the others is the second. -/
theorem topTwo_eq_of_strongest {p : Params} {mag : Lanes F64} (hmag : ∀ b, Fp.isNaN (mag.get b) = false) {a b : Bin}
    (ha : strongest mag p.tieOrder = a) (hb : b ∈ p.tieOrder) (hab : b ≠ a)
    (h : ∀ c, c ≠ a → c ≠ b → Fp.fgt (mag.get b) (mag.get c) = true) : topTwo p mag = (a, b) := by
  unfold topTwo
  dsimp only
  rw [ha]
  have hmem : b ∈ p.tieOrder.filter fun c => c != a := List.mem_filter.2 ⟨hb, bne_iff_ne.2 hab⟩
  have hne := bne_iff_ne.1 (List.mem_filter.1 (strongest_mem mag (List.ne_nil_of_mem hmem))).2
  by_contra hcontra
  exact not_fgt_strongest hmag hmem (h _ hne fun e => hcontra (congrArg (Prod.mk a) e))

/-- Two bins above all others are the two strongest, in one order or the other (R178). -/
theorem topTwo_eq {p : Params} {mag : Lanes F64} (hmag : ∀ b, Fp.isNaN (mag.get b) = false)
    (horder : ∀ b, b ∈ p.tieOrder) {a b : Bin} (hab : a ≠ b)
    (h : ∀ c, c ≠ a → c ≠ b → Fp.fgt (mag.get a) (mag.get c) = true ∧ Fp.fgt (mag.get b) (mag.get c) = true) :
    topTwo p mag = (a, b) ∨ topTwo p mag = (b, a) := by
  have hfirst : strongest mag p.tieOrder = a ∨ strongest mag p.tieOrder = b := by
    by_contra hcontra
    obtain ⟨hna, hnb⟩ := not_or.1 hcontra
    exact not_fgt_strongest hmag (horder a) (h _ hna hnb).1
  exact hfirst.imp
    (fun ha => topTwo_eq_of_strongest hmag ha (horder b) hab.symm fun c hca hcb => (h c hca hcb).2)
    (fun hb => topTwo_eq_of_strongest hmag hb (horder a) hab fun c hcb hca => (h c hca hcb).1)

theorem pairIndex_comm (b1 b2 : Bin) : pairIndex b1 b2 = pairIndex b2 b1 := by
  rw [pairIndex, pairIndex, min_comm, max_comm]

/-- Two bins above the threshold and above all others, one in each group, give the verdict of the pair. -/
theorem verdictOfWindow_eq_digit {p : Params} {m : Memory} {a b : Bin} {i : SymIndex}
    (hmag : ∀ c, Fp.isNaN (hardwareMagnitude p m c) = false) (horder : ∀ c, c ∈ p.tieOrder) (hab : a ≠ b)
    (h : ∀ c, c ≠ a → c ≠ b → Fp.fgt (hardwareMagnitude p m a) (hardwareMagnitude p m c) = true ∧
      Fp.fgt (hardwareMagnitude p m b) (hardwareMagnitude p m c) = true)
    (ha : Fp.fle (hardwareMagnitude p m a) p.thresh = false) (hb : Fp.fle (hardwareMagnitude p m b) p.thresh = false)
    (hpair : pairIndex a b = some i) : verdictOfWindow p m = .digit i := by
  have htop := topTwo_eq (p := p) (mag := Lanes.ofFn (hardwareMagnitude p m)) (by simpa using hmag) horder hab
    (by simpa using h)
  unfold verdictOfWindow
  dsimp only
  rcases htop with e | e <;> rw [e] <;> simp only [verdictFor, Lanes.get_ofFn, ha, hb, Bool.false_eq_true, or_self, if_false]
  · rw [hpair]
  · rw [pairIndex_comm, hpair]

/-! ### The parameters of PS1 with another table -/

/-- What a parameter set that differs from PS1 in its table has in common with it. -/
structure LikePs1 (p : Params) : Prop where
  n : p.n = 228
  k : p.k = krom
  thresh : p.thresh = Fp.f64 5
  order : ∀ b, b ∈ p.tieOrder

theorem thresh_ps1 : ps1.thresh = Fp.f64 5 := by decide +kernel

theorem likePs1 {p : Params} (hp : p = { ps1 with tw := p.tw }) : LikePs1 p := by
  rw [hp]
  exact ⟨rfl, rfl, thresh_ps1, mem_bins⟩

theorem LikePs1.inRange {p : Params} (hp : LikePs1 p) : HarmonicsInRange p := by
  rw [HarmonicsInRange, hp.n, hp.k]
  decide

theorem LikePs1.k_inj {p : Params} (hp : LikePs1 p) {a b : Bin} : p.k a = p.k b ↔ a = b := by
  rw [hp.k, krom_inj_iff, BitVec.toNat_inj]

/-- The ideal magnitude of a window near another one, by that one's transform (R151 (d)). -/
theorem abs_idealMagnitude_sub_norm_le {p : Params} (hn : 0 < p.n) (b : Bin) {w : ℕ → ℝ} {v : ℕ → ℂ} {d : ℝ}
    (h : ∀ n < p.n, ‖(w n : ℂ) - v n‖ ≤ d) : |idealMagnitude p b w - ‖spectrum p b v‖| ≤ d := by
  rw [idealMagnitude_eq_norm]
  refine (abs_norm_sub_norm_le _ _).trans ?_
  rw [← map_sub]
  exact norm_spectrum_le hn b h

/-! ### A constant window -/

/-- Settles O24: the ideal magnitudes are 0, so those of the hardware are below 2^-29, and so below the threshold. -/
theorem constantWindowIsSilence : Obligations.ConstantWindowIsSilence := by
  intro p hp htw m c hm
  have hps1 := likePs1 hp
  have hideal (b : Bin) : idealMagnitude p b (windowReal m) = 0 := by
    have hnear := abs_idealMagnitude_sub_norm_le hps1.inRange.pos b (w := windowReal m) (v := fun _ => (c.toNat : ℂ)) (d := 0)
      fun n hn => by simp [windowReal, hm n (hps1.n ▸ hn)]
    rwa [spectrum_const hps1.inRange, norm_zero, sub_zero, abs_nonpos_iff] at hnear
  have hacc (b : Bin) := magnitudeAccuracy p hps1.n htw m b
  refine ⟨fun b => ?_, verdictOfWindow_eq_none fun b => ?_⟩
  · obtain ⟨herr, -⟩ := hacc b
    rwa [hideal, sub_zero] at herr
  · obtain ⟨-, -, hbelow, -⟩ := hacc b
    rw [hps1.thresh]
    exact hbelow (by rw [hideal]; norm_num)

/-! ### Two tones -/

/-- A constant and two tones on bins. -/
noncomputable def twoTones (p : Params) (x y : Bin) (c a1 a2 phi1 phi2 : ℝ) : ℕ → ℂ :=
  (fun _ => (c : ℂ)) + (a1 : ℂ) • tone p x phi1 + (a2 : ℂ) • tone p y phi2

theorem twoTones_apply (p : Params) (x y : Bin) (c a1 a2 phi1 phi2 : ℝ) (n : ℕ) : twoTones p x y c a1 a2 phi1 phi2 n =
    ((c + a1 * Real.cos (phase p x n + phi1) + a2 * Real.cos (phase p y n + phi2) : ℝ) : ℂ) := by
  simp only [twoTones, tone, Pi.add_apply, Pi.smul_apply, smul_eq_mul]
  push_cast
  rfl

/-- Two tones on different harmonics superpose: half of each amplitude in its bin, and nothing elsewhere (R151 (c)). -/
theorem norm_spectrum_twoTones {p : Params} (hp : LikePs1 p) {x y : Bin} (hxy : x ≠ y) {a1 a2 : ℝ} (ha1 : 0 ≤ a1)
    (ha2 : 0 ≤ a2) (b : Bin) (c phi1 phi2 : ℝ) : ‖spectrum p b (twoTones p x y c a1 a2 phi1 phi2)‖ =
      if b = x then a1 / 2 else if b = y then a2 / 2 else 0 := by
  have hx := norm_spectrum_tone hp.inRange b x phi1
  have hy := norm_spectrum_tone hp.inRange b y phi2
  simp only [hp.k_inj] at hx hy
  rw [twoTones, map_add, map_add, map_smul, map_smul, spectrum_const hp.inRange, zero_add]
  split
  next hbx =>
    rw [if_neg (fun hby => hxy (hbx.symm.trans hby)), norm_eq_zero] at hy
    rw [if_pos hbx] at hx
    rw [hy, smul_zero, add_zero, norm_smul, hx, Complex.norm_real, Real.norm_of_nonneg ha1, mul_one_div]
  next hbx =>
    rw [if_neg hbx, norm_eq_zero] at hx
    rw [hx, smul_zero, zero_add, norm_smul, hy, Complex.norm_real, Real.norm_of_nonneg ha2, mul_ite, mul_one_div, mul_zero]

/-- Settles O25: the two tones are above the threshold and above all other bins, which see only the rounding. -/
theorem twoToneWindowDecodes : Obligations.TwoToneWindowDecodes := by
  intro p hp htw m row col c a1 a2 phi1 phi2 hrow hcol ha1 ha2 hm
  have hps1 := likePs1 hp
  have hpair := symbolTable.2 row col hrow hcol
  have hxy : BitVec.ofNat 3 row ≠ BitVec.ofNat 3 (col + 4) := fun e => by
    have := congrArg BitVec.toNat e
    rw [toNat_ofNat_row hrow, toNat_ofNat_col hcol] at this
    omega
  generalize BitVec.ofNat 3 row = x at *
  generalize BitVec.ofNat 3 (col + 4) = y at *
  have hacc (b : Bin) := magnitudeAccuracy p hps1.n htw m b
  have hnear (b : Bin) :
      |idealMagnitude p b (windowReal m) - if b = x then a1 / 2 else if b = y then a2 / 2 else 0| ≤ 1 / 2 := by
    rw [← norm_spectrum_twoTones hps1 hxy (by linarith) (by linarith) b c phi1 phi2]
    refine abs_idealMagnitude_sub_norm_le hps1.inRange.pos b fun n hn => ?_
    rw [twoTones_apply, ← Complex.ofReal_sub, Complex.norm_real]
    exact hm n (hps1.n ▸ hn)
  have hx : 11 / 2 ≤ idealMagnitude p x (windowReal m) := by
    have h := hnear x
    rw [if_pos rfl, abs_le] at h
    linarith
  have hy : 11 / 2 ≤ idealMagnitude p y (windowReal m) := by
    have h := hnear y
    rw [if_neg hxy.symm, if_pos rfl, abs_le] at h
    linarith
  have hother (b : Bin) (hbx : b ≠ x) (hby : b ≠ y) : idealMagnitude p b (windowReal m) ≤ 1 / 2 := by
    have h := hnear b
    rw [if_neg hbx, if_neg hby, abs_le] at h
    linarith
  have hnumber (b : Bin) := Fp.isNaN_of_isFinite (hardwareMagnitude_within hps1.n htw.1 m b).1.finite
  have habove {b : Bin} (hb : 11 / 2 ≤ idealMagnitude p b (windowReal m)) :
      Fp.fle (hardwareMagnitude p m b) p.thresh = false := by
    obtain ⟨-, hgt, -⟩ := hacc b
    have hgt := hgt (by norm_num; linarith)
    rw [← hps1.thresh, Fp.fgt_eq_not_fle (hnumber b) (hps1.thresh ▸ (Fp.unsigned_f64 5).number)] at hgt
    simpa using hgt
  refine verdictOfWindow_eq_digit hnumber hps1.order hxy (fun b hbx hby => ?_) (habove hx) (habove hy) hpair
  have hb := hother b hbx hby
  obtain ⟨-, -, -, hxgt⟩ := hacc x
  obtain ⟨-, -, -, hygt⟩ := hacc y
  exact ⟨hxgt b (by norm_num; linarith), hygt b (by norm_num; linarith)⟩

end Sys2Proof.Machine
end

section
/-! SUPPORT. PEAK and DECIDE (spec/43_digit_decoder.md): the scan keeps the first bin in its order among the strongest, and
the verdict depends neither on the order of the two bins nor, where R178 says so, on the tie rule. -/

namespace Sys2Proof.Fp

/-- A number above another one is not at most that one. -/
theorem fle_eq_false_of_fgt {x y : F64} (h : fgt x y = true) : fle x y = false := by
  simp only [fgt, fle, Bool.and_eq_true, decide_eq_true_eq, Bool.and_eq_false_iff, decide_eq_false_iff_not] at h ⊢
  exact .inr (not_le.2 h.2)

end Sys2Proof.Fp

namespace Sys2Proof.Machine

/-! ### The first of the strongest bins -/

/-- In a rising list every bin before the one the scan answers is below it: a tie does not move the scan on (R170). -/
theorem key_lt_strongest {mag : Lanes F64} (hmag : ∀ b, Fp.isNaN (mag.get b) = false) {a b : Bin} {rest : List Bin}
    (hsorted : (a :: rest).Pairwise (· < ·)) (hb : b ∈ a :: rest) (hlt : b < strongest mag (a :: rest)) :
    Fp.key (mag.get b) < Fp.key (mag.get (strongest mag (a :: rest))) := by
  induction rest generalizing a b with
  | nil => exact absurd hlt (List.mem_singleton.1 hb ▸ BitVec.lt_irrefl b)
  | cons c cs ih =>
    have hgt := Fp.fgt_iff (hmag c) (hmag a)
    have htail := hsorted.of_cons
    have hac : a < c := List.rel_of_pairwise_cons hsorted List.mem_cons_self
    rw [strongest_cons_cons] at hlt ⊢
    split at hlt
    next hwin =>
      rw [if_pos hwin]
      rcases List.mem_cons.1 hb with rfl | hb
      · exact (hgt.1 hwin).trans_le (key_le_strongest hmag List.mem_cons_self)
      · exact ih htail hb hlt
    next hkeep =>
      have hsorted' : (a :: cs).Pairwise (· < ·) := hsorted.sublist ((List.sublist_cons_self c cs).cons_cons a)
      rw [if_neg hkeep]
      rcases List.mem_cons.1 hb with rfl | hb
      · exact ih hsorted' List.mem_cons_self hlt
      rcases List.mem_cons.1 hb with rfl | hb
      · exact (not_lt.1 (mt hgt.2 hkeep)).trans_lt (ih hsorted' List.mem_cons_self (BitVec.lt_trans hac hlt))
      · exact ih hsorted' (List.mem_cons_of_mem a hb) hlt

/-- On numbers the scan of a rising list answers the lowest-numbered bin among those of maximal magnitude. -/
theorem strongest_is_lowest_maximal {mag : Lanes F64} (hmag : ∀ b, Fp.isNaN (mag.get b) = false) {order : List Bin}
    (hsorted : order.Pairwise (· < ·)) {b : Bin} (hb : b ∈ order) :
    Fp.fle (mag.get b) (mag.get (strongest mag order)) = true ∧
      (b < strongest mag order → Fp.fgt (mag.get (strongest mag order)) (mag.get b) = true) := by
  obtain ⟨a, rest, rfl⟩ := List.exists_cons_of_ne_nil (List.ne_nil_of_mem hb)
  exact ⟨(Fp.fle_iff (hmag _) (hmag _)).2 (key_le_strongest hmag hb),
    fun hlt => (Fp.fgt_iff (hmag _) (hmag _)).2 (key_lt_strongest hmag hsorted hb hlt)⟩

theorem topTwo_fst (p : Params) (mag : Lanes F64) : (topTwo p mag).1 = strongest mag p.tieOrder := by
  rw [topTwo]

/-- The second scan leaves out the answer of the first. -/
theorem topTwo_snd (p : Params) (mag : Lanes F64) :
    (topTwo p mag).2 = strongest mag (p.tieOrder.filter fun b => b != (topTwo p mag).1) := by
  rw [topTwo]

theorem pairwise_lt_bins : bins.Pairwise (· < ·) := by decide

/-- Settles O31: each of the two scans is over a rising list, the second one over the bins other than `TOP1`. -/
theorem peakPicksTwoStrongest : Obligations.PeakPicksTwoStrongest := by
  intro s
  refine ⟨peak ps1 s, rfl, rfl, topTwo_ne s.mag (a := 0) (b := 1) (mem_bins 0) (mem_bins 1) (by decide), fun hmag => ?_⟩
  have hfirst (b : Bin) := strongest_is_lowest_maximal hmag pairwise_lt_bins (mem_bins b)
  have hsecond (b : Bin) (hb : b ≠ (topTwo ps1 s.mag).1) :=
    strongest_is_lowest_maximal hmag (pairwise_lt_bins.filter fun b => b != (topTwo ps1 s.mag).1)
      (List.mem_filter.2 ⟨mem_bins b, bne_iff_ne.2 hb⟩)
  rw [← ps1_tieOrder] at hfirst hsecond
  rw [← topTwo_fst] at hfirst
  rw [← topTwo_snd] at hsecond
  exact ⟨fun b => (hfirst b).1, fun b => (hfirst b).2, fun b hb => (hsecond b hb).1, fun b hb => (hsecond b hb).2⟩

/-! ### The verdict -/

/-- One magnitude that is not above the threshold is enough for `NONE`. -/
theorem verdictFor_eq_none {p : Params} {b1 b2 : Bin} {m1 m2 : F64}
    (h : Fp.fle m1 p.thresh = true ∨ Fp.fle m2 p.thresh = true) : verdictFor p b1 b2 m1 m2 = .none := if_pos h

/-- With both magnitudes above the threshold the pair decides. -/
theorem verdictFor_of_fgt {p : Params} (b1 b2 : Bin) {m1 m2 : F64} (h1 : Fp.fgt m1 p.thresh = true)
    (h2 : Fp.fgt m2 p.thresh = true) : verdictFor p b1 b2 m1 m2 = (pairIndex b1 b2).elim .unknown .digit := by
  rw [verdictFor, Fp.fle_eq_false_of_fgt h1, Fp.fle_eq_false_of_fgt h2, if_neg (by decide)]
  cases pairIndex b1 b2 <;> rfl

/-- The verdict does not depend on which of the two bins is the first. -/
theorem verdictFor_comm (p : Params) (b1 b2 : Bin) (m1 m2 : F64) :
    verdictFor p b1 b2 m1 m2 = verdictFor p b2 b1 m2 m1 := by
  rw [verdictFor, verdictFor, pairIndex_comm]
  exact if_congr or_comm rfl rfl

/-- The verdict reads the threshold and no other parameter. -/
theorem verdictFor_congr {p q : Params} (h : q.thresh = p.thresh) (b1 b2 : Bin) (m1 m2 : F64) :
    verdictFor p b1 b2 m1 m2 = verdictFor q b1 b2 m1 m2 := by
  rw [verdictFor, verdictFor, h]

/-- DECIDE writes the kind and the symbol of the verdict on its two bins, and nothing else. -/
theorem exec_decide_of_verdict {s : State} {v : Verdict}
    (h : verdictFor ps1 s.top1 s.top2 (s.mag.get s.top1) (s.mag.get s.top2) = v) :
    exec .decide s = .next { s with rk := v.kind, rsym := v.sym } := by
  rw [← h]
  rfl

/-- Settles O32: the verdict along its two tests, the threshold and the pair. -/
theorem decideVerdict_holds : Obligations.DecideVerdict := by
  intro s
  rw [exec_decide_of_verdict rfl, verdictFor, thresh_ps1, pairIndex]
  split_ifs <;> rfl

/-- Settles O34: the lookup on the harmonics is the lookup on the bins (R126). -/
theorem decideByHarmonics : Obligations.DecideByHarmonics := by
  intro s h1 h2
  rw [← thresh_ps1] at h1 h2
  refine ⟨_, exec_decide_of_verdict (verdictFor_of_fgt s.top1 s.top2 h1 h2), ?_⟩
  rw [digitForHarmonicPair_krom]
  cases pairIndex s.top1 s.top2 with
  | none => rfl
  | some i => exact ⟨rfl, rfl⟩

/-! ### Where the tie rule cannot change the verdict -/

/-- The verdict that PEAK and DECIDE give on eight magnitudes. -/
def peakVerdict (p : Params) (mag : Lanes F64) : Verdict :=
  verdictFor p (topTwo p mag).1 (topTwo p mag).2 (mag.get (topTwo p mag).1) (mag.get (topTwo p mag).2)

/-- It is the verdict that the two instructions leave in `RK` and `RSYM`. -/
theorem verdictOf_decideVerdict_peak (p : Params) (s : State) :
    verdictOf (decideVerdict p (peak p s)).rk (decideVerdict p (peak p s)).rsym = peakVerdict p s.mag :=
  decideVerdict_verdict p (peak p s)

/-- An accepted set lists every bin in its tie rule. -/
theorem mem_tieOrder_of_ok {p : Params} (h : p.ok = true) (b : Bin) : b ∈ p.tieOrder := by
  obtain ⟨-, -, -, -, -, -, -, -, -, hall⟩ := (configChecks.1 p).1 h
  exact hall b

/-- Two bins above all others are the two the verdict is on. -/
theorem peakVerdict_of_top_pair {p : Params} {mag : Lanes F64} (hmag : ∀ b, Fp.isNaN (mag.get b) = false)
    (horder : ∀ b, b ∈ p.tieOrder) {a b : Bin} (hab : a ≠ b)
    (h : ∀ c, c ≠ a → c ≠ b → Fp.fgt (mag.get a) (mag.get c) = true ∧ Fp.fgt (mag.get b) (mag.get c) = true) :
    peakVerdict p mag = verdictFor p a b (mag.get a) (mag.get b) := by
  rw [peakVerdict]
  rcases topTwo_eq hmag horder hab h with e | e <;> rw [e]
  exact verdictFor_comm ..

/-- Of the two strongest bins one at least is not `a`. -/
theorem peakVerdict_eq_none {p : Params} {mag : Lanes F64} (horder : ∀ b, b ∈ p.tieOrder) {a : Bin}
    (h : ∀ b, b ≠ a → Fp.fle (mag.get b) p.thresh = true) : peakVerdict p mag = .none := by
  have hne := topTwo_ne mag (horder 0) (horder 1) (by decide)
  refine verdictFor_eq_none ?_
  by_cases hfirst : (topTwo p mag).1 = a
  · exact .inr (h _ fun hsecond => hne (hfirst.trans hsecond.symm))
  · exact .inl (h _ hfirst)

/-- Settles O35: under both tie rules the verdict is on the same two bins, or on one that is not above the threshold. -/
theorem tieRuleMatters : Obligations.TieRuleMatters := by
  intro p q mag hq hp hqok hmag
  have hthresh : q.thresh = p.thresh := by rw [hq]
  have horderp := mem_tieOrder_of_ok hp
  have horderq := mem_tieOrder_of_ok hqok
  refine ⟨fun a b hab h => ?_, fun a h => peakVerdict_eq_none horderq (hthresh ▸ h)⟩
  calc peakVerdict p mag = verdictFor p a b (mag.get a) (mag.get b) := peakVerdict_of_top_pair hmag horderp hab h
    _ = verdictFor q a b (mag.get a) (mag.get b) := verdictFor_congr hthresh ..
    _ = peakVerdict q mag := (peakVerdict_of_top_pair hmag horderq hab h).symm

end Sys2Proof.Machine
end

section
/-! SUPPORT. The segmentation machine over sequences of verdicts (spec/44_segmentation_fsm.md): what each verdict does, the
runs of equal verdicts, the counter that stops against one that does not, and the boundaries. -/

namespace Sys2Proof.Machine

/-! ### One verdict -/

theorem segWindow_digit {p : Params} (hp : 1 ≤ p.silThreshold) (i : SymIndex) (det : DetState) (sil : Byte) :
    segWindow p (.digit i) det sil = ⟨.tone, 0, if det = .idle then [p.sym i] else []⟩ := by
  rcases segWindow_cases hp (.digit i) det sil with ⟨j, hj, e⟩ | ⟨h, -⟩ | ⟨h, -⟩
  · cases hj; exact e
  · cases h
  · cases h

theorem segWindow_unknown {p : Params} (hp : 1 ≤ p.silThreshold) (det : DetState) (sil : Byte) :
    segWindow p .unknown det sil = ⟨det, 0, [charUnknown]⟩ := by
  rcases segWindow_cases hp .unknown det sil with ⟨j, h, -⟩ | ⟨-, e⟩ | ⟨h, -⟩
  · cases h
  · exact e
  · cases h

theorem segWindow_none {p : Params} (hp : 1 ≤ p.silThreshold) (det : DetState) (sil : Byte) :
    segWindow p .none det sil =
      ⟨.idle, silNext p sil, if (silNext p sil).toNat = p.silThreshold then [charLF] else []⟩ := by
  rcases segWindow_cases hp .none det sil with ⟨j, h, -⟩ | ⟨h, -⟩ | ⟨-, e⟩
  · cases h
  · cases h
  · exact e

theorem segRun_digit_cons {p : Params} (hp : 1 ≤ p.silThreshold) (i : SymIndex) (vs : List Verdict) (det : DetState)
    (sil : Byte) : segRun p (.digit i :: vs) det sil =
      { segRun p vs .tone 0 with
        emitted := (if det = .idle then [p.sym i] else []) ++ (segRun p vs .tone 0).emitted } := by
  simp only [segRun, segWindow_digit hp]

theorem segRun_unknown_cons {p : Params} (hp : 1 ≤ p.silThreshold) (vs : List Verdict) (det : DetState) (sil : Byte) :
    segRun p (.unknown :: vs) det sil =
      { segRun p vs det 0 with emitted := charUnknown :: (segRun p vs det 0).emitted } := by
  simp only [segRun, segWindow_unknown hp, List.singleton_append]

theorem segRun_none_cons {p : Params} (hp : 1 ≤ p.silThreshold) (vs : List Verdict) (det : DetState) (sil : Byte) :
    segRun p (.none :: vs) det sil =
      { segRun p vs .idle (silNext p sil) with
        emitted := (if (silNext p sil).toNat = p.silThreshold then [charLF] else []) ++
          (segRun p vs .idle (silNext p sil)).emitted } := by
  simp only [segRun, segWindow_none hp]

/-- The range of the threshold that the build checks (R9). -/
theorem silThreshold_range_of_ok {p : Params} (h : p.ok = true) : 1 ≤ p.silThreshold ∧ p.silThreshold < p.silMax := by
  obtain ⟨-, -, -, -, hsil, -⟩ := (configChecks.1 p).1 h
  omega

theorem ps1_silThreshold_pos : 1 ≤ ps1.silThreshold := by decide

/-! ### The counter that stops and one that does not -/

/-- The 8-bit counter is the unbounded one cut off at the maximum. The two reach the threshold, which is below the maximum,
at the same windows. -/
theorem segRun_emitted_eq_counterRun {p : Params} (hp : 1 ≤ p.silThreshold) (hlt : p.silThreshold < p.silMax)
    (hmax : p.silMax < 256) (vs : List Verdict) (det : DetState) {sil : Byte} {count : ℕ}
    (hsil : sil.toNat = min count p.silMax) :
    (segRun p vs det sil).emitted = counterRun (fun n => n + 1) p vs det count := by
  induction vs generalizing det sil count with
  | nil => rfl
  | cons v vs ih =>
    have hzero : (0 : Byte).toNat = min 0 p.silMax := (Nat.zero_min _).symm
    cases v with
    | digit i => simp only [segRun_digit_cons hp, counterRun, ih .tone hzero]
    | unknown => simp only [segRun_unknown_cons hp, counterRun, ih det hzero]
    | none =>
      have hnext : (silNext p sil).toNat = min (count + 1) p.silMax := by rw [silNext_toNat hmax]; omega
      have hboundary : (silNext p sil).toNat = p.silThreshold ↔ count + 1 = p.silThreshold := by omega
      simp only [segRun_none_cons hp, counterRun, ih .idle hnext, hboundary]

/-- Silent windows over which the counter counts: one boundary if it passes the threshold. -/
theorem counterRun_silence_append {up : ℕ → ℕ} (p : Params) (vs : List Verdict) {n count : ℕ}
    (hup : ∀ c < count + n, up c = c + 1) :
    counterRun up p (List.replicate n .none ++ vs) .idle count =
      (if count < p.silThreshold ∧ p.silThreshold ≤ count + n then [charLF] else []) ++
        counterRun up p vs .idle (count + n) := by
  induction n generalizing count with
  | zero => rw [if_neg (by omega)]; rfl
  | succ n ih =>
    rw [List.replicate_succ, List.cons_append, counterRun, hup count (by omega),
      ih fun c hc => hup c (by omega), ← List.append_assoc, show count + 1 + n = count + (n + 1) by omega]
    congr 1
    by_cases h : count + 1 = p.silThreshold
    · rw [if_pos h, if_neg (by omega), if_pos (by omega), List.append_nil]
    · rw [if_neg h, List.nil_append]
      exact if_congr (by omega) rfl rfl

/-- The same when nothing follows, from either detection state. -/
theorem counterRun_silence {up : ℕ → ℕ} (p : Params) (det : DetState) {n count : ℕ}
    (hup : ∀ c < count + n, up c = c + 1) :
    counterRun up p (List.replicate n .none) det count =
      if count < p.silThreshold ∧ p.silThreshold ≤ count + n then [charLF] else [] := by
  have h := counterRun_silence_append p [] hup
  rw [List.append_nil, counterRun, List.append_nil] at h
  rw [← h]
  cases n <;> rfl

/-- The counter after silent windows. -/
theorem segRun_silence_sil {p : Params} (hp : 1 ≤ p.silThreshold) (hmax : p.silMax < 256) (n : ℕ) (det : DetState)
    {sil : Byte} (hsil : sil.toNat ≤ p.silMax) :
    (segRun p (List.replicate n .none) det sil).sil.toNat = min (sil.toNat + n) p.silMax := by
  induction n with
  | zero => exact (Nat.min_eq_left hsil).symm
  | succ n ih =>
    rw [List.replicate_succ', segRun_concat, segWindow_none hp, silNext_toNat hmax, ih]
    omega

theorem segRun_silence_det {p : Params} (hp : 1 ≤ p.silThreshold) (n : ℕ) (det : DetState) (sil : Byte) :
    (segRun p (List.replicate (n + 1) .none) det sil).det = .idle := by
  rw [List.replicate_succ', segRun_concat, segWindow_none hp]

/-- A counter that wraps counts to 255 and past the threshold, falls to 0 at the next window, and passes the threshold
again. -/
theorem counterRun_wrapping_silence :
    counterRun (fun n => (n + 1) % 256) ps1 (List.replicate 277 .none) .idle 0 = [charLF, charLF] := by
  have hup : ∀ c < 255, (c + 1) % 256 = c + 1 := fun c hc => Nat.mod_eq_of_lt (by omega)
  have hsplit : List.replicate 277 Verdict.none = List.replicate 255 .none ++ .none :: List.replicate 21 .none := by
    rw [← List.replicate_succ, ← List.replicate_add]
  rw [hsplit, counterRun_silence_append ps1 _ fun c hc => hup c (by omega), counterRun,
    counterRun_silence ps1 .idle fun c hc => hup c (by omega)]
  rfl

/-- Settles O45: the counter that stops is the unbounded one cut off above the threshold. -/
theorem saturatingCounterIndistinguishable : Obligations.SaturatingCounterIndistinguishable := by
  refine ⟨fun p vs det sil hok hmax hsil => ?_, fun n => ?_, ?_, ?_⟩
  · obtain ⟨hp, hlt⟩ := silThreshold_range_of_ok hok
    exact segRun_emitted_eq_counterRun hp hlt (by omega) vs det (Nat.min_eq_left hsil).symm
  · simpa using segRun_silence_sil ps1_silThreshold_pos (by decide) n .idle (sil := 0) (by decide)
  · rw [counterRun_wrapping_silence]; rfl
  · rw [counterRun_silence ps1 .idle fun _ _ => rfl]; rfl

/-! ### Boundaries -/

/-- Not two boundaries. -/
def NotBothLF (a b : Byte) : Prop := ¬ (a = charLF ∧ b = charLF)

theorem symrom_ne_charLF (i : SymIndex) : symrom i ≠ charLF := by revert i; decide

/-- After a boundary the machine is idle with the counter at the threshold or above. From there another boundary needs the
counter cleared, and a window that clears it emits a character. -/
theorem segRun_emitted_head_ne_LF (vs : List Verdict) {sil : Byte} (hsil : 21 ≤ sil.toNat) :
    ∀ c ∈ (segRun ps1 vs .idle sil).emitted.head?, c ≠ charLF := by
  have hp := ps1_silThreshold_pos
  induction vs generalizing sil with
  | nil => simp [segRun]
  | cons v vs ih =>
    cases v with
    | digit i => simpa [segRun_digit_cons hp] using symrom_ne_charLF i
    | unknown => simp [segRun_unknown_cons hp, charUnknown, charLF]
    | none =>
      have hnext : (silNext ps1 sil).toNat = min (sil.toNat + 1) 255 := silNext_toNat (by decide) sil
      rw [segRun_none_cons hp, ps1_silThreshold, if_neg (by omega)]
      exact ih (by omega)

/-- No two neighbours of the output are boundaries, by induction on the verdicts. -/
theorem segRun_emitted_isChain (vs : List Verdict) (det : DetState) (sil : Byte) :
    (segRun ps1 vs det sil).emitted.IsChain NotBothLF := by
  have hp := ps1_silThreshold_pos
  induction vs generalizing det sil with
  | nil => exact List.isChain_nil
  | cons v vs ih =>
    cases v with
    | digit i =>
      rw [segRun_digit_cons hp]
      cases det with
      | idle => exact List.isChain_cons.2 ⟨fun _ _ h => symrom_ne_charLF i h.1, ih ..⟩
      | tone => exact ih ..
    | unknown =>
      rw [segRun_unknown_cons hp]
      exact List.isChain_cons.2 ⟨fun _ _ h => absurd h.1 (by decide), ih ..⟩
    | none =>
      rw [segRun_none_cons hp]
      split
      case isTrue h =>
        exact List.isChain_cons.2 ⟨fun c hc hLF => segRun_emitted_head_ne_LF vs (Nat.le_of_eq h.symm) c hc hLF.2, ih ..⟩
      case isFalse => exact ih ..

/-- Settles O46. -/
theorem noTwoBoundariesInARow : Obligations.NoTwoBoundariesInARow := by
  intro vs det sil before after a b h
  have hchain := segRun_emitted_isChain vs det sil
  rw [h, List.isChain_append_cons_cons] at hchain
  exact hchain.2.1

/-! ### SEG and PUSH -/

/-- Emission writes the output port alone. -/
theorem emitAll_frame (cs : List Byte) (s : State) :
    emitAll cs s = { s with out := (emitAll cs s).out, pend := (emitAll cs s).pend } := by
  induction cs generalizing s with
  | nil => rfl
  | cons c cs ih => exact ih (emit c s)

/-- SEG writes its own two registers and the output port. -/
theorem segmentStep_frame (p : Params) (s : State) :
    segmentStep p s = { s with
      det := (segmentStep p s).det, sil := (segmentStep p s).sil,
      out := (segmentStep p s).out, pend := (segmentStep p s).pend } := by
  obtain ⟨hdet, hsil, -⟩ := segmentStep_spec p s
  rw [hdet, hsil]
  exact emitAll_frame _ _

/-- Settles O40: each row of the table is what SEG makes of one verdict. -/
theorem segTransitionTable : Obligations.SegTransitionTable := by
  intro s
  have hp := ps1_silThreshold_pos
  refine ⟨segmentStep ps1 s, rfl, segmentStep_frame ps1 s, fun h => (segmentStep_output hp h).1, ?_⟩
  obtain ⟨hdet, hsil, hout⟩ := segmentStep_spec ps1 s
  rw [hdet, hsil, hout]
  cases s.rk with
  | digit =>
    rw [verdictOf, segWindow_digit hp]
    cases s.det with
    | idle => exact ⟨rfl, rfl, rfl⟩
    | tone => exact ⟨rfl, rfl, List.append_nil _⟩
  | unknown =>
    rw [verdictOf, segWindow_unknown hp]
    cases s.det <;> exact ⟨rfl, rfl, rfl⟩
  | none =>
    rw [verdictOf, segWindow_none hp]
    exact ⟨rfl, silNext_toNat (by decide) _, rfl⟩

/-- With the output register empty, the character of an analysis is left pending. -/
theorem analyse_output {p : Params} (hp : 1 ≤ p.silThreshold) {s : State} (h : s.pend = none) :
    (analyse p s).out = s.out ∧
    (analyse p s).pend.toList = (segWindow p (verdictOf (decided p s).rk (decided p s).rsym) s.det s.sil).emitted :=
  segmentStep_output hp (s := decided p s) h

/-- Settles O41: of the cases of a PUSH only the analysis emits, and it runs SEG once. -/
theorem oneCharacterPerWindow : Obligations.OneCharacterPerWindow := by
  refine ⟨fun p v det sil hok => segWindow_emitted_length (silThreshold_range_of_ok hok).1 v det sil, fun s t x ht => ?_⟩
  have hp := ps1_silThreshold_pos
  rcases execPush_cases x s with ⟨-, e⟩ | ⟨-, -, e⟩ | ⟨-, -, e⟩ | ⟨-, -, e⟩ <;> cases e.symm.trans ht
  · exact ⟨[], Nat.zero_le _, (List.append_nil _).symm, fun h => ⟨rfl, congrArg Option.toList h⟩⟩
  · exact ⟨[], Nat.zero_le _, (List.append_nil _).symm, fun h => ⟨rfl, congrArg Option.toList h⟩⟩
  · exact ⟨_, segWindow_emitted_length hp _ _ _, analyse_OUT ps1 _,
      analyse_output hp (s := storeNext x (latchSample x s))⟩

/-! ### Runs of equal windows -/

/-- In a tone every digit is suppressed. -/
theorem segRun_digits_tone {p : Params} (hp : 1 ≤ p.silThreshold) (is : List SymIndex) :
    segRun p (is.map .digit) .tone 0 = ⟨.tone, 0, []⟩ := by
  induction is with
  | nil => rfl
  | cons i is ih => rw [List.map_cons, segRun_digit_cons hp, ih]; rfl

/-- Settles O42: after the first digit the machine is in a tone. -/
theorem heldDigitEmittedOnce : Obligations.HeldDigitEmittedOnce := by
  intro i is sil
  have hp := ps1_silThreshold_pos
  rw [List.map_cons, segRun_digit_cons hp, segRun_digit_cons hp, segRun_digits_tone hp]
  exact ⟨rfl, rfl⟩

/-- Unknown windows that find the counter cleared change nothing but the output. -/
theorem segRun_replicate_unknown {p : Params} (hp : 1 ≤ p.silThreshold) (n : ℕ) (det : DetState) :
    segRun p (List.replicate n .unknown) det 0 = ⟨det, 0, List.replicate n charUnknown⟩ := by
  induction n with
  | zero => rfl
  | succ n ih => rw [List.replicate_succ, segRun_unknown_cons hp, ih]; rfl

/-- Settles O43: the first unknown window clears the counter. -/
theorem unknownEmittedEveryWindow : Obligations.UnknownEmittedEveryWindow := by
  intro n det sil
  have hp := ps1_silThreshold_pos
  rw [List.replicate_succ, segRun_unknown_cons hp, segRun_replicate_unknown hp]
  rfl

/-- Settles O44: the counter of the run, and the boundaries an unbounded counter emits in it. -/
theorem silenceRunHasOneBoundary : Obligations.SilenceRunHasOneBoundary := by
  intro n det
  have hp := ps1_silThreshold_pos
  have hsil : (segRun ps1 (List.replicate (n + 1) .none) det 0).sil = BitVec.ofNat 8 (min (n + 1) 255) := by
    apply BitVec.eq_of_toNat_eq
    rw [segRun_silence_sil hp (by decide) _ _ (by decide), BitVec.toNat_ofNat, Nat.mod_eq_of_lt (by omega)]
    simp
  have hemitted : (segRun ps1 (List.replicate (n + 1) .none) det 0).emitted = if 21 ≤ n + 1 then [0x0A] else [] := by
    rw [segRun_emitted_eq_counterRun hp (by decide) (by decide) (count := 0) _ _ rfl,
      counterRun_silence ps1 det fun _ _ => rfl]
    simp [charLF]
  rw [← segRun_silence_det hp n det 0, ← hsil, ← hemitted]

end Sys2Proof.Machine
end

section
/-! SUPPORT. The window buffer (spec/45_window_buffer.md): WRITE and SLIDE on their own, and which PUSH of a stream analyses
which samples (R215). -/

namespace Sys2Proof.Machine

/-! ### WRITE and SLIDE -/

theorem execWrite_of_lt {s : State} (hf : s.fill.toNat < ps1.n) : execWrite s = .next (storeNext s.sample s) :=
  execWrite_latched s.sample hf

/-- Settles O16: WRITE is the store of R210, and a read after it gives the value stored at its own index only. -/
theorem writeStoresSample : Obligations.WriteStoresSample := by
  intro s hwf hf
  have hlt : s.fill.toNat < ps1.n := Nat.lt_succ_of_le hf
  exact ⟨storeNext s.sample s, execWrite_of_lt hlt, rfl, storeNext_fill_toNat s.sample hlt,
    (Memory.read_write hwf).trans (if_pos rfl), fun i hi => (Memory.read_write hwf).trans (if_neg hi),
    Memory.wf_write hwf⟩

/-- Settles O18: the copy of SLIDE as if simultaneous, with the constants of PS1. -/
theorem slideShiftsWindow : Obligations.SlideShiftsWindow := fun s hwf =>
  ⟨slideWindow ps1 s, rfl, rfl, slideMemory_wf ps1 hwf, fun i hi => (slideMemory_read ps1 hwf i).trans (if_pos hi)⟩

/-! ### The magnitudes of an analysis -/

/-- The magnitudes depend on the elements of the window only. -/
theorem hardwareMagnitude_congr (p : Params) (b : Bin) {m m' : Memory} (h : ∀ n < p.n, m.read n = m'.read n) :
    hardwareMagnitude p m b = hardwareMagnitude p m' b := by
  unfold hardwareMagnitude
  rw [laneSums_congr p b h]

theorem analyse_mag_get_eq_hardwareMagnitude (p : Params) (s : State) (b : Bin) :
    (analyse p s).mag.get b = hardwareMagnitude p s.win b := analyse_mag_get p s b

/-- The magnitudes of a full window are those of the window of the stream. -/
theorem holdsFrom_hardwareMagnitude {xs : List Byte} {j : ℕ} {m : Memory} (h : HoldsFrom xs j m ps1.n) (b : Bin) :
    hardwareMagnitude ps1 m b = hardwareMagnitude ps1 (windowAt xs j) b :=
  hardwareMagnitude_congr ps1 b fun n hn => (h.read n hn).trans (windowAt_read xs j hn).symm

/-! ### The PUSH that fills the window -/

theorem windowCount_of_last {len j : ℕ} (h : len = 76 * j + 227) : windowCount len = j := by
  rw [windowCount_eq]
  omega

/-- The window of a stream is one sample short of full exactly when the next sample is the last of a window. -/
theorem afterStream_fill_eq_iff {s₀ s : State} {xs : List Byte} (h : AfterStream s₀ xs s) :
    s.fill.toNat + 1 = ps1.n ↔ xs.length = 76 * windowCount xs.length + 227 := by
  have hlen := h.holds.length
  rw [ps1_n]
  omega

/-- The next PUSH is an analysis exactly when its sample is the last of a window. -/
theorem afterStream_runsAnalysis_iff {s₀ s : State} {xs : List Byte} (h : AfterStream s₀ xs s) (x : Byte) :
    runsAnalysis (.push x) s = true ↔ xs.length = 76 * windowCount xs.length + 227 :=
  decide_eq_true_iff.trans <| (and_iff_right h.run).trans (afterStream_fill_eq_iff h)

/-- The PUSH of the last sample of window `j` leaves the magnitudes of that window, and the window buffer holds the
samples that window shares with the next. -/
theorem afterStream_execPush_last {s₀ s u : State} {xs : List Byte} {x : Byte} {j : ℕ} (h : AfterStream s₀ xs s)
    (hu : execPush x s = .next u) (hj : xs.length = 76 * j + 227) :
    (∀ b : Bin, u.mag.get b = hardwareMagnitude ps1 (windowAt (xs ++ [x]) j) b) ∧
      HoldsFrom (xs ++ [x]) (j + 1) u.win ps1.keep := by
  obtain rfl : windowCount xs.length = j := windowCount_of_last hj
  have hf : s.fill.toNat + 1 = ps1.n := (afterStream_fill_eq_iff h).2 hj
  have hwf : (storeNext x (latchSample x s)).win.wf = true := Memory.wf_write h.wf
  have hfull : HoldsFrom (xs ++ [x]) (windowCount xs.length) (storeNext x (latchSample x s)).win ps1.n :=
    hf ▸ holdsFrom_write h.holds h.wf x
  obtain rfl : analyse ps1 (storeNext x (latchSample x s)) = u :=
    Host.Outcome.next.inj ((execPush_of_full x h.run hf).symm.trans hu)
  constructor
  · intro b
    rw [analyse_mag_get_eq_hardwareMagnitude, holdsFrom_hardwareMagnitude hfull]
  · rw [analyse_win]
    exact holdsFrom_slideMemory hfull hwf

/-! ### The number of analyses -/

theorem analysisCount_nop_cons (is : List Instr) (s : State) : analysisCount (.nop :: is) s = analysisCount is s :=
  Nat.zero_add _

theorem analysisCount_push_cons {x : Byte} {s t : State} (h : execPush x s = .next t) (is : List Instr) :
    analysisCount (.push x :: is) s = (if runsAnalysis (.push x) s then 1 else 0) + analysisCount is t := by
  simp only [analysisCount, exec, h]

/-- From a point within a stream, the commands run the analyses of the windows that their samples complete. -/
theorem afterStream_analysisCount {s₀ s : State} {xs : List Byte} {is : List Instr} (h : AfterStream s₀ xs s)
    (his : ∀ i ∈ is, Feeds i) :
    windowCount xs.length + analysisCount is s = windowCount (xs ++ samplesOf is).length := by
  induction is generalizing xs s with
  | nil => simp [analysisCount, samplesOf]
  | cons i is ih =>
    obtain ⟨hi, hrest⟩ := List.forall_mem_cons.1 his
    rcases hi with rfl | ⟨x, rfl⟩
    · rw [analysisCount_nop_cons]
      exact ih h hrest
    · obtain ⟨t, ht, hafter⟩ := afterStream_execPush h x
      calc windowCount xs.length + analysisCount (.push x :: is) s
          = windowCount (xs ++ [x]).length + analysisCount is t := by
            rw [analysisCount_push_cons ht, windowCount_concat, Nat.add_assoc]
            simp only [afterStream_runsAnalysis_iff h x]
        _ = windowCount (xs ++ samplesOf (.push x :: is)).length := by
            rw [ih hafter hrest, List.append_assoc]
            rfl

/-- Settles O56: the block after the commands holds what the stream says, and the next PUSH is an analysis or none. -/
theorem windowsOfStream : Obligations.WindowsOfStream := by
  intro is s hm hf hwf his
  have hstart := afterStream_nil hm hf hwf
  obtain ⟨t, ht, hend⟩ := afterStream_execAll hstart his
  rw [List.nil_append] at hend
  have hcount : analysisCount is s = windowCount (samplesOf is).length := by
    simpa [windowCount_eq] using afterStream_analysisCount hstart his
  refine ⟨t, ht, hend.run, hend.wf, hcount, hend.holds.length, hend.holds.read, fun x => ?_⟩
  obtain ⟨u, hu, -⟩ := afterStream_execPush hend x
  refine ⟨u, hu, (afterStream_runsAnalysis_iff hend x).trans ⟨fun h => ⟨_, h⟩, ?_⟩, fun j hj => ?_⟩
  · rintro ⟨j, hj⟩
    rwa [windowCount_of_last hj]
  · obtain ⟨hmag, hnext⟩ := afterStream_execPush_last hend hu hj
    exact ⟨hmag, fun n hn => windowAt_read _ j hn, hnext.read⟩

end Sys2Proof.Machine
end

section
/-! SUPPORT. Mode `DONE` and `PERR` stay until a reset (spec/60_exceptions.md R238): what an instruction and an edge leave of
the two. -/

namespace Sys2Proof.Machine

/-- Mode `DONE` and a raised `PERR` of the first state are still there in the second. -/
def KeepsDoneAndPerr (s t : State) : Prop :=
  (s.mode = .done → t.mode = .done) ∧ (s.perr = true → t.perr = true)

/-- EOS is the only instruction besides RESET that writes `MODE`, and it ends in `DONE`. -/
theorem exec_mode_done {i : Instr} {s t : State} (h : exec i s = .next t) (hi : i ≠ .reset) (hs : s.mode = .done) :
    t.mode = .done := by
  by_cases heos : i = .eos
  · subst heos
    cases h
    exact endStream_mode s
  · obtain ⟨-, -, hmode, -⟩ := onlyTheNamedWritersWrite i s t h
    exact (hmode heos hi).trans hs

/-- PUSH is the only instruction besides RESET that writes `PERR`, and it only raises it. -/
theorem exec_perr_raised {i : Instr} {s t : State} (h : exec i s = .next t) (hi : i ≠ .reset) (hs : s.perr = true) :
    t.perr = true := by
  by_cases hpush : ∃ x, i = .push x
  · obtain ⟨x, rfl⟩ := hpush
    rcases execPush_cases x s with ⟨-, e⟩ | ⟨-, -, e⟩ | ⟨-, -, e⟩ | ⟨-, -, e⟩ <;> cases e.symm.trans h <;> simp [hs]
  · obtain ⟨-, -, -, hperr, -⟩ := onlyTheNamedWritersWrite i s t h
    exact (hperr (not_exists.1 hpush) hi).trans hs

theorem exec_keepsDoneAndPerr {i : Instr} {s t : State} (h : exec i s = .next t) (hi : i ≠ .reset) :
    KeepsDoneAndPerr s t :=
  ⟨exec_mode_done h hi, exec_perr_raised h hi⟩

/-- A ready block fetches the command word it is offered. -/
theorem fetch_of_command {s : State} {w : CmdWord} {rest : List CmdWord} (hready : s.inReady = true)
    (hv : s.pinsNow.inValid = true) (hq : s.cmdq = w :: rest) : fetch s = .command (decodeCmd w) rest := by
  obtain ⟨hr, hs, -⟩ := (inReady_iff s).1 hready
  have hidle : decodeUop s.stg.code = .error .idleStage := by rw [hs]; rfl
  simp [fetch, hr, hidle, hq, hready, hv]

/-- An edge is a reset by the pin, accepts a RESET, or keeps mode `DONE` and a raised `PERR`. -/
theorem step_reset_or_keepsDoneAndPerr {s t : State} (h : step s = .next t) :
    s.pinsNow.rstN = false ∨ (∃ rest, fetch s = .command .reset rest) ∨ KeepsDoneAndPerr s t := by
  rcases step_cases s with ⟨hr, -⟩ | ⟨-, i, hi, e⟩ | ⟨hr, hs, hp, hv, w, rest, hq, e⟩ | ⟨-, -, -, e⟩
  · exact .inl hr
  · obtain ⟨u, hu, rfl⟩ := advanceStage_eq_next (e.symm.trans h)
    obtain ⟨hmode, hperr⟩ := exec_keepsDoneAndPerr hu (decodeUop_ne_reset hi)
    rw [portEdge_mode] at hmode
    rw [portEdge_perr] at hperr
    exact .inr (.inr ⟨hmode, hperr⟩)
  · by_cases hreset : decodeCmd w = .reset
    · have hfetch := fetch_of_command ((inReady_iff s).2 ⟨hr, hs, hp⟩) hv hq
      exact .inr (.inl ⟨rest, hreset ▸ hfetch⟩)
    · have hkeeps : KeepsDoneAndPerr { s with cmdq := rest, pins := s.pins.tail } t :=
        exec_keepsDoneAndPerr (e.symm.trans h) hreset
      exact .inr (.inr hkeeps)
  · cases e.symm.trans h
    exact .inr (.inr ⟨fun hm => (portEdge_mode s).trans hm, fun hp => (portEdge_perr s).trans hp⟩)

/-- Settles O51: an edge that is no reset keeps both, because every instruction but RESET does. -/
theorem onlyResetLeavesDone : Obligations.OnlyResetLeavesDone := by
  refine ⟨fun _ _ _ => exec_keepsDoneAndPerr, fun s t h hleft => ?_, fun s => ⟨resetBlock s, rfl, rfl, rfl⟩⟩
  rcases step_reset_or_keepsDoneAndPerr h with hr | hreset | ⟨hmode, hperr⟩
  · exact .inl hr
  · exact .inr hreset
  · rcases hleft with ⟨hdone, hrun⟩ | ⟨hraised, hclear⟩
    · cases hrun.symm.trans (hmode hdone)
    · cases hclear.symm.trans (hperr hraised)

end Sys2Proof.Machine
end

section
/-! SUPPORT. A host that refuses the pending character (spec/70_reset_and_hazards.md R272): the edge at which it does, and
any number of them. -/

namespace Sys2Proof.Machine

/-- A host that is not ready takes no character: the edge of the ports uses up the levels only. -/
theorem portEdge_of_not_outReady {s : State} (h : s.pinsNow.outReady = false) :
    portEdge s = { s with pins := s.pins.tail } := by
  simp [portEdge, h]

/-- An idle block whose pending character is refused waits, and the edge uses up the levels only. -/
theorem step_of_refusedCharacter {s : State} {c : Byte} (hidle : s.stg = .idle) (hpend : s.pend = some c)
    (hr : s.pinsNow.rstN = true) (ho : s.pinsNow.outReady = false) :
    step s = .next { s with pins := s.pins.tail } := by
  have hpending : s.pend ≠ none := hpend ▸ Option.some_ne_none c
  rw [step_of_wait hr hidle (.inr (.inr hpending)), portEdge_of_not_outReady ho]

/-- Settles O10, by induction on the edges: after each the block is again idle with the same character pending. -/
theorem pendingCharacterBlocks : Obligations.PendingCharacterBlocks := by
  intro k
  induction k with
  | zero => exact fun _ _ _ _ _ _ => rfl
  | succ k ih =>
    intro s c hidle hpend hk hlevels
    obtain ⟨p, ps, hpins⟩ := List.exists_cons_of_length_pos (Nat.zero_lt_of_lt hk)
    rw [hpins, List.length_cons, Nat.add_le_add_iff_right] at hk
    rw [hpins, List.take_succ_cons, List.forall_mem_cons] at hlevels
    obtain ⟨⟨hr, ho⟩, hlater⟩ := hlevels
    have hnow : s.pinsNow = p := by rw [State.pinsNow, hpins]; rfl
    have hstep : step s = .next { s with pins := ps } := by
      rw [step_of_refusedCharacter hidle hpend (hnow ▸ hr) (hnow ▸ ho), hpins, List.tail_cons]
    rw [edges_succ, hstep, hpins, List.drop_succ_cons]
    exact ih { s with pins := ps } c hidle hpend hk hlater

end Sys2Proof.Machine
end
